-- ==== Sys2Proof/Word.lean ====
section
/-! DEFINITION. The plain data types of the core: bytes, command words, bit sequences (00_scope.md R10, R11). -/

namespace Sys2Proof

/-- A byte: an unsigned 8-bit value (R10); also a symbol, that is an index of the LUT (R17). -/
abbrev Byte := BitVec 8

/-- A command word: 16 bits, presented whole by the host (R80). -/
abbrev Word := BitVec 16

/-- A finite sequence of bits in the order they were appended, first bit first (R10, R11). -/
abbrev Bits := List Bool

end Sys2Proof
end

