-- ==== Sys2Proof/Syntax.lean ====
section
/-! DEFINITION. The 23 commands of the opcode table as one inductive, and the six word formats
(30_encoding.md R81, R83 to R88). -/

namespace Sys2Proof

/-- A bit-vector register number, `v0` to `v3`: the 2-bit register field, all four values legal (R24, R82). -/
abbrev VReg := Fin 4

/-- The six formats of a command word (R81). -/
inductive Format where
  | n   -- no operand
  | ab  -- one bit
  | v   -- one register
  | vb  -- one register and a bit
  | vv  -- two registers
  | i   -- an 8-bit immediate
  deriving DecidableEq, Repr

/-- The commands, one constructor per row of the opcode table, in the table's order; destination first (R95). -/
inductive Instr where
  | accClr                        -- ACC.CLR
  | accAppb (b : Bool)            -- ACC.APPB b
  | accParse                      -- ACC.PARSE
  | accText                       -- ACC.TEXT
  | bvClr (v : VReg)              -- BV.CLR v
  | bvAppb (vd : VReg) (b : Bool) -- BV.APPB vd, b
  | bvAppa (vd : VReg)            -- BV.APPA vd
  | bvAppv (vd vs : VReg)         -- BV.APPV vd, vs
  | bvLen (v : VReg)              -- BV.LEN v
  | bvParse (vd : VReg)           -- BV.PARSE vd
  | bvIter (v : VReg)             -- BV.ITER v
  | bvNext                        -- BV.NEXT
  | hufBuild                      -- HUF.BUILD
  | hufMap (vd : VReg)            -- HUF.MAP vd
  | hufEncode (vd : VReg)         -- HUF.ENCODE vd
  | hufDecode (vs : VReg)         -- HUF.DECODE vs
  | serBv (v : VReg)              -- SER.BV v
  | desBv (vd : VReg)             -- DES.BV vd
  | serDict                       -- SER.DICT
  | desDict                       -- DES.DICT
  | inClr                         -- IN.CLR
  | inPush (imm8 : Byte)          -- IN.PUSH imm8
  | ioXfer                        -- IO.XFER
  deriving DecidableEq, Repr

/-- The format of a command (R81, last column). -/
def Instr.format : Instr → Format
  | .accClr | .accParse | .accText | .bvNext | .hufBuild | .serDict | .desDict | .inClr | .ioXfer => .n
  | .accAppb _ => .ab
  | .bvClr _ | .bvAppa _ | .bvLen _ | .bvParse _ | .bvIter _ => .v
  | .hufMap _ | .hufEncode _ | .hufDecode _ | .serBv _ | .desBv _ => .v
  | .bvAppb _ _ => .vb
  | .bvAppv _ _ => .vv
  | .inPush _ => .i

/-- The opcode `w[15:8]` of a command (R83 to R87). -/
def Instr.opcode : Instr → Byte
  | .accClr => 0x10
  | .accAppb _ => 0x11
  | .accParse => 0x12
  | .accText => 0x13
  | .bvClr _ => 0x20
  | .bvAppb _ _ => 0x21
  | .bvAppa _ => 0x22
  | .bvAppv _ _ => 0x23
  | .bvLen _ => 0x24
  | .bvParse _ => 0x25
  | .bvIter _ => 0x26
  | .bvNext => 0x27
  | .hufBuild => 0x30
  | .hufMap _ => 0x31
  | .hufEncode _ => 0x32
  | .hufDecode _ => 0x33
  | .serBv _ => 0x40
  | .desBv _ => 0x41
  | .serDict => 0x42
  | .desDict => 0x43
  | .inClr => 0x50
  | .inPush _ => 0x51
  | .ioXfer => 0x52

end Sys2Proof
end

