-- ==== Sys2Proof/WellFormed.lean ====
section
/-! DEFINITION. Which command words are well formed (30_encoding.md R81, R91, R92). The operands of an
`Instr` are typed by their exact field widths (a register is `Fin 4`, a bit is `Bool`, an immediate is a
byte), so every term of `Instr` is well formed (R82: every value of every field is legal) and the checks are
on the word: its opcode is assigned, and the bits its format does not use are zero. -/

namespace Sys2Proof

/-- The bits of a word that a format does not use and that must be zero (R81, R91). -/
def Format.zeroBits : Format → Word
  | .n => 0x00FF
  | .ab => 0x00EF
  | .v => 0x00FC
  | .vb => 0x00EC
  | .vv => 0x00F0
  | .i => 0x0000

/-- The format of an opcode, none where the opcode is unassigned (R83 to R87, R92). -/
def formatOfOpcode (op : Byte) : Option Format :=
  match op.toNat with
  | 0x10 | 0x12 | 0x13 | 0x27 | 0x30 | 0x42 | 0x43 | 0x50 | 0x52 => some .n
  | 0x11 => some .ab
  | 0x20 | 0x22 | 0x24 | 0x25 | 0x26 | 0x31 | 0x32 | 0x33 | 0x40 | 0x41 => some .v
  | 0x21 => some .vb
  | 0x23 => some .vv
  | 0x51 => some .i
  | _ => none

/-- Check 1: the opcode byte `w[15:8]` is assigned (R92). -/
def opcodeAssigned (w : Word) : Bool := (formatOfOpcode (w.extractLsb' 8 8)).isSome

/-- Check 2: the must-be-zero bits of the opcode's format are zero (R91). -/
def unusedBitsZero (w : Word) : Bool :=
  match formatOfOpcode (w.extractLsb' 8 8) with
  | none => true
  | some f => w &&& f.zeroBits == 0

/-- A word is a command exactly when both checks pass (R91, R92, R93). -/
def wordWellFormed (w : Word) : Bool := opcodeAssigned w && unusedBitsZero w

end Sys2Proof
end

