-- ==== Sys2Proof/Decode.lean ====
section
/-! DEFINITION. The command decoder, as the match-and-mask table of 30_encoding.md R88 read row by row,
total on any 16-bit word, and the encoder written from the formats of R81. -/

namespace Sys2Proof

/-- Why a word is no command: the name of the rejection. Both are reported as ILLEGAL (R92). -/
inductive Illegal where
  /-- the opcode byte is outside the assigned ones (R92) -/
  | unassignedOpcode
  /-- an assigned opcode with a non-zero must-be-zero bit (R91) -/
  | mustBeZero
  deriving DecidableEq, Repr

/-- `op = w[15:8]` (R80). -/
def fieldOp (w : Word) : Byte := w.extractLsb' 8 8

/-- `imm8 = w[7:0]` (R80, R82). -/
def fieldImm8 (w : Word) : Byte := w.extractLsb' 0 8

/-- `b = w[4]` (R80, R82). -/
def fieldB (w : Word) : Bool := w.getLsbD 4

/-- `vs = w[3:2]` (R80, R82). -/
def fieldVs (w : Word) : VReg := (w.extractLsb' 2 2).toFin

/-- `vd = w[1:0]`, also the single register field of format V (R80, R82). -/
def fieldVd (w : Word) : VReg := (w.extractLsb' 0 2).toFin

/-- One row of the table of R88: a word is this row's command when `w AND mask = match`. -/
structure Row where
  mnemonic : String
  format : Format
  matchBits : Word
  mask : Word
  build : Word → Instr

/-- Opcode group 0x1_, the Bit Accumulator commands (R83). -/
def accRows : List Row :=
  [ ⟨"ACC.CLR", .n, 0x1000, 0xFFFF, fun _ => .accClr⟩,
    ⟨"ACC.APPB", .ab, 0x1100, 0xFFEF, fun w => .accAppb (fieldB w)⟩,
    ⟨"ACC.PARSE", .n, 0x1200, 0xFFFF, fun _ => .accParse⟩,
    ⟨"ACC.TEXT", .n, 0x1300, 0xFFFF, fun _ => .accText⟩ ]

/-- Opcode group 0x2_, the Bit Vector commands (R84). -/
def bvRows : List Row :=
  [ ⟨"BV.CLR", .v, 0x2000, 0xFFFC, fun w => .bvClr (fieldVd w)⟩,
    ⟨"BV.APPB", .vb, 0x2100, 0xFFEC, fun w => .bvAppb (fieldVd w) (fieldB w)⟩,
    ⟨"BV.APPA", .v, 0x2200, 0xFFFC, fun w => .bvAppa (fieldVd w)⟩,
    ⟨"BV.APPV", .vv, 0x2300, 0xFFF0, fun w => .bvAppv (fieldVd w) (fieldVs w)⟩,
    ⟨"BV.LEN", .v, 0x2400, 0xFFFC, fun w => .bvLen (fieldVd w)⟩,
    ⟨"BV.PARSE", .v, 0x2500, 0xFFFC, fun w => .bvParse (fieldVd w)⟩,
    ⟨"BV.ITER", .v, 0x2600, 0xFFFC, fun w => .bvIter (fieldVd w)⟩,
    ⟨"BV.NEXT", .n, 0x2700, 0xFFFF, fun _ => .bvNext⟩ ]

/-- Opcode group 0x3_, the Huffman commands (R85). -/
def hufRows : List Row :=
  [ ⟨"HUF.BUILD", .n, 0x3000, 0xFFFF, fun _ => .hufBuild⟩,
    ⟨"HUF.MAP", .v, 0x3100, 0xFFFC, fun w => .hufMap (fieldVd w)⟩,
    ⟨"HUF.ENCODE", .v, 0x3200, 0xFFFC, fun w => .hufEncode (fieldVd w)⟩,
    ⟨"HUF.DECODE", .v, 0x3300, 0xFFFC, fun w => .hufDecode (fieldVd w)⟩ ]

/-- Opcode group 0x4_, the serializer commands (R86). -/
def serRows : List Row :=
  [ ⟨"SER.BV", .v, 0x4000, 0xFFFC, fun w => .serBv (fieldVd w)⟩,
    ⟨"DES.BV", .v, 0x4100, 0xFFFC, fun w => .desBv (fieldVd w)⟩,
    ⟨"SER.DICT", .n, 0x4200, 0xFFFF, fun _ => .serDict⟩,
    ⟨"DES.DICT", .n, 0x4300, 0xFFFF, fun _ => .desDict⟩ ]

/-- Opcode group 0x5_, the host data-movement commands (R87). -/
def ioRows : List Row :=
  [ ⟨"IN.CLR", .n, 0x5000, 0xFFFF, fun _ => .inClr⟩,
    ⟨"IN.PUSH", .i, 0x5100, 0xFF00, fun w => .inPush (fieldImm8 w)⟩,
    ⟨"IO.XFER", .n, 0x5200, 0xFFFF, fun _ => .ioXfer⟩ ]

/-- The complete table of R88. -/
def commandRows : List Row := accRows ++ bvRows ++ hufRows ++ serRows ++ ioRows

/-- `w AND mask = match` (R88). -/
def Row.accepts (r : Row) (w : Word) : Bool := w &&& r.mask == r.matchBits

/-- The decoder (R88): the command of the row that matches, else the name of the rejection (R91, R92). -/
def decode (w : Word) : Except Illegal Instr :=
  match commandRows.find? (fun r => r.accepts w) with
  | some r => .ok (r.build w)
  | none => if opcodeAssigned w then .error .mustBeZero else .error .unassignedOpcode

/-- A register number as it stands in a field (R82). -/
def encReg (r : VReg) : Word := BitVec.ofNat 16 r.val

/-- A bit immediate as it stands in a field (R82). -/
def encBit (b : Bool) : Word := if b then 1 else 0

/-- The command word of a command: its opcode in `w[15:8]` and its operands in the format's fields, every
other bit zero (R80, R81; the Encoding lines of R110 to R242). -/
def encode : Instr → Word
  | .accClr => 0x1000
  | .accAppb b => 0x1100 ||| (encBit b <<< 4)
  | .accParse => 0x1200
  | .accText => 0x1300
  | .bvClr v => 0x2000 ||| encReg v
  | .bvAppb vd b => 0x2100 ||| (encBit b <<< 4) ||| encReg vd
  | .bvAppa vd => 0x2200 ||| encReg vd
  | .bvAppv vd vs => 0x2300 ||| (encReg vs <<< 2) ||| encReg vd
  | .bvLen v => 0x2400 ||| encReg v
  | .bvParse vd => 0x2500 ||| encReg vd
  | .bvIter v => 0x2600 ||| encReg v
  | .bvNext => 0x2700
  | .hufBuild => 0x3000
  | .hufMap vd => 0x3100 ||| encReg vd
  | .hufEncode vd => 0x3200 ||| encReg vd
  | .hufDecode vs => 0x3300 ||| encReg vs
  | .serBv v => 0x4000 ||| encReg v
  | .desBv vd => 0x4100 ||| encReg vd
  | .serDict => 0x4200
  | .desDict => 0x4300
  | .inClr => 0x5000
  | .inPush imm8 => 0x5100 ||| imm8.setWidth 16
  | .ioXfer => 0x5200

/-- The decoder on a word numbered as the opcode table numbers it: a command is one 16-bit word, its bit 0
the word's bit 0 (R80), presented whole, so there is no byte order to undo (20_memory.md R63). -/
def decodeTableWord (nbits w : Nat) : Option Instr :=
  match decode (BitVec.ofNat 16 (w % 2 ^ nbits)) with
  | .ok i => some i
  | .error _ => none

end Sys2Proof
end

