-- ==== Sys2Proof/Machine/State.lean ====
section
/-! DEFINITION. The state of the core: every piece 10_state.md R20 names, as plain data, with the reset values
of R40; the faults and refusals. -/

namespace Sys2Proof.Machine

/-- A Bit Accumulator: a byte whose top `length` bits are significant, the rest zero (R21). The length is
0 to 8 by its type; that the low bits are zero is the predicate `Acc.Canonical`. -/
structure Acc where
  value : Byte
  length : Fin 9
  deriving DecidableEq, Repr

/-- A Bit Vector: complete bytes, oldest first, and the tail accumulator, whose length is below 8 (R23,
predicate `BitVector.Canonical`). -/
structure BitVector where
  completeBytes : List Byte
  tail : Acc
  deriving DecidableEq, Repr

/-- The empty accumulator `(0x00, 0)` (R21). -/
def Acc.empty : Acc := ⟨0x00, 0⟩

/-- The empty Bit Vector (R23). -/
def BitVector.empty : BitVector := ⟨[], Acc.empty⟩

/-- `LUT[0..255]`: for every symbol no code or one code (R27). -/
abbrev Lut := Vector (Option Bits) 256

/-- A byte buffer (IN or OUT) as memory: its cells by address. A buffer of n bytes lists the addresses
0 to n-1 in rising order and no other (R29, R30, R60, R61); an unlisted address holds no byte. -/
abbrev Memory := List Host.Cell

/-- The form a buffer's cells have: addresses 0, 1, ... in order, so strictly rising and without a gap. -/
abbrev Memory.wf (m : Memory) : Prop := m.map Prod.fst = List.range m.length

/-- What the host does next: it issues a command word (R8, R80) or raises the reset input (R280). -/
inductive HostAction where
  | issue (w : Word)
  | reset
  deriving DecidableEq, Repr

/-- The errors a command can raise (60_exceptions.md R250). -/
inductive Err where
  | format   -- FormatError (R251)
  | logic    -- LogicError, the fatal one (R252)
  | trunc    -- TruncatedStreamError (R253)
  | corrupt  -- CorruptDictionaryError (R254)
  | alpha    -- AlphabetTooLargeError (R255)
  | frame    -- FrameError (R257)
  | illegal  -- IllegalCommand (R257, R92)
  deriving DecidableEq, Repr

/-- The faults of a step. There is none: the spec's step is total (00_scope.md R9), every error, the fatal
LogicError included, is a next state with RES (and HALT, HCAUSE) written (R15, R256, R259). -/
inductive Fault where
  deriving DecidableEq, Repr

/-- The refusals of a step. -/
inductive Refusal where
  /-- Raised by an arm of `exec` whose command has no meaning yet; no arm does. Safe: the machine stops. -/
  | notModelled (mnemonic : String)
  /-- Raised by a command that would exceed a finite capacity the core is given (R6, 93_implementation_defined.md
  U8); never with the default, unbounded ones. Safe: the machine stops where the spec has no step. -/
  | capacityExceeded
  deriving DecidableEq, Repr

/-- The state of the core (R20), and the model's own record of what the host will do. IN_LEN, OUT_LEN and
N_LUT are by definition counts of IN, OUT and the LUT (R29, R30, R27): `State.inLen`, `State.outLen`,
`State.nLut` compute them, so each has one home. -/
structure State where
  /-- `ACC` (R22) -/
  acc : Acc
  /-- `v[0]` to `v[3]` (R24) -/
  v : Vector BitVector 4
  /-- `LUT[0..255]` (R27) -/
  lut : Lut
  /-- `IN` (R29) -/
  inBuf : Memory
  /-- `OUT` (R30) -/
  outBuf : Memory
  /-- `LEN` (R31) -/
  len : Nat
  /-- `IT.rem` (R32) -/
  itRem : Bits
  /-- `BIT` (R33) -/
  bit : Bool
  /-- `BITV` (R33) -/
  bitv : Bool
  /-- `RES`, 4 bits (R38) -/
  res : BitVec 4
  /-- `HALT` (R34) -/
  halt : Bool
  /-- `HCAUSE`, 4 bits (R34) -/
  hcause : BitVec 4
  /-- DESIGN CHOICE (log entry 1): the model's own field, what the host does next, oldest first. -/
  pending : List HostAction
  deriving DecidableEq, Repr

/-- The state after reset (R40, R280); nothing pending (log entry 1). -/
def State.reset : State where
  acc := Acc.empty
  v := Vector.replicate 4 BitVector.empty
  lut := Vector.replicate 256 none
  inBuf := []
  outBuf := []
  len := 0
  itRem := []
  bit := false
  bitv := false
  res := 0
  halt := false
  hcause := 0
  pending := []

end Sys2Proof.Machine
end

