-- ==== Sys2Proof/Machine/Flags.lean ====
section
/-! DEFINITION. The result codes and the only two flags, BIT and BITV (10_state.md R33, R38;
60_exceptions.md R250). -/

namespace Sys2Proof.Machine

/-- The code of an error in RES, 4 bits (R250). -/
def Err.code : Err → BitVec 4
  | .format => 1
  | .logic => 2
  | .trunc => 3
  | .corrupt => 4
  | .alpha => 5
  | .frame => 6
  | .illegal => 7

/-- The class of an error: LogicError alone is fatal (R250, R256, R259). -/
def Err.fatal : Err → Bool
  | .logic => true
  | .format | .trunc | .corrupt | .alpha | .frame | .illegal => false

/-- BV.ITER's flags: both 0 (R150). -/
def State.clearIterFlags (s : State) : State := { s with bit := false, bitv := false }

/-- BV.NEXT's flags: the delivered bit with BITV = 1, or `(0, 0)` at the end (R33, R152). -/
def State.setIterFlags (s : State) : Option Bool → State
  | some b => { s with bit := b, bitv := true }
  | none => { s with bit := false, bitv := false }

end Sys2Proof.Machine
end

