-- ==== Sys2Proof/Config.lean ====
section
/-! DEFINITION. The implementation parameters of 00_scope.md R6. The open ones are a structure the model takes as an
argument, with the spec's default (92_eei_decisions.md D20). The spec leaves no value free (93_implementation_defined.md: nothing is
treated as `any value`), so there is no opaque constant here. TIE_BREAK, DICT_REGION and NBV are fixed by
the rules R163, R98 and R24 and stand in the definitions that follow those rules. -/

namespace Sys2Proof

/-- ACC_MAX: the largest length of a bare accumulator (R6, R21). -/
def Config.accMax : Nat := 8

/-- DICT_N_MAX: the largest entry count a Dictionary frame can carry (R6, R98). -/
def Config.dictNMax : Nat := 255

/-- CODELEN_MAX: the largest code length a LUT entry can carry (R6, R27). -/
def Config.codeLenMax : Nat := 255

/-- SINGLE_CODE: the code of the only symbol of a one-symbol input (R6, R165, decision D12). -/
def Config.singleCode : Bits := [false]

/-- The four parameters R6 leaves OPEN, an argument of the model: the capacity of a bit-vector register in bits
(BV_CAP), of IN and of OUT in bytes (BUF_CAP), the width of a symbol frequency (COUNT_W) and of LEN (LEN_W); none is
unbounded (D20). -/
structure Capacities where
  bvCap : Option Nat
  bufCap : Option Nat
  countW : Option Nat
  lenW : Option Nat
  deriving DecidableEq, Repr

/-- The spec's default for the open parameters: everything unbounded (R6, D20). -/
def Config.capacities : Capacities := ⟨none, none, none, none⟩

/-- Whether a size is within a capacity; an unbounded capacity admits every size (U8). -/
def fitsCap : Option Nat → Nat → Bool
  | none, _ => true
  | some c, n => decide (n ≤ c)

/-- Whether a number is representable in a width; an unbounded width represents every number (U8). -/
def fitsWidth : Option Nat → Nat → Bool
  | none, _ => true
  | some w, n => decide (n < 2 ^ w)

end Sys2Proof
end

