-- ==== Sys2Proof/Machine/Operands.lean ====
section
/-! DEFINITION. The operand forms: an accumulator and a Bit Vector as bit sequences, packing, the appends of
the barrel shifter, and the text form of bits (00_scope.md R12, R13; 30_encoding.md R99, R100;
41_bitvector.md R134, R136, R138). -/

namespace Sys2Proof.Machine

/-- `b << k` on a byte: 0 or `2^k` (R12, R111). -/
def bitShifted (b : Bool) (k : Nat) : Byte := if b then (1 : Byte) <<< k else 0

/-- Whether the bits of `value` below its top `n` are zero: `(value << n) mod 256 = 0` (R21, R215). -/
def lowBitsZero (value : Byte) (n : Nat) : Bool := value <<< n == 0

/-- An accumulator is canonical: only its top `length` bits can be non-zero (R21). -/
abbrev Acc.Canonical (a : Acc) : Prop := lowBitsZero a.value a.length.val = true

/-- A Bit Vector is canonical: its tail is canonical and holds fewer than 8 bits (R23). -/
abbrev BitVector.Canonical (x : BitVector) : Prop := x.tail.Canonical ∧ x.tail.length.val < 8

/-- `bits(a) = [value[7], ..., value[8-length]]` (R13). -/
def Acc.bits (a : Acc) : Bits := (List.range a.length.val).map (fun i => a.value.getLsbD (7 - i))

/-- `bits8(B) = [B[7], ..., B[0]]` (R13). -/
def byteBits (b : Byte) : Bits := (List.range 8).map (fun i => b.getLsbD (7 - i))

/-- `bits(v)`: the complete bytes, most significant bit first, then the tail (R13, R62, R63). -/
def BitVector.bits (x : BitVector) : Bits := x.completeBytes.flatMap byteBits ++ x.tail.bits

/-- The logical length in bits: `8 * |complete_bytes| + tail.length` (R23, R142). -/
def BitVector.bitLength (x : BitVector) : Nat := 8 * x.completeBytes.length + x.tail.length.val

/-- The byte that holds a bit sequence from bit `k` downwards: `value[k-i] = L[i]`, every other bit zero. -/
def byteFrom (k : Nat) : Bits → Byte
  | [] => 0
  | b :: bs => bitShifted b k ||| byteFrom (k - 1) bs

/-- `acc(L)` for a sequence of at most 8 bits (R13). -/
def accOfBits (l : Bits) : Acc := ⟨byteFrom 7 (l.take 8), ⟨min l.length 8, by omega⟩⟩

/-- `pack(L)`: the whole groups of 8 bits as bytes, the rest as the tail (R13). -/
def pack : Bits → BitVector
  | b7 :: b6 :: b5 :: b4 :: b3 :: b2 :: b1 :: b0 :: rest =>
    ⟨byteFrom 7 [b7, b6, b5, b4, b3, b2, b1, b0] :: (pack rest).completeBytes, (pack rest).tail⟩
  | short => ⟨[], accOfBits short⟩

/-- `append_bit` on a bare accumulator (R111): none when it already holds 8 bits. -/
def Acc.appendBit (a : Acc) (b : Bool) : Option Acc :=
  if h : a.length.val < Config.accMax then
    some ⟨a.value ||| bitShifted b (7 - a.length.val),
      ⟨a.length.val + 1, by unfold Config.accMax at h; omega⟩⟩
  else none

/-- `append_bit` on a Bit Vector: the eighth bit of the tail flushes it (R134). -/
def BitVector.appendBit (x : BitVector) (b : Bool) : BitVector :=
  let t := x.tail.value ||| bitShifted b (7 - x.tail.length.val)
  if h : x.tail.length.val < 7 then ⟨x.completeBytes, ⟨t, ⟨x.tail.length.val + 1, by omega⟩⟩⟩
  else ⟨x.completeBytes ++ [t], Acc.empty⟩

/-- `append_acc`: merge an accumulator into the stream at the tail's bit offset (R136). The case of an empty
tail is decided without a shift by 8 (R12, R284, 90_conflicts.md C2). -/
def BitVector.appendAcc (x : BitVector) (a : Acc) : BitVector :=
  let j := x.tail.length.val
  let k := a.length.val
  let merged := x.tail.value ||| (a.value >>> j)
  if h : j + k < 8 then ⟨x.completeBytes, ⟨merged, ⟨j + k, by omega⟩⟩⟩
  else if j = 0 then ⟨x.completeBytes ++ [merged], Acc.empty⟩
  else ⟨x.completeBytes ++ [merged], ⟨a.value <<< (8 - j), ⟨j + k - 8, by omega⟩⟩⟩

/-- Append of a whole Bit Vector: each complete byte as an 8-bit accumulator, then the tail (R138). -/
def BitVector.appendVector (x o : BitVector) : BitVector :=
  (o.completeBytes.foldl (fun y byte => y.appendAcc ⟨byte, 8⟩) x).appendAcc o.tail

/-- The bit a character of a text stands for: `0x30` is 0, `0x31` is 1, any other is no bit (R99, R113). -/
def bitOfChar (c : Byte) : Option Bool :=
  if c = 0x30 then some false else if c = 0x31 then some true else none

/-- The character of a bit: `0x30 + bit` (R99, R115). -/
def charOfBit (b : Bool) : Byte := if b then 0x31 else 0x30

/-- The text form of a bit sequence, one byte per bit, first bit first (R99). -/
def textOfBits (l : Bits) : List Byte := l.map charOfBit

/-- The accumulator's parse loop: each character is classified before the capacity is tested (R113, R114). -/
def parseAccFrom (a : Acc) : List Byte → Except Err Acc
  | [] => .ok a
  | c :: cs =>
    match bitOfChar c with
    | none => .error .format
    | some b =>
      match a.appendBit b with
      | none => .error .logic
      | some a' => parseAccFrom a' cs

/-- The Bit Vector's parse loop, with no length limit (R144). -/
def parseVectorFrom (x : BitVector) : List Byte → Except Err BitVector
  | [] => .ok x
  | c :: cs =>
    match bitOfChar c with
    | none => .error .format
    | some b => parseVectorFrom (x.appendBit b) cs

end Sys2Proof.Machine
end

