-- ==== Sys2Proof/Machine/Ops.lean ====
section
/-! DEFINITION. The named operations over memory and registers; what a command's end does to the state,
raising an error and halting among it (00_scope.md R9, R15; 60_exceptions.md R256, R258, R259); leaving the
halted state by reset (R260, R280); taking the host's next action. -/

namespace Sys2Proof.Machine

/-! ### The byte buffers (R14, R60, R65) -/

/-- The byte at an address, none where the buffer has none (R60). -/
def Memory.readByte (m : Memory) (addr : Nat) : Option Byte := m.lookup addr

/-- `MemRead(space, addr, n)`: the n bytes from `addr` on, none where one of them does not exist (R14). -/
def Memory.readRange (m : Memory) (addr n : Nat) : Option (List Byte) :=
  (List.range n).mapM (fun i => m.readByte (addr + i))

/-- The whole content in address order, `MemRead(space, 0, length)` (R14, R65). -/
def Memory.bytes (m : Memory) : List Byte := m.map Prod.snd

/-- A buffer with the given content: replaces a buffer whole, `OUT <- bytes` (R14, R30). -/
def Memory.ofBytes (bs : List Byte) : Memory := bs.zipIdx.map (fun p => (p.2, p.1))

/-- Append one byte at the end of a buffer (R241). -/
def Memory.push (m : Memory) (b : Byte) : Memory := m ++ [(m.length, b)]

/-- The content of IN (R29). -/
def State.inBytes (s : State) : List Byte := s.inBuf.bytes

/-- The content of OUT (R30). -/
def State.outBytes (s : State) : List Byte := s.outBuf.bytes

/-- `IN_LEN` (R29). -/
def State.inLen (s : State) : Nat := s.inBuf.length

/-- `OUT_LEN` (R30). -/
def State.outLen (s : State) : Nat := s.outBuf.length

/-! ### The look-up table (R27) -/

/-- The LUT index of a symbol (R67). -/
theorem symbol_lt (sym : Byte) : sym.toNat < 256 := sym.isLt

/-- `LUT[s]` (R27). -/
def Lut.get (t : Lut) (sym : Byte) : Option Bits := t[sym.toNat]'(symbol_lt sym)

/-- The table with `some(c)` recorded for a symbol (R166, R225). -/
def Lut.record (t : Lut) (sym : Byte) (c : Bits) : Lut := t.set sym.toNat (some c) (symbol_lt sym)

/-- The empty Dictionary: every entry none (R27). -/
def Lut.empty : Lut := Vector.replicate 256 none

/-- The symbols 0 to 255 in ascending order (R162, R192, R220). -/
def allSymbols : List Byte := (List.range 256).map (BitVec.ofNat 8)

/-- The entries that are some, in ascending order of symbol (R220). -/
def Lut.entries (t : Lut) : List (Byte × Bits) :=
  allSymbols.filterMap (fun sym => (t.get sym).map (fun c => (sym, c)))

/-- The table that holds exactly the given pairs (R225). -/
def Lut.ofEntries (es : List (Byte × Bits)) : Lut := es.foldl (fun t e => t.record e.1 e.2) Lut.empty

/-- `N_LUT`: the number of entries that are some (R27). -/
def State.nLut (s : State) : Nat := s.lut.entries.length

/-! ### Register writes, one per register (R14) -/

/-- `v[r]` (R14, R24). -/
def State.getV (s : State) (r : VReg) : BitVector := s.v[r]

/-- `v[r] <- x` (R14, R24). -/
def State.setV (s : State) (r : VReg) (x : BitVector) : State := { s with v := s.v.set r.val x r.isLt }

/-- `ACC <- a`. -/
def State.setAcc (s : State) (a : Acc) : State := { s with acc := a }

/-- `LUT <- table`, whole (R167). -/
def State.setLut (s : State) (t : Lut) : State := { s with lut := t }

/-- `IN <- m`, and with it IN_LEN. -/
def State.setIn (s : State) (m : Memory) : State := { s with inBuf := m }

/-- `OUT <- m`, and with it OUT_LEN. -/
def State.setOut (s : State) (m : Memory) : State := { s with outBuf := m }

/-- `OUT <- bytes`, whole (R14, R30). -/
def State.replaceOut (s : State) (bs : List Byte) : State := s.setOut (Memory.ofBytes bs)

/-- `LEN <- n` (R31). -/
def State.setLen (s : State) (n : Nat) : State := { s with len := n }

/-- `IT.rem <- l` (R32). -/
def State.setIt (s : State) (l : Bits) : State := { s with itRem := l }

/-- `RES <- n` (R38). -/
def State.setRes (s : State) (n : BitVec 4) : State := { s with res := n }

/-! ### The end of a command -/

/-- Raising an error, the core's only exception entry (R15): a recoverable error writes its code to RES and
nothing else (R259); LogicError writes RES and HCAUSE with its code and sets HALT (R256). Nothing is saved
and there is no vector. -/
def State.raise (s : State) (e : Err) : State :=
  if e.fatal then { s with res := e.code, halt := true, hcause := e.code } else s.setRes e.code

/-- How a command's own work ends: with the state it wrote; with an error, and the state as it stood when the
error was raised (R15); or beyond a finite capacity (U8). -/
inductive Result where
  | done (t : State)
  | raised (e : Err) (t : State)
  | exceeds

/-- One command's work after another's, as one command (R181); the second runs only if the first ends well. -/
def Result.andThen (r : Result) (f : State → Result) : Result :=
  match r with
  | .done t => f t
  | .raised e t => .raised e t
  | .exceeds => .exceeds

/-- Whether a state is within the capacities BV_CAP, BUF_CAP and LEN_W (R6, U8). -/
def State.withinCapacity (c : Capacities) (s : State) : Bool :=
  (s.v.toList.all (fun x => fitsCap c.bvCap x.bitLength)) && fitsCap c.bufCap s.inLen &&
    fitsCap c.bufCap s.outLen && fitsWidth c.lenW s.len

/-- Run one command as one atomic transition (R7, R66) of a core with the given capacities. While HALT = 1 the state
stays as it is (R9, R258); otherwise the command's work is done and RES written: 0, or the error's code (R15, R38). A
command that would exceed a capacity is refused, never wrapped or truncated (U8). -/
def runCommand (c : Capacities) (work : State → Result) (s : State) : Host.Outcome State Fault Refusal :=
  if s.halt then .next s
  else
    match work s with
    | .done t => if t.withinCapacity c then .next (t.setRes 0) else .refused .capacityExceeded
    | .raised e t => .next (t.raise e)
    | .exceeds => .refused .capacityExceeded

/-- The execution of an illegal word: ILLEGAL, whichever of the two reasons it has (R92, R257). No capacity matters. -/
def execIllegal (_reason : Illegal) (s : State) : Host.Outcome State Fault Refusal :=
  runCommand Config.capacities (fun t => .raised .illegal t) s

/-! ### The host's side -/

/-- The reset input (R280): every piece of the core's state to its reset value, the only way out of the halted
state (R260). What the host will do next is the host's own (R37) and stays. -/
def State.hostReset (s : State) : State := { State.reset with pending := s.pending }

/-- The host's next action, and the state in which it is no longer pending (R8, log entry 1). -/
def State.takeAction (s : State) : Option (HostAction × State) :=
  match s.pending with
  | [] => none
  | a :: rest => some (a, { s with pending := rest })

/-- The state in which the host's next action is to issue the given word. -/
def State.issueNext (s : State) (w : Word) : State := { s with pending := .issue w :: s.pending }

/-- One step, given how a word is executed: with nothing pending the core waits (R281); the reset input resets it
(R280); an issued word is executed (R9). -/
def runAction (run : Word → State → Host.Outcome State Fault Refusal) (s : State) : Host.Outcome State Fault Refusal :=
  match s.takeAction with
  | none => .next s
  | some (.reset, t) => .next t.hostReset
  | some (.issue w, t) => run w t

end Sys2Proof.Machine
end

