-- ==== Sys2Proof/Machine/Accumulator.lean ====
section
/-! DEFINITION. The Bit Accumulator commands ACC.CLR, ACC.APPB, ACC.PARSE, ACC.TEXT (40_accumulator.md). -/

namespace Sys2Proof.Machine

/-- ACC.CLR (R110). -/
def accClrWork (t : State) : Result :=
  .done (t.setAcc Acc.empty)

/-- ACC.CLR as one command. -/
def execAccClr (s : State) : Host.Outcome State Fault Refusal := runCommand Config.capacities accClrWork s

/-- ACC.APPB b (R111). -/
def accAppbWork (b : Bool) (t : State) : Result :=
  match t.acc.appendBit b with
  | some a => .done (t.setAcc a)
  | none => .raised .logic t

/-- ACC.APPB as one command. -/
def execAccAppb (b : Bool) (s : State) : Host.Outcome State Fault Refusal :=
  runCommand Config.capacities (accAppbWork b) s

/-- ACC.PARSE (R113, R114). -/
def accParseWork (t : State) : Result :=
  match parseAccFrom Acc.empty t.inBytes with
  | .ok a => .done (t.setAcc a)
  | .error e => .raised e t

/-- ACC.PARSE as one command. -/
def execAccParse (s : State) : Host.Outcome State Fault Refusal := runCommand Config.capacities accParseWork s

/-- ACC.TEXT (R115). -/
def accTextWork (t : State) : Result :=
  .done (t.replaceOut (textOfBits t.acc.bits))

/-- ACC.TEXT as one command. -/
def execAccText (s : State) : Host.Outcome State Fault Refusal := runCommand Config.capacities accTextWork s

end Sys2Proof.Machine
end

