-- ==== Sys2Proof/Machine/BitVectors.lean ====
section
/-! DEFINITION. The Bit Vector commands BV.CLR, BV.APPB, BV.APPA, BV.APPV, BV.LEN, BV.PARSE, BV.ITER, BV.NEXT
(41_bitvector.md). -/

namespace Sys2Proof.Machine

/-- BV.CLR v (R132). -/
def bvClrWork (v : VReg) (t : State) : Result :=
  .done (t.setV v BitVector.empty)

/-- BV.CLR as one command. -/
def execBvClr (v : VReg) (s : State) : Host.Outcome State Fault Refusal :=
  runCommand Config.capacities (bvClrWork v) s

/-- BV.APPB vd, b (R134). -/
def bvAppbWork (vd : VReg) (b : Bool) (t : State) : Result :=
  .done (t.setV vd ((t.getV vd).appendBit b))

/-- BV.APPB as one command. -/
def execBvAppb (vd : VReg) (b : Bool) (s : State) : Host.Outcome State Fault Refusal :=
  runCommand Config.capacities (bvAppbWork vd b) s

/-- BV.APPA vd (R136). -/
def bvAppaWork (vd : VReg) (t : State) : Result :=
  .done (t.setV vd ((t.getV vd).appendAcc t.acc))

/-- BV.APPA as one command. -/
def execBvAppa (vd : VReg) (s : State) : Host.Outcome State Fault Refusal :=
  runCommand Config.capacities (bvAppaWork vd) s

/-- BV.APPV vd, vs: the source is read once, so `vd = vs` doubles the register (R138, R140). -/
def bvAppvWork (vd vs : VReg) (t : State) : Result :=
  .done (t.setV vd ((t.getV vd).appendVector (t.getV vs)))

/-- BV.APPV as one command. -/
def execBvAppv (vd vs : VReg) (s : State) : Host.Outcome State Fault Refusal :=
  runCommand Config.capacities (bvAppvWork vd vs) s

/-- BV.LEN v (R142). -/
def bvLenWork (v : VReg) (t : State) : Result :=
  .done (t.setLen (t.getV v).bitLength)

/-- BV.LEN as one command. -/
def execBvLen (v : VReg) (s : State) : Host.Outcome State Fault Refusal :=
  runCommand Config.capacities (bvLenWork v) s

/-- BV.PARSE vd (R144). -/
def bvParseWork (vd : VReg) (t : State) : Result :=
  match parseVectorFrom BitVector.empty t.inBytes with
  | .ok x => .done (t.setV vd x)
  | .error e => .raised e t

/-- BV.PARSE as one command. -/
def execBvParse (vd : VReg) (s : State) : Host.Outcome State Fault Refusal :=
  runCommand Config.capacities (bvParseWork vd) s

/-- BV.ITER v: the register's bits move to the iterator (R150). -/
def bvIterWork (v : VReg) (t : State) : Result :=
  .done (((t.setIt (t.getV v).bits).setV v BitVector.empty).clearIterFlags)

/-- BV.ITER as one command. -/
def execBvIter (v : VReg) (s : State) : Host.Outcome State Fault Refusal :=
  runCommand Config.capacities (bvIterWork v) s

/-- BV.NEXT (R152). -/
def bvNextWork (t : State) : Result :=
  match t.itRem with
  | b :: rest => .done ((t.setIt rest).setIterFlags (some b))
  | [] => .done (t.setIterFlags none)

/-- BV.NEXT as one command. -/
def execBvNext (s : State) : Host.Outcome State Fault Refusal := runCommand Config.capacities bvNextWork s

end Sys2Proof.Machine
end

