-- ==== Sys2Proof/Machine/DataMove.lean ====
section
/-! DEFINITION. The host data-movement commands IN.CLR, IN.PUSH, IO.XFER (46_io.md) and the host's read-only
ports (10_state.md R39). -/

namespace Sys2Proof.Machine

/-- IN.CLR (R240). -/
def inClrWork (t : State) : Result :=
  .done (t.setIn [])

/-- IN.CLR as one command. -/
def execInClr (s : State) : Host.Outcome State Fault Refusal := runCommand Config.capacities inClrWork s

/-- IN.PUSH imm8 (R241). -/
def inPushWork (imm8 : Byte) (t : State) : Result :=
  .done (t.setIn (t.inBuf.push imm8))

/-- IN.PUSH as one command. -/
def execInPush (imm8 : Byte) (s : State) : Host.Outcome State Fault Refusal :=
  runCommand Config.capacities (inPushWork imm8) s

/-- IO.XFER (R242). -/
def ioXferWork (t : State) : Result :=
  .done ((t.setIn t.outBuf).setOut [])

/-- IO.XFER as one command. -/
def execIoXfer (s : State) : Host.Outcome State Fault Refusal := runCommand Config.capacities ioXferWork s

/-- A flag as the number the port shows. -/
def flagNat (b : Bool) : Nat := if b then 1 else 0

/-- The read-only scalar port, by register number; a number the spec does not assign has no value (R39, log
entry 9). It is a function of the state, so a read has no side effect. -/
def State.readPort (s : State) : Nat → Option Nat
  | 0 => some s.res.toNat
  | 1 => some (flagNat s.halt)
  | 2 => some s.hcause.toNat
  | 3 => some s.len
  | 4 => some (flagNat s.bit)
  | 5 => some (flagNat s.bitv)
  | 6 => some s.inLen
  | 7 => some s.outLen
  | 8 => some s.acc.value.toNat
  | 9 => some s.acc.length.val
  | 10 => some s.nLut
  | _ => none

/-- The read-only OUT port: `OUT[i]` for `i < OUT_LEN` (R39). -/
def State.readOutPort (s : State) (i : Nat) : Option Byte := s.outBuf.readByte i

end Sys2Proof.Machine
end

