-- ==== Sys2Proof/Machine/Decoder.lean ====
section
/-! DEFINITION. The decoder command HUF.DECODE (44_decoder.md R190 to R195), and the two other forms the spec
gives of the same decoder: the phase machine of R191 and the trie walker of R196. -/

namespace Sys2Proof.Machine

/-- The Reverse Dictionary, a partial map from codes to symbols (R35, R192). -/
abbrev RevDict := List (Bits × Byte)

/-- Phase REV: the inverse of the entries, none when two codes are equal (R192). -/
def reverseDict (rev : RevDict) : List (Byte × Bits) → Option RevDict
  | [] => some rev
  | (sym, c) :: es => if (rev.lookup c).isSome then none else reverseDict ((c, sym) :: rev) es

/-- Phase SCAN for one bit: append it to the scratch buffer, and on a match emit the symbol and clear the
buffer (R193). -/
def scanBit (rev : RevDict) (st : Bits × List Byte) (b : Bool) : Bits × List Byte :=
  match rev.lookup (st.1 ++ [b]) with
  | some sym => ([], st.2 ++ [sym])
  | none => (st.1 ++ [b], st.2)

/-- The scratch buffer and the emitted bytes after every bit of the source (R193). -/
def scanBits (rev : RevDict) (src : Bits) : Bits × List Byte := src.foldl (scanBit rev) ([], [])

/-- Decoding a bit sequence against a table: phases REV, SCAN, END (R192, R193, R194). -/
def decodeBits (t : Lut) (src : Bits) : Except Err (List Byte) :=
  match reverseDict [] t.entries with
  | none => .error .corrupt
  | some rev => if (scanBits rev src).1 = [] then .ok (scanBits rev src).2 else .error .trunc

/-- HUF.DECODE vs: the source is consumed first, on every outcome (R190, R195). -/
def hufDecodeWork (vs : VReg) (t : State) : Result :=
  let consumed := t.setV vs BitVector.empty
  match decodeBits t.lut (t.getV vs).bits with
  | .ok out => .done (consumed.replaceOut out)
  | .error e => .raised e consumed

/-- HUF.DECODE as one command. -/
def execHufDecode (vs : VReg) (s : State) : Host.Outcome State Fault Refusal :=
  runCommand Config.capacities (hufDecodeWork vs) s

/-! ### The phase machine of R191 -/

/-- The phases of the decoder (R191). -/
inductive DecoderPhase where
  | rev
  | scan
  | atEnd
  | done
  | err (e : Err)
  deriving DecidableEq, Repr

/-- The decoder's internal state, private to one HUF.DECODE (R35, R191). -/
structure DecoderState where
  src : Bits
  pos : Nat
  rev : RevDict
  scr : Bits
  out : List Byte
  phase : DecoderPhase
  deriving DecidableEq, Repr

/-- The internal state at the start of the command (R191, row `(start)`). -/
def decoderStart (src : Bits) : DecoderState := ⟨src, 0, [], [], [], .rev⟩

/-- One row of the transition table of R191; DONE and ERR are terminal. -/
def decoderStep (t : Lut) (d : DecoderState) : DecoderState :=
  match d.phase with
  | .rev =>
    match reverseDict [] t.entries with
    | none => { d with phase := .err .corrupt }
    | some rev => { d with rev := rev, scr := [], out := [], phase := .scan }
  | .scan =>
    match d.src[d.pos]? with
    | none => { d with phase := .atEnd }
    | some b =>
      match d.rev.lookup (d.scr ++ [b]) with
      | some sym => { d with out := d.out ++ [sym], scr := [], pos := d.pos + 1 }
      | none => { d with scr := d.scr ++ [b], pos := d.pos + 1 }
  | .atEnd => if d.scr = [] then { d with phase := .done } else { d with phase := .err .trunc }
  | .done => d
  | .err e => { d with phase := .err e }

/-- The internal state after a number of transitions (R191). -/
def decoderRun (t : Lut) : Nat → DecoderState → DecoderState
  | 0, d => d
  | n + 1, d => decoderRun t n (decoderStep t d)

/-! ### The trie walker of R196 -/

/-- A code trie: whether a code ends at this node, and the two children. -/
inductive Trie where
  | absent
  | node (symbol : Option Byte) (zero one : Trie)
  deriving DecidableEq, Repr

/-- The trie with one more code; the nodes are the prefixes of the codes (R196). -/
def Trie.insert : Trie → Bits → Byte → Trie
  | .absent, [], sym => .node (some sym) .absent .absent
  | .absent, false :: bs, sym => .node none (Trie.absent.insert bs sym) .absent
  | .absent, true :: bs, sym => .node none .absent (Trie.absent.insert bs sym)
  | .node _ zero one, [], sym => .node (some sym) zero one
  | .node m zero one, false :: bs, sym => .node m (zero.insert bs sym) one
  | .node m zero one, true :: bs, sym => .node m zero (one.insert bs sym)

/-- The code trie of a table (R196). -/
def codeTrie (t : Lut) : Trie := t.entries.foldl (fun acc e => acc.insert e.2 e.1) (.node none .absent .absent)

/-- Where the walker stands: at a node below the root, at the root, or in the dead state. -/
inductive WalkerAt where
  | root
  | below (node : Trie)
  | dead
  deriving DecidableEq, Repr

/-- The child of a node on a bit; `absent` where there is none. -/
def Trie.child : Trie → Bool → Trie
  | .absent, _ => .absent
  | .node _ zero _, false => zero
  | .node _ _ one, true => one

/-- The walker arrives at a node: it emits and returns to the root at a terminal node, and is dead where the
node does not exist (R196). -/
def walkerArrive (out : List Byte) : Trie → WalkerAt × List Byte
  | .absent => (.dead, out)
  | .node (some sym) _ _ => (.root, out ++ [sym])
  | .node none zero one => (.below (.node none zero one), out)

/-- One input bit of the walker (R196). -/
def walkerBit (trie : Trie) (st : WalkerAt × List Byte) (b : Bool) : WalkerAt × List Byte :=
  match st.1 with
  | .root => walkerArrive st.2 (trie.child b)
  | .below node => walkerArrive st.2 (node.child b)
  | .dead => (.dead, st.2)

/-- Decoding by a walk of the code trie: success exactly when the walker ends at the root (R196). -/
def walkBits (t : Lut) (src : Bits) : Except Err (List Byte) :=
  let final := src.foldl (walkerBit (codeTrie t)) (.root, [])
  if final.1 = .root then .ok final.2 else .error .trunc

end Sys2Proof.Machine
end

