-- ==== Sys2Proof/Machine/Tree.lean ====
section
/-! DEFINITION. Frequency tree and Dictionary construction, HUF.BUILD (42_tree_dictionary.md). The counts, the
queue and the tree are local to the command (10_state.md R36). -/

namespace Sys2Proof.Machine

/-- A Frequency Tree Node with its combined frequency and its insertion sequence number (R36, R162, R164). -/
inductive Node where
  | leaf (byte : Byte) (freq seq : Nat)
  | internal (left right : Node) (freq seq : Nat)
  deriving DecidableEq, Repr

/-- The combined frequency of a node (R164). -/
def Node.freq : Node → Nat
  | .leaf _ f _ => f
  | .internal _ _ f _ => f

/-- The insertion sequence number of a node (R162). -/
def Node.seq : Node → Nat
  | .leaf _ _ n => n
  | .internal _ _ _ n => n

/-- The queue order: `(freq, seq)` in lexicographic order, so the oldest first among equals (R163). -/
def Node.before (a b : Node) : Bool := a.freq < b.freq || (a.freq == b.freq && a.seq < b.seq)

/-- `popmin(Q)`: the least node and the queue without it, none when the queue is empty (R163). -/
def popMin : List Node → Option (Node × List Node)
  | [] => none
  | n :: ns =>
    match popMin ns with
    | none => some (n, [])
    | some (m, rest) => if n.before m then some (n, ns) else some (m, n :: rest)

/-- `count[s]` (R161). -/
def symbolCount (input : List Byte) (sym : Byte) : Nat := input.count sym

/-- The leaves, one per occurring symbol in ascending order, numbered from 0 (R161, R162). -/
def leaves (input : List Byte) : List Node :=
  ((allSymbols.filter (fun sym => decide (0 < symbolCount input sym))).zipIdx).map
    (fun p => .leaf p.1 (symbolCount input p.1) p.2)

/-- The merge loop: while more than one node remains, the two least, `a` then `b`, become the children of a new
node; `seq` numbers it. Each round shortens the queue by one, so a `fuel` of the queue's length reaches the
root (R164, R293). -/
def mergeAll : Nat → Nat → List Node → Option Node
  | 0, _, _ => none
  | fuel + 1, seq, queue =>
    match popMin queue with
    | none => none
    | some (a, rest) =>
      match popMin rest with
      | none => some a
      | some (b, rest') => mergeAll fuel (seq + 1) (.internal a b (a.freq + b.freq) seq :: rest')

/-- The root of the frequency tree, none for an empty input (R164, R165). -/
def treeRoot (input : List Byte) : Option Node :=
  mergeAll (leaves input).length (leaves input).length (leaves input)

/-- The walk from the root: left appends 0, right appends 1, a leaf records its code (R166). -/
def Node.walk : Node → Bits → Lut → Lut
  | .leaf sym _ _, code, t => t.record sym code
  | .internal left right _ _, code, t => right.walk (code ++ [true]) (left.walk (code ++ [false]) t)

/-- The Dictionary of an input (R160): empty for no input, the code SINGLE_CODE for one distinct symbol (R165),
else the walk of the tree (R166). -/
def buildTable (input : List Byte) : Lut :=
  match treeRoot input with
  | none => Lut.empty
  | some (.leaf sym _ _) => Lut.empty.record sym Config.singleCode
  | some (.internal left right f n) => (Node.internal left right f n).walk [] Lut.empty

/-- HUF.BUILD's work (R160, R167). Its largest frequency is IN_LEN, the root's (R164), so COUNT_W bounds that
(R6, U8). -/
def buildWork (c : Capacities) (t : State) : Result :=
  if fitsWidth c.countW t.inLen then .done (t.setLut (buildTable t.inBytes)) else .exceeds

/-- HUF.BUILD (R160). -/
def execHufBuild (s : State) : Host.Outcome State Fault Refusal :=
  runCommand Config.capacities (buildWork Config.capacities) s

end Sys2Proof.Machine
end

