-- ==== Sys2Proof/Machine/Encoder.lean ====
section
/-! DEFINITION. The encoder commands HUF.MAP and HUF.ENCODE (43_encoder.md). -/

namespace Sys2Proof.Machine

/-- The concatenated codes of a symbol sequence, none at the first symbol without a code (R180). -/
def mapSymbols (t : Lut) : List Byte → Option Bits
  | [] => some []
  | sym :: rest =>
    match t.get sym with
    | none => none
    | some c => (mapSymbols t rest).map (fun out => c ++ out)

/-- HUF.MAP's work (R180). -/
def mapWork (vd : VReg) (t : State) : Result :=
  match mapSymbols t.lut t.inBytes with
  | some out => .done (t.setV vd (pack out))
  | none => .raised .logic t

/-- HUF.MAP vd (R180). -/
def execHufMap (vd : VReg) (s : State) : Host.Outcome State Fault Refusal :=
  runCommand Config.capacities (mapWork vd) s

/-- HUF.ENCODE vd: HUF.BUILD, then HUF.MAP vd with the new table, as one command (R181). -/
def encodeWork (c : Capacities) (vd : VReg) (t : State) : Result := (buildWork c t).andThen (mapWork vd)

/-- HUF.ENCODE as one command. -/
def execHufEncode (vd : VReg) (s : State) : Host.Outcome State Fault Refusal :=
  runCommand Config.capacities (encodeWork Config.capacities vd) s

end Sys2Proof.Machine
end

