-- ==== Sys2Proof/Machine/Serializer.lean ====
section
/-! DEFINITION. The serializer commands SER.BV, DES.BV, SER.DICT, DES.DICT (45_serializer.md) and the frame
layouts (30_encoding.md R97, R98). -/

namespace Sys2Proof.Machine

/-- The Bit Vector frame: tail length, tail value, complete bytes (R97, R210). -/
def vectorFrame (x : BitVector) : List Byte :=
  [BitVec.ofNat 8 x.tail.length.val, x.tail.value] ++ x.completeBytes

/-- The Bit Vector a frame holds, none when it is not well formed: shorter than 2 bytes, a tail length above 7,
or a tail value that is not canonical for it (R215). -/
def parseVectorFrame : List Byte → Option BitVector
  | tl :: tv :: bytes =>
    if h : tl.toNat ≤ 7 then
      if lowBitsZero tv tl.toNat then some ⟨bytes, ⟨tv, ⟨tl.toNat, by omega⟩⟩⟩ else none
    else none
  | _ => none

/-- The pairs of a Dictionary frame: symbol and code length of each entry (R98, R220). -/
def dictPairs (es : List (Byte × Bits)) : List Byte :=
  es.flatMap (fun e => [e.1, BitVec.ofNat 8 e.2.length])

/-- The Dictionary frame of a list of entries: the count, the pairs, the frame of the packed codes (R98, R220). -/
def dictFrame (es : List (Byte × Bits)) : List Byte :=
  [BitVec.ofNat 8 es.length] ++ dictPairs es ++ vectorFrame (pack (es.flatMap Prod.snd))

/-- The first n pairs of a frame's body: symbols and lengths (R98, R225). -/
def readPairs : Nat → List Byte → List (Byte × Nat)
  | n + 1, sym :: len :: rest => (sym, len.toNat) :: readPairs n rest
  | _, _ => []

/-- Splitting the packed region by the recorded lengths (R98, R225). -/
def splitCodes : List (Byte × Nat) → Bits → List (Byte × Bits)
  | [], _ => []
  | (sym, len) :: ps, region => (sym, region.take len) :: splitCodes ps (region.drop len)

/-- `T`, the sum of the code lengths (R225). -/
def totalLength (ps : List (Byte × Nat)) : Nat := (ps.map Prod.snd).sum

/-- The packed region of a Dictionary frame with total code length T, none when its length, its tail length or its
tail value is wrong (R225). -/
def parseRegion (total : Nat) : List Byte → Option BitVector
  | tl :: tv :: bytes =>
    if bytes.length = total / 8 ∧ tl.toNat = total % 8 then parseVectorFrame (tl :: tv :: bytes) else none
  | _ => none

/-- The Dictionary a frame holds, none when it is not well formed (R225). -/
def parseDictFrame : List Byte → Option Lut
  | [] => none
  | count :: body =>
    let n := count.toNat
    let ps := readPairs n body
    if body.length < 2 * n + 2 then none
    else if ¬ (ps.map Prod.fst).Nodup then none
    else
      match parseRegion (totalLength ps) (body.drop (2 * n)) with
      | none => none
      | some region => some (Lut.ofEntries (splitCodes ps region.bits))

/-- SER.BV v (R210). -/
def serBvWork (v : VReg) (t : State) : Result :=
  .done (t.replaceOut (vectorFrame (t.getV v)))

/-- SER.BV as one command. -/
def execSerBv (v : VReg) (s : State) : Host.Outcome State Fault Refusal :=
  runCommand Config.capacities (serBvWork v) s

/-- DES.BV vd (R215). -/
def desBvWork (vd : VReg) (t : State) : Result :=
  match parseVectorFrame t.inBytes with
  | some x => .done (t.setV vd x)
  | none => .raised .frame t

/-- DES.BV as one command. -/
def execDesBv (vd : VReg) (s : State) : Host.Outcome State Fault Refusal :=
  runCommand Config.capacities (desBvWork vd) s

/-- SER.DICT: refused as ALPHA above 255 entries (R220, R227). -/
def serDictWork (t : State) : Result :=
  if Config.dictNMax < t.nLut then .raised .alpha t else .done (t.replaceOut (dictFrame t.lut.entries))

/-- SER.DICT as one command. -/
def execSerDict (s : State) : Host.Outcome State Fault Refusal := runCommand Config.capacities serDictWork s

/-- DES.DICT (R225). -/
def desDictWork (t : State) : Result :=
  match parseDictFrame t.inBytes with
  | some table => .done (t.setLut table)
  | none => .raised .frame t

/-- DES.DICT as one command. -/
def execDesDict (s : State) : Host.Outcome State Fault Refusal := runCommand Config.capacities desDictWork s

end Sys2Proof.Machine
end

