-- ==== Sys2Proof/Machine/Dispatch.lean ====
section
/-! DEFINITION. One arm per command, each a direct call of its meaning. -/

namespace Sys2Proof.Machine

def exec (i : Instr) (s : State) : Host.Outcome State Fault Refusal :=
  match i with
  | .accClr => Sys2Proof.Machine.execAccClr s
  | .accAppb b => Sys2Proof.Machine.execAccAppb b s
  | .accParse => Sys2Proof.Machine.execAccParse s
  | .accText => Sys2Proof.Machine.execAccText s
  | .bvClr v => Sys2Proof.Machine.execBvClr v s
  | .bvAppb vd b => Sys2Proof.Machine.execBvAppb vd b s
  | .bvAppa vd => Sys2Proof.Machine.execBvAppa vd s
  | .bvAppv vd vs => Sys2Proof.Machine.execBvAppv vd vs s
  | .bvLen v => Sys2Proof.Machine.execBvLen v s
  | .bvParse vd => Sys2Proof.Machine.execBvParse vd s
  | .bvIter v => Sys2Proof.Machine.execBvIter v s
  | .bvNext => Sys2Proof.Machine.execBvNext s
  | .hufBuild => Sys2Proof.Machine.execHufBuild s
  | .hufMap vd => Sys2Proof.Machine.execHufMap vd s
  | .hufEncode vd => Sys2Proof.Machine.execHufEncode vd s
  | .hufDecode vs => Sys2Proof.Machine.execHufDecode vs s
  | .serBv v => Sys2Proof.Machine.execSerBv v s
  | .desBv vd => Sys2Proof.Machine.execDesBv vd s
  | .serDict => Sys2Proof.Machine.execSerDict s
  | .desDict => Sys2Proof.Machine.execDesDict s
  | .inClr => Sys2Proof.Machine.execInClr s
  | .inPush imm8 => Sys2Proof.Machine.execInPush imm8 s
  | .ioXfer => Sys2Proof.Machine.execIoXfer s

end Sys2Proof.Machine
end

