-- ==== Sys2Proof/Machine/Step.lean ====
section
/-! DEFINITION. The step: the host's next action, taken whole (00_scope.md R7, R8, R9). -/

namespace Sys2Proof.Machine

/-- A word issued by the host: the decoded command, or ILLEGAL (R9, R92). -/
def stepWord (w : Word) (s : State) : Host.Outcome State Fault Refusal :=
  match decode w with
  | .ok i => exec i s
  | .error reason => execIllegal reason s

/-- One step: the host's next action, an issued word executed by `stepWord` (R9, R280, R281). -/
def step (s : State) : Host.Outcome State Fault Refusal := runAction stepWord s

/-- The state in which the next step is to execute the given word: the host is about to issue it (log entry 1). -/
def State.withFetchWord (s : State) (nbits w : Nat) : State := s.issueNext (BitVec.ofNat 16 (w % 2 ^ nbits))

end Sys2Proof.Machine
end

