-- ==== Sys2Proof/Machine/Assembler.lean ====
section
/-! DEFINITION. The assembler syntax and the pseudo-instructions (30_encoding.md R95, R96). No command's meaning
depends on it (92_eei_decisions.md D27). Lexical details the spec leaves open: log entry 14. -/

namespace Sys2Proof.Machine

/-! ### Pseudo-instructions (R96) -/

/-- The five pseudo-instructions (R96). -/
inductive Pseudo where
  | inBytes (bytes : List Byte)
  | inStr (text : List Char)
  | accBits (bits : Bits)
  | bvBits (vd : VReg) (bits : Bits)
  | bvCopy (vd vs : VReg)
  deriving DecidableEq, Repr

/-- The ASCII code of a character, none for a character that has none (R95, R96, G2). -/
def asciiCode (c : Char) : Option Byte := if c.toNat < 128 then some (BitVec.ofNat 8 c.toNat) else none

/-- The expansion of a pseudo-instruction; none where R96 does not admit its operands: more than 8 bits for
`acc.bits`, `bv.copy` onto itself, a character without an ASCII code. -/
def Pseudo.expand : Pseudo → Option (List Instr)
  | .inBytes bytes => some (.inClr :: bytes.map .inPush)
  | .inStr text => (text.mapM asciiCode).map (fun bytes => .inClr :: bytes.map .inPush)
  | .accBits bits => if bits.length ≤ 8 then some (.accClr :: bits.map .accAppb) else none
  | .bvBits vd bits => some (.bvClr vd :: bits.map (.bvAppb vd))
  | .bvCopy vd vs => if vd = vs then none else some [.bvClr vd, .bvAppv vd vs]

/-! ### Lexing one line (R95) -/

/-- The single quote and the double quote. -/
def isQuote (c : Char) : Bool := c.toNat == 39 || c.toNat == 34

/-- White space between tokens: space, tab, carriage return. -/
def isBlank (c : Char) : Bool := c.toNat == 32 || c.toNat == 9 || c.toNat == 13

/-- The quote that is open after a character, given the one open before it. DESIGN CHOICE (log entry 14): quotes
pair off from the left and nothing escapes one, so the third quote of ''' (a quoted single quote) opens a quote again:
a comma or comment after it is not seen and the line is ill formed; ''' is the byte 0x27 only where it ends the line. -/
def quoteAfter (q : Option Char) (c : Char) : Option Char :=
  match q with
  | none => if isQuote c then some c else none
  | some q => if c = q then none else some q

/-- The line up to a `;` that stands in no quotes (R95). -/
def stripComment (q : Option Char) : List Char → List Char
  | [] => []
  | c :: cs => if q = none ∧ c = ';' then [] else c :: stripComment (quoteAfter q c) cs

/-- Without leading and trailing white space. -/
def trimBlanks (cs : List Char) : List Char := ((cs.dropWhile isBlank).reverse.dropWhile isBlank).reverse

/-- The pieces between commas that stand in no quotes (R95). -/
def splitCommas (q : Option Char) (piece : List Char) : List Char → List (List Char)
  | [] => [trimBlanks piece.reverse]
  | c :: cs =>
    if q = none ∧ c = ',' then trimBlanks piece.reverse :: splitCommas none [] cs
    else splitCommas (quoteAfter q c) (c :: piece) cs

/-- The operands of a line: none at all when nothing follows the mnemonic. -/
def operandPieces (cs : List Char) : List (List Char) :=
  if trimBlanks cs = [] then [] else splitCommas none [] cs

/-! ### Operands (R95) -/

/-- A register: `v0` to `v3`. -/
def parseReg : List Char → Option VReg
  | ['v', '0'] => some 0
  | ['v', '1'] => some 1
  | ['v', '2'] => some 2
  | ['v', '3'] => some 3
  | _ => none

/-- A bit immediate: `0` or `1`. -/
def parseBit : Char → Option Bool
  | '0' => some false
  | '1' => some true
  | _ => none

/-- A bit immediate as an operand: one character. -/
def parseBitOperand : List Char → Option Bool
  | [c] => parseBit c
  | _ => none

/-- A digit's value in a base up to 16. -/
def digitValue (base : Nat) (c : Char) : Option Nat :=
  let n := c.toNat
  let d := if 48 ≤ n ∧ n ≤ 57 then n - 48 else if 97 ≤ n ∧ n ≤ 102 then n - 87
    else if 65 ≤ n ∧ n ≤ 70 then n - 55 else base
  if d < base then some d else none

/-- A number in a base, read digit by digit after the value of the digits before. -/
def digitsFrom (base acc : Nat) : List Char → Option Nat
  | [] => some acc
  | c :: cs => (digitValue base c).bind (fun d => digitsFrom base (base * acc + d) cs)

/-- A byte value, none above 255. -/
def byteOfNat (n : Nat) : Option Byte := if n < 256 then some (BitVec.ofNat 8 n) else none

/-- A byte immediate: decimal, hexadecimal after `0x`, or a quoted character (R95); number forms and a quoted
quote are log entry 14. -/
def parseByte : List Char → Option Byte
  | [] => none
  | '0' :: 'x' :: d :: ds => (digitsFrom 16 0 (d :: ds)).bind byteOfNat
  | [q, c, q'] =>
    if q.toNat = 39 ∧ q'.toNat = 39 then asciiCode c else (digitsFrom 10 0 [q, c, q']).bind byteOfNat
  | ds => (digitsFrom 10 0 ds).bind byteOfNat

/-- The characters of a double-quoted string, none without both quotes or with one inside. -/
def parseQuoted : List Char → Option (List Char)
  | [] => none
  | c :: cs =>
    if c.toNat = 34 ∧ cs.getLast?.map Char.toNat = some 34 ∧ cs.dropLast.all (fun d => d.toNat != 34) then
      some cs.dropLast
    else none

/-- A quoted string of bits. -/
def parseQuotedBits (cs : List Char) : Option Bits := (parseQuoted cs).bind (fun t => t.mapM parseBit)

/-- A command whose one operand is a register. -/
def asmReg (build : VReg → Instr) (op : List Char) : Option (List Instr) :=
  (parseReg op).map (fun r => [build r])

/-! ### Lines and programs (R95, R96) -/

/-- The commands of a mnemonic with its operands, destination first (R95, R96). -/
def asmCommand (mnemonic : String) (ops : List (List Char)) : Option (List Instr) :=
  match mnemonic, ops with
  | "acc.clr", [] => some [.accClr]
  | "acc.appb", [b] => (parseBitOperand b).map (fun x => [.accAppb x])
  | "acc.parse", [] => some [.accParse]
  | "acc.text", [] => some [.accText]
  | "bv.clr", [v] => asmReg .bvClr v
  | "bv.appb", [vd, b] => (parseReg vd).bind (fun r => (parseBitOperand b).map (fun x => [.bvAppb r x]))
  | "bv.appa", [vd] => asmReg .bvAppa vd
  | "bv.appv", [vd, vs] => (parseReg vd).bind (fun r => asmReg (.bvAppv r) vs)
  | "bv.len", [v] => asmReg .bvLen v
  | "bv.parse", [vd] => asmReg .bvParse vd
  | "bv.iter", [v] => asmReg .bvIter v
  | "bv.next", [] => some [.bvNext]
  | "huf.build", [] => some [.hufBuild]
  | "huf.map", [vd] => asmReg .hufMap vd
  | "huf.encode", [vd] => asmReg .hufEncode vd
  | "huf.decode", [vs] => asmReg .hufDecode vs
  | "ser.bv", [v] => asmReg .serBv v
  | "des.bv", [vd] => asmReg .desBv vd
  | "ser.dict", [] => some [.serDict]
  | "des.dict", [] => some [.desDict]
  | "in.clr", [] => some [.inClr]
  | "in.push", [b] => (parseByte b).map (fun x => [.inPush x])
  | "io.xfer", [] => some [.ioXfer]
  | "in.bytes", bs => (bs.mapM parseByte).bind (fun l => (Pseudo.inBytes l).expand)
  | "in.str", [t] => (parseQuoted t).bind (fun l => (Pseudo.inStr l).expand)
  | "acc.bits", [t] => (parseQuotedBits t).bind (fun l => (Pseudo.accBits l).expand)
  | "bv.bits", [vd, t] => (parseReg vd).bind (fun r => (parseQuotedBits t).bind (fun l => (Pseudo.bvBits r l).expand))
  | "bv.copy", [vd, vs] => (parseReg vd).bind (fun r => (parseReg vs).bind (fun q => (Pseudo.bvCopy r q).expand))
  | _, _ => none

/-- The commands of one line; an empty line or a comment is no command, none is an ill-formed line (R95). -/
def asmLine (line : List Char) : Option (List Instr) :=
  let code := trimBlanks (stripComment none line)
  let mnemonic := code.takeWhile (fun c => !isBlank c)
  if mnemonic = [] then some []
  else asmCommand (String.ofList mnemonic) (operandPieces (code.dropWhile (fun c => !isBlank c)))

/-- A program's text, line by line, as the words the host issues (R8, R95). -/
def assemble (lines : List (List Char)) : Option (List Word) :=
  (lines.mapM asmLine).map (fun l => l.flatten.map encode)

/-- The state in which the host is about to issue the words of a program, in list order (R8). -/
def State.loadProgram (s : State) (words : List Word) : State :=
  { s with pending := s.pending ++ words.map .issue }

end Sys2Proof.Machine
end

