-- ==== Sys2Proof/Machine/Bounded.lean ====
section
/-! DEFINITION. The core with the open parameters of 00_scope.md R6 as an argument: every command, the step and the
host's interface for given capacities. `exec`, `step` and `core` are this core with the spec's default,
`Config.capacities`. -/

namespace Sys2Proof.Machine

/-- The work of each command in a core with the given capacities; only HUF.BUILD's own tests one of them (COUNT_W). -/
def commandWork (c : Capacities) : Instr → State → Result
  | .accClr => accClrWork
  | .accAppb b => accAppbWork b
  | .accParse => accParseWork
  | .accText => accTextWork
  | .bvClr v => bvClrWork v
  | .bvAppb vd b => bvAppbWork vd b
  | .bvAppa vd => bvAppaWork vd
  | .bvAppv vd vs => bvAppvWork vd vs
  | .bvLen v => bvLenWork v
  | .bvParse vd => bvParseWork vd
  | .bvIter v => bvIterWork v
  | .bvNext => bvNextWork
  | .hufBuild => buildWork c
  | .hufMap vd => mapWork vd
  | .hufEncode vd => encodeWork c vd
  | .hufDecode vs => hufDecodeWork vs
  | .serBv v => serBvWork v
  | .desBv vd => desBvWork vd
  | .serDict => serDictWork
  | .desDict => desDictWork
  | .inClr => inClrWork
  | .inPush imm8 => inPushWork imm8
  | .ioXfer => ioXferWork

/-- The execution of a command in a core with the given capacities (R6, R9, U8). -/
def execWith (c : Capacities) (i : Instr) (s : State) : Host.Outcome State Fault Refusal :=
  runCommand c (commandWork c i) s

/-- The execution of a word in a core with the given capacities (R6, R9, R92). -/
def stepWordWith (c : Capacities) (w : Word) (s : State) : Host.Outcome State Fault Refusal :=
  match decode w with
  | .ok i => execWith c i s
  | .error reason => execIllegal reason s

/-- One step of a core with the given capacities (R6, R9). -/
def stepWith (c : Capacities) (s : State) : Host.Outcome State Fault Refusal := runAction (stepWordWith c) s

/-- The core with the given capacities, as the host's interface has it (R6). -/
def coreWith (c : Capacities) : Host.Core :=
  { State := State, Fault := Fault, Refusal := Refusal, step := stepWith c, reset := State.reset }

end Sys2Proof.Machine
end

