-- ==== Sys2Proof/Safety.lean ====
section
/-! DEFINITION. What a well-formed state of the core is, and the properties of codes and texts the claims use. -/

namespace Sys2Proof.Machine

/-- Every code of the table has at most CODELEN_MAX bits (R27). -/
def Lut.CodesFit (t : Lut) : Prop := ∀ sym c, t.get sym = some c → c.length ≤ Config.codeLenMax

/-- A table is prefix-free: no code is a prefix of the code of another symbol (R26, R168). -/
def Lut.PrefixFree (t : Lut) : Prop :=
  ∀ a b ca cb, t.get a = some ca → t.get b = some cb → a ≠ b → ¬ ca <+: cb

/-- No code of the table is empty (R168, R197). -/
def Lut.NoEmptyCode (t : Lut) : Prop := ∀ sym, t.get sym ≠ some []

/-- No two symbols have the same code (R192). -/
def Lut.CodesDistinct (t : Lut) : Prop :=
  ∀ a b c, t.get a = some c → t.get b = some c → a = b

/-- The registers that hold accumulators and Bit Vectors are canonical (R21, R23). -/
def State.RegistersCanonical (s : State) : Prop := s.acc.Canonical ∧ ∀ r : VReg, (s.getV r).Canonical

/-- IN and OUT list addresses 0, 1, ... without a gap (R29, R30, R60). -/
def State.BuffersWf (s : State) : Prop := s.inBuf.wf ∧ s.outBuf.wf

/-- The status registers hold what R250 and R260 allow: HALT set exactly with cause 2, then RES is 2 as well, RES is
a code of R250, and BIT is 0 when BITV is 0 (R33, R152). -/
def State.StatusLegal (s : State) : Prop :=
  (s.halt = true → s.hcause = 2 ∧ s.res = 2) ∧ (s.halt = false → s.hcause = 0 ∧ s.res ≠ 2) ∧ s.res.toNat ≤ 7 ∧
    (s.bitv = false → s.bit = false)

/-- The invariant of the core's state at every command boundary (R21, R23, R27, R60, R250, R260). -/
def State.Inv (s : State) : Prop :=
  s.RegistersCanonical ∧ s.lut.CodesFit ∧ s.BuffersWf ∧ s.StatusLegal

/-- The bits a text spells, none when some byte is neither `0x30` nor `0x31` (R99). -/
def textBits (text : List Byte) : Option Bits := text.mapM bitOfChar


/-- A buffer holds exactly the given bytes, at the addresses 0 to n-1 (R29, R30, R60). -/
def Memory.Holds (m : Memory) (bs : List Byte) : Prop := m.wf ∧ m.bytes = bs

/-- The state after a list of commands, each executed in turn (R69); none if one of them answers no next state. -/
def execMany : List Instr → State → Option State
  | [], s => some s
  | i :: is, s =>
    match exec i s with
    | .next t => execMany is t
    | .fault _ => none
    | .refused _ => none

/-! ### The access table of 10_state.md R41 -/

/-- The pieces of state of the access table. -/
inductive Piece where
  | acc
  | v (r : VReg)
  | lut
  | inBuf
  | outBuf
  | len
  | it
  | flags
  | halt
  deriving DecidableEq, Repr

/-- The pieces a command can write, RES apart (R41, column `written by`). -/
def commandTargets : Instr → List Piece
  | .accClr => [.acc]
  | .accAppb _ => [.acc, .halt]
  | .accParse => [.acc, .halt]
  | .accText => [.outBuf]
  | .bvClr v => [.v v]
  | .bvAppb vd _ => [.v vd]
  | .bvAppa vd => [.v vd]
  | .bvAppv vd _ => [.v vd]
  | .bvLen _ => [.len]
  | .bvParse vd => [.v vd]
  | .bvIter v => [.v v, .it, .flags]
  | .bvNext => [.it, .flags]
  | .hufBuild => [.lut]
  | .hufMap vd => [.v vd, .halt]
  | .hufEncode vd => [.v vd, .lut]
  | .hufDecode vs => [.v vs, .outBuf]
  | .serBv _ => [.outBuf]
  | .desBv vd => [.v vd]
  | .serDict => [.outBuf]
  | .desDict => [.lut]
  | .inClr => [.inBuf]
  | .inPush _ => [.inBuf]
  | .ioXfer => [.inBuf, .outBuf]

/-- The pieces a command can read (R41, column `read by`; IN.PUSH extends IN and so depends on it). -/
def commandSources : Instr → List Piece
  | .accClr => []
  | .accAppb _ => [.acc]
  | .accParse => [.inBuf]
  | .accText => [.acc]
  | .bvClr _ => []
  | .bvAppb vd _ => [.v vd]
  | .bvAppa vd => [.v vd, .acc]
  | .bvAppv vd vs => [.v vd, .v vs]
  | .bvLen v => [.v v]
  | .bvParse _ => [.inBuf]
  | .bvIter v => [.v v]
  | .bvNext => [.it]
  | .hufBuild => [.inBuf]
  | .hufMap _ => [.inBuf, .lut]
  | .hufEncode _ => [.inBuf]
  | .hufDecode vs => [.v vs, .lut]
  | .serBv v => [.v v]
  | .desBv _ => [.inBuf]
  | .serDict => [.lut]
  | .desDict => [.inBuf]
  | .inClr => []
  | .inPush _ => [.inBuf]
  | .ioXfer => [.outBuf]

/-- Two states hold the same in a piece of state. -/
def agreeOn (s t : State) : Piece → Prop
  | .acc => s.acc = t.acc
  | .v r => s.getV r = t.getV r
  | .lut => s.lut = t.lut
  | .inBuf => s.inBuf = t.inBuf
  | .outBuf => s.outBuf = t.outBuf
  | .len => s.len = t.len
  | .it => s.itRem = t.itRem
  | .flags => s.bit = t.bit ∧ s.bitv = t.bitv
  | .halt => s.halt = t.halt ∧ s.hcause = t.hcause

/-! ### A Dictionary frame by its byte positions (45_serializer.md R225) -/

/-- `N = IN[0]` (R225). -/
def frameCount (f : List Byte) : Nat := (f.getD 0 0).toNat

/-- `s_i = IN[1 + 2i]` (R225). -/
def frameSym (f : List Byte) (i : Nat) : Byte := f.getD (1 + 2 * i) 0

/-- `l_i = IN[2 + 2i]` (R225). -/
def frameLen (f : List Byte) (i : Nat) : Nat := (f.getD (2 + 2 * i) 0).toNat

/-- `o_i = l_0 + ... + l_(i-1)`, so that `T = o_N` (R225). -/
def frameOffset (f : List Byte) (i : Nat) : Nat := ((List.range i).map (frameLen f)).sum

/-- `r = 1 + 2N`, where the packed region starts (R225). -/
def frameRegion (f : List Byte) : Nat := 1 + 2 * frameCount f

/-- The five tests of R225. -/
def DictFrameWf (f : List Byte) : Prop :=
  1 ≤ f.length ∧
  f.length = frameRegion f + 2 + frameOffset f (frameCount f) / 8 ∧
  (∀ i k, i < frameCount f → k < frameCount f → i ≠ k → frameSym f i ≠ frameSym f k) ∧
  (f.getD (frameRegion f) 0).toNat = frameOffset f (frameCount f) % 8 ∧
  f.getD (frameRegion f + 1) 0 <<< (f.getD (frameRegion f) 0).toNat = 0

/-- The bits of the packed region: its complete bytes, then the tail's `T mod 8` bits (R225). -/
def frameBits (f : List Byte) : Bits :=
  (f.drop (frameRegion f + 2)).flatMap byteBits ++
    (byteBits (f.getD (frameRegion f + 1) 0)).take (frameOffset f (frameCount f) % 8)

/-- `code_i`, the bits of the region from `o_i` to `o_i + l_i` (R225). -/
def frameCode (f : List Byte) (i : Nat) : Bits := ((frameBits f).drop (frameOffset f i)).take (frameLen f i)

end Sys2Proof.Machine
end

