-- ==== Sys2Proof/Certificates/Slice0/Obligations.lean ====
section
/-! DEFINITION. The statements about the core, each from the rules of spec/ its docstring names. -/

open Sys2Proof Sys2Proof.Machine

/-! ### Encoding -/

/-- 95_test_vectors.md section 2.6, with one word of every family: words written from the formats of R81 decode
to the commands they stand for, and the listed illegal words are rejected by name (R91, R92). -/
def Obligations.WrittenWordsDecode : Prop :=
  decode 0x1000 = .ok .accClr ∧ decode 0x1110 = .ok (.accAppb true) ∧
  decode 0x2112 = .ok (.bvAppb 2 true) ∧ decode 0x230D = .ok (.bvAppv 1 3) ∧
  decode 0x3303 = .ok (.hufDecode 3) ∧ decode 0x4101 = .ok (.desBv 1) ∧ decode 0x51FF = .ok (.inPush 0xFF) ∧
  decode 0x1101 = .error .mustBeZero ∧ decode 0x2321 = .error .mustBeZero ∧ decode 0x2701 = .error .mustBeZero ∧
  decode 0x5300 = .error .unassignedOpcode ∧ decode 0x0000 = .error .unassignedOpcode ∧
  decode 0x2800 = .error .unassignedOpcode ∧ decode 0x1400 = .error .unassignedOpcode ∧
  decode 0xFFFF = .error .unassignedOpcode

/-- R80 to R82, R88: the decoder gives back every command from its word, with every operand at every value. -/
def Obligations.DecodeGivesBackTheEncodedCommand : Prop := ∀ i : Instr, decode (encode i) = .ok i

/-- R82, R88, R91: a word that decodes is the word of its command, so no two words mean the same command. -/
def Obligations.EncodeGivesBackTheDecodedWord : Prop := ∀ (w : Word) (i : Instr), decode w = .ok i → encode i = w

/-- R88: the table, row by row; a word is the command of a row exactly when `w AND mask = match`; at most one row
matches a word. -/
def Obligations.CommandTableIsReadByMatchAndMask : Prop :=
  commandRows.map (fun r => (r.mnemonic, r.format, r.matchBits, r.mask)) =
    [ ("ACC.CLR", .n, 0x1000, 0xFFFF), ("ACC.APPB", .ab, 0x1100, 0xFFEF), ("ACC.PARSE", .n, 0x1200, 0xFFFF),
      ("ACC.TEXT", .n, 0x1300, 0xFFFF), ("BV.CLR", .v, 0x2000, 0xFFFC), ("BV.APPB", .vb, 0x2100, 0xFFEC),
      ("BV.APPA", .v, 0x2200, 0xFFFC), ("BV.APPV", .vv, 0x2300, 0xFFF0), ("BV.LEN", .v, 0x2400, 0xFFFC),
      ("BV.PARSE", .v, 0x2500, 0xFFFC), ("BV.ITER", .v, 0x2600, 0xFFFC), ("BV.NEXT", .n, 0x2700, 0xFFFF),
      ("HUF.BUILD", .n, 0x3000, 0xFFFF), ("HUF.MAP", .v, 0x3100, 0xFFFC), ("HUF.ENCODE", .v, 0x3200, 0xFFFC),
      ("HUF.DECODE", .v, 0x3300, 0xFFFC), ("SER.BV", .v, 0x4000, 0xFFFC), ("DES.BV", .v, 0x4100, 0xFFFC),
      ("SER.DICT", .n, 0x4200, 0xFFFF), ("DES.DICT", .n, 0x4300, 0xFFFF), ("IN.CLR", .n, 0x5000, 0xFFFF),
      ("IN.PUSH", .i, 0x5100, 0xFF00), ("IO.XFER", .n, 0x5200, 0xFFFF) ] ∧
  (∀ (w : Word) (i : Instr), decode w = .ok i ↔ ∃ r ∈ commandRows, w &&& r.mask = r.matchBits ∧ i = r.build w) ∧
  (∀ (w : Word) (r q : Row), r ∈ commandRows → q ∈ commandRows → w &&& r.mask = r.matchBits →
    w &&& q.mask = q.matchBits → r = q)

/-- R91, R92: the decoder accepts exactly the words with an assigned opcode and zero in the bits the opcode's format
does not use, and names which of the two checks fails. -/
def Obligations.DecodeRejectsByTheTwoWordChecks : Prop :=
  ∀ w : Word,
    ((∃ i, decode w = .ok i) ↔ wordWellFormed w = true) ∧
    (decode w = .error .unassignedOpcode ↔ opcodeAssigned w = false) ∧
    (decode w = .error .mustBeZero ↔ opcodeAssigned w = true ∧ unusedBitsZero w = false)

/-! ### The step -/

/-- R8, R9, R280, R281: the next word of the host's list is executed, as the command it decodes to where it decodes,
in the state in which it is no longer pending; the reset input resets the core; with nothing pending the core waits,
its state unchanged. The pending list and the waiting are the model's choices (log entries 1 and 2). R6, U8: the core
whose open parameters have given values does what this core does or refuses a command, exactly one that would exceed a
capacity, and never exceeds one; `step` is that core with the spec's defaults. That a refusal stands for the missing step,
and that COUNT_W is tested against IN_LEN, are the model's (log entry 6). -/
def Obligations.StepExecutesTheIssuedCommand : Prop :=
  (∀ (s : State) (w : Word) (rest : List HostAction), s.pending = .issue w :: rest →
    step s = stepWord w { s with pending := rest } ∧
    ∀ i, decode w = .ok i → step s = exec i { s with pending := rest }) ∧
  (∀ (s : State) (rest : List HostAction), s.pending = .reset :: rest →
    step s = .next { State.reset with pending := rest }) ∧
  (∀ s : State, s.pending = [] → step s = .next s) ∧
  (∀ s : State, stepWith Config.capacities s = step s) ∧
  (∀ (c : Capacities) (i : Instr) (s : State),
    (execWith c i s = exec i s ∨ execWith c i s = .refused .capacityExceeded) ∧
    (execWith c i s = .refused .capacityExceeded ↔
      s.halt = false ∧ ((∃ t, exec i s = .next t ∧ t.res = 0 ∧ t.withinCapacity c = false) ∨
        ((i = .hufBuild ∨ ∃ vd, i = .hufEncode vd) ∧ fitsWidth c.countW s.inLen = false)))) ∧
  (∀ (c : Capacities) (s t : State), s.withinCapacity c = true → stepWith c s = .next t → t.withinCapacity c = true)

/-- R92: the words that match no row are those with an opcode outside the listed ones and those with a non-zero
must-be-zero bit; executed while HALT = 0 such a word writes 7 to RES and changes nothing else, while HALT = 1 it has no
effect; `0x0000` and `0xFFFF` are such words. -/
def Obligations.IllegalWordReportsIllegalOnly : Prop :=
  (∀ (s : State) (w : Word), (∀ r ∈ commandRows, w &&& r.mask ≠ r.matchBits) →
    (s.halt = false → stepWord w s = .next { s with res := 7 }) ∧ (s.halt = true → stepWord w s = .next s)) ∧
  (∀ w : Word, (∀ r ∈ commandRows, w &&& r.mask ≠ r.matchBits) ↔ opcodeAssigned w = false ∨ unusedBitsZero w = false) ∧
  (∀ w : Word, opcodeAssigned w = true ↔
    (0x10 ≤ (fieldOp w).toNat ∧ (fieldOp w).toNat ≤ 0x13) ∨ (0x20 ≤ (fieldOp w).toNat ∧ (fieldOp w).toNat ≤ 0x27) ∨
    (0x30 ≤ (fieldOp w).toNat ∧ (fieldOp w).toNat ≤ 0x33) ∨ (0x40 ≤ (fieldOp w).toNat ∧ (fieldOp w).toNat ≤ 0x43) ∨
    (0x50 ≤ (fieldOp w).toNat ∧ (fieldOp w).toNat ≤ 0x52)) ∧
  (∀ r ∈ commandRows, (0x0000 : Word) &&& r.mask ≠ r.matchBits) ∧
  (∀ r ∈ commandRows, (0xFFFF : Word) &&& r.mask ≠ r.matchBits)

/-- R9: the execution of a word is total: every word is executed as the command it decodes to, or handled as illegal;
with HALT = 1 it is the identity, otherwise it answers a next state with RES written. -/
def Obligations.StepIsTotal : Prop :=
  (∀ (s : State) (w : Word),
    (s.halt = true → stepWord w s = .next s) ∧
    (s.halt = false →
      (∃ i t, decode w = .ok i ∧ stepWord w s = exec i s ∧ exec i s = .next t ∧
        (t.res = 0 ∨ ∃ e : Err, t.res = e.code)) ∨
      ((∀ i, decode w ≠ .ok i) ∧ stepWord w s = .next { s with res := 7 }))) ∧
  (∀ s : State, ∃ t, step s = .next t)

/-- R40: after reset every piece of state has the value of the table. -/
def Obligations.ResetLeavesTheResetValues : Prop :=
  State.reset.acc = ⟨0x00, 0⟩ ∧ (∀ r : VReg, State.reset.getV r = ⟨[], ⟨0x00, 0⟩⟩) ∧
  (∀ sym, State.reset.lut.get sym = none) ∧ State.reset.nLut = 0 ∧
  State.reset.inBytes = [] ∧ State.reset.inLen = 0 ∧ State.reset.outBytes = [] ∧ State.reset.outLen = 0 ∧
  State.reset.len = 0 ∧ State.reset.itRem = [] ∧ State.reset.bit = false ∧ State.reset.bitv = false ∧
  State.reset.res = 0 ∧ State.reset.halt = false ∧ State.reset.hcause = 0

/-- R258: while HALT = 1 no command executes: every word, legal or not, leaves the whole state of the core, RES
included, unchanged; every port can still be read. -/
def Obligations.HaltedCoreExecutesNothing : Prop :=
  ∀ s : State, s.halt = true →
    (∀ i : Instr, exec i s = .next s) ∧
    (∀ w : Word, stepWord w s = .next s) ∧
    (∀ n ≤ 10, ∃ value, s.readPort n = some value)

/-- R260: HALT and HCAUSE are cleared only by reset, which also clears everything else, and HCAUSE holds only 0 or 2
from a state in which it does. -/
def Obligations.OnlyResetLeavesTheHaltedState : Prop :=
  ∀ s t : State, step s = .next t →
    ((s.halt = true ∧ t.halt = false ∨ s.hcause ≠ 0 ∧ t.hcause = 0) →
      ∃ rest, s.pending = .reset :: rest ∧ t = { State.reset with pending := rest }) ∧
    (s.hcause = 0 ∨ s.hcause = 2 → t.hcause = 0 ∨ t.hcause = 2)

/-! ### Invariant -/

/-- R21, R23, R27, R60, R250, R260: every step keeps the invariant of the core's state, from every state that has it. -/
def Obligations.EveryStepKeepsTheCanonicalState : Prop := ∀ s t : State, s.Inv → step s = .next t → t.Inv

/-- R21, R40: the reset state has the invariant. -/
def Obligations.ResetStateIsCanonical : Prop := State.reset.Inv

/-! ### Results, errors and frames of all commands -/

/-- R38: every executed command writes RES (with 0 or the code of an error), whatever it held, and no command
reads it. -/
def Obligations.ResIsWrittenAndNeverRead : Prop :=
  ∀ (i : Instr) (s : State) (r : BitVec 4), s.halt = false →
    exec i { s with res := r } = exec i s ∧
    ∃ t, exec i s = .next t ∧ (t.res = 0 ∨ ∃ e : Err, t.res = e.code)

/-- R250 to R255: which command can report which code; no other does. -/
def Obligations.EachErrorComesFromItsCommands : Prop :=
  ∀ (i : Instr) (s t : State), s.halt = false → exec i s = .next t →
    t.res = 0 ∨
    (t.res = 1 ∧ (i = .accParse ∨ ∃ vd, i = .bvParse vd)) ∨
    (t.res = 2 ∧ ((∃ b, i = .accAppb b) ∨ i = .accParse ∨ ∃ vd, i = .hufMap vd)) ∨
    (t.res = 3 ∧ ∃ vs, i = .hufDecode vs) ∨
    (t.res = 4 ∧ ∃ vs, i = .hufDecode vs) ∨
    (t.res = 5 ∧ i = .serDict) ∨
    (t.res = 6 ∧ (i = .desDict ∨ ∃ vd, i = .desBv vd))

/-- R259: a recoverable error sets RES to its code and changes nothing else, except that HUF.DECODE has emptied its
source; the core is not halted. -/
def Obligations.RecoverableErrorChangesOnlyRes : Prop :=
  (∀ (i : Instr) (s t : State), s.halt = false → exec i s = .next t → t.res ≠ 0 → t.res ≠ 2 →
    t.halt = false ∧
    ((∀ vs, i ≠ .hufDecode vs) → t = { s with res := t.res }) ∧
    (∀ vs, i = .hufDecode vs → t = { s.setV vs ⟨[], ⟨0x00, 0⟩⟩ with res := t.res })) ∧
  (∀ (e : Illegal) (s : State), s.halt = false → execIllegal e s = .next { s with res := 7 })

/-- R256: when a command raises LogicError the core writes 2 to RES, 1 to HALT, 2 to HCAUSE and nothing else. -/
def Obligations.HaltEntryIsPrecise : Prop :=
  ∀ (i : Instr) (s t : State), s.halt = false → exec i s = .next t → (t.res = 2 ∨ t.halt = true) →
    t = { s with res := 2, halt := true, hcause := 2 }

/-- R41, column `written by`: the frame of every command. A piece of state changes only under a command the table
lists as its writer; of a buffer, every byte reads as before; what the host will do next is as before. -/
def Obligations.CommandsWriteOnlyTheirTargets : Prop :=
  ∀ (i : Instr) (s t : State), exec i s = .next t →
    (Piece.acc ∉ commandTargets i → t.acc = s.acc) ∧
    (∀ r : VReg, Piece.v r ∉ commandTargets i → t.getV r = s.getV r) ∧
    (Piece.lut ∉ commandTargets i → t.lut = s.lut) ∧
    (Piece.inBuf ∉ commandTargets i → t.inLen = s.inLen ∧ ∀ addr, t.inBuf.readByte addr = s.inBuf.readByte addr) ∧
    (Piece.outBuf ∉ commandTargets i → t.outLen = s.outLen ∧ ∀ addr, t.outBuf.readByte addr = s.outBuf.readByte addr) ∧
    (Piece.len ∉ commandTargets i → t.len = s.len) ∧
    (Piece.it ∉ commandTargets i → t.itRem = s.itRem) ∧
    (Piece.flags ∉ commandTargets i → t.bit = s.bit ∧ t.bitv = s.bitv) ∧
    (Piece.halt ∉ commandTargets i → t.halt = s.halt ∧ t.hcause = s.hcause) ∧
    t.pending = s.pending

/-- R41, column `read by`, to which the model adds IN for IN.PUSH, that extends it (R241; log entry 16, DEDUCED): what a
command writes depends only on the pieces it reads. From two states that agree on
those, RES comes out the same, and each target comes out the same or keeps its old value in both. -/
def Obligations.CommandsReadOnlyTheirSources : Prop :=
  ∀ (i : Instr) (s s' : State), s.halt = false → s'.halt = false → (∀ p ∈ commandSources i, agreeOn s s' p) →
    ∃ t t', exec i s = .next t ∧ exec i s' = .next t' ∧ t.res = t'.res ∧
      ∀ p ∈ commandTargets i, agreeOn t t' p ∨ (agreeOn t s p ∧ agreeOn t' s' p)

/-! ### Bits and packing -/

/-- R13: `acc(L)` and `pack(L)` spell L and are canonical, and `pack(L)` is the only canonical Bit Vector that does. -/
def Obligations.PackIsTheOnlyCanonicalVector : Prop :=
  (∀ l : Bits, l.length ≤ 8 → (accOfBits l).bits = l ∧ (accOfBits l).Canonical) ∧
  (∀ l : Bits, (pack l).bits = l ∧ (pack l).Canonical) ∧
  (∀ (l : Bits) (x : BitVector), x.Canonical → x.bits = l → x = pack l)

/-- R130: each command of the family that changes a register leaves exactly `pack` of the bit sequence the rule gives
it, whatever the alignment (R64), and so a canonical register (R13). -/
def Obligations.BitVectorCommandsConcatenateBits : Prop :=
  ∀ (s : State) (d : VReg), s.halt = false → s.RegistersCanonical →
    exec (.bvClr d) s = .next { s.setV d (pack []) with res := 0 } ∧
    (∀ b, exec (.bvAppb d b) s = .next { s.setV d (pack ((s.getV d).bits ++ [b])) with res := 0 }) ∧
    exec (.bvAppa d) s = .next { s.setV d (pack ((s.getV d).bits ++ s.acc.bits)) with res := 0 } ∧
    (∀ v, exec (.bvAppv d v) s = .next { s.setV d (pack ((s.getV d).bits ++ (s.getV v).bits)) with res := 0 }) ∧
    (∀ l, textBits s.inBytes = some l → exec (.bvParse d) s = .next { s.setV d (pack l) with res := 0 }) ∧
    (∀ l, (pack l).Canonical ∧ (pack l).bits = l)

/-- R139, R140: BV.APPV succeeds, adds the source's bits and length, and with one register as both it doubles it. -/
def Obligations.AppendedLengthsAdd : Prop :=
  ∀ (s : State) (vd vs : VReg), s.halt = false → (s.getV vd).Canonical → (s.getV vs).Canonical →
    ∃ t, exec (.bvAppv vd vs) s = .next t ∧ t.res = 0 ∧ (t.getV vd).bits = (s.getV vd).bits ++ (s.getV vs).bits ∧
      (t.getV vd).bitLength = (s.getV vd).bitLength + (s.getV vs).bitLength ∧
      (vd = vs → (t.getV vd).bits = (s.getV vd).bits ++ (s.getV vd).bits) ∧
      (vd ≠ vs → t.getV vs = s.getV vs)

/-! ### Bit Accumulator commands -/

/-- R110: ACC.CLR empties ACC. -/
def Obligations.AccClrEmptiesTheAccumulator : Prop :=
  ∀ s : State, s.halt = false → exec .accClr s = .next { s with acc := ⟨0x00, 0⟩, res := 0 }

/-- R111, R112: ACC.APPB sets the bit at the most significant free position and lengthens ACC by one; at length 8 it
raises LogicError. -/
def Obligations.AccAppbAppendsOneBit : Prop :=
  ∀ (s : State) (b : Bool), s.halt = false →
    (s.acc.Canonical → s.acc.length.val < 8 →
      ∃ a : Acc, exec (.accAppb b) s = .next { s with acc := a, res := 0 } ∧
        a.length.val = s.acc.length.val + 1 ∧
        (∀ k < 8, a.value.getLsbD k = if k = 7 - s.acc.length.val then b else s.acc.value.getLsbD k) ∧
        a.bits = s.acc.bits ++ [b] ∧ a.Canonical) ∧
    (s.acc.length.val = 8 → exec (.accAppb b) s = .next { s with res := 2, halt := true, hcause := 2 })

/-- R113, R114: ACC.PARSE replaces ACC by the bits of a text of at most 8 binary characters; the first character that
is not binary among the first nine raises FormatError, a ninth binary character raises LogicError. -/
def Obligations.AccParseReadsTheText : Prop :=
  ∀ s : State, s.halt = false →
    (∀ l, textBits s.inBytes = some l → l.length ≤ 8 →
      exec .accParse s = .next { s with acc := accOfBits l, res := 0 }) ∧
    (∀ good l c rest, s.inBytes = good ++ c :: rest → textBits good = some l → l.length ≤ 8 → bitOfChar c = none →
      exec .accParse s = .next { s with res := 1 }) ∧
    (∀ nine l rest, s.inBytes = nine ++ rest → textBits nine = some l → l.length = 9 →
      exec .accParse s = .next { s with res := 2, halt := true, hcause := 2 })

/-- R115: ACC.TEXT writes one byte per bit of ACC to OUT, byte i being `0x30 + ACC.value[7-i]`. -/
def Obligations.AccTextWritesTheBits : Prop :=
  ∀ s : State, s.halt = false →
    ∃ m : Memory, exec .accText s = .next { s with outBuf := m, res := 0 } ∧ m.wf ∧
      m.length = s.acc.length.val ∧
      ∀ i < s.acc.length.val, m.readByte i = some (0x30 + (if s.acc.value.getLsbD (7 - i) then 1 else 0))

/-- R116: the text round trip, both ways. -/
def Obligations.AccumulatorTextRoundTrip : Prop :=
  (∀ s : State, s.halt = false → s.inBytes.length ≤ 8 → (∀ c ∈ s.inBytes, c = 0x30 ∨ c = 0x31) →
    ∃ t, execMany [.accParse, .accText] s = some t ∧ t.res = 0 ∧ t.outBytes = s.inBytes) ∧
  (∀ s : State, s.halt = false → s.acc.Canonical →
    ∃ t, execMany [.accText, .ioXfer, .accParse] s = some t ∧ t.res = 0 ∧ t.acc = s.acc)

/-! ### Bit Vector commands -/

/-- R132: BV.CLR empties the register. -/
def Obligations.BvClrEmptiesTheRegister : Prop :=
  ∀ (s : State) (v : VReg), s.halt = false →
    exec (.bvClr v) s = .next { s.setV v ⟨[], ⟨0x00, 0⟩⟩ with res := 0 }

/-- R134: BV.APPB by the tail's length j: below 7 the tail grows by the bit at position 7-j, at 7 the full byte is
flushed and the tail is empty. -/
def Obligations.BvAppbFlushesTheEighthBit : Prop :=
  ∀ (s : State) (vd : VReg) (b : Bool), s.halt = false → (s.getV vd).Canonical →
    ∃ x : BitVector, exec (.bvAppb vd b) s = .next { s.setV vd x with res := 0 } ∧
      ((s.getV vd).tail.length.val < 7 →
        x.completeBytes = (s.getV vd).completeBytes ∧ x.tail.length.val = (s.getV vd).tail.length.val + 1 ∧
        x.tail.value = (s.getV vd).tail.value ||| ((if b then 1 else 0) <<< (7 - (s.getV vd).tail.length.val))) ∧
      ((s.getV vd).tail.length.val = 7 →
        x.completeBytes = (s.getV vd).completeBytes ++ [(s.getV vd).tail.value ||| (if b then 1 else 0)] ∧
        x.tail = ⟨0x00, 0⟩)

/-- R136: BV.APPA by the tail's length j and ACC's length k: below 8 together the tail takes ACC shifted right by j;
else one byte is flushed, and `j + k - 8` bits remain, none of them computed by a shift of 8 (R284). -/
def Obligations.BvAppaMergesTheAccumulator : Prop :=
  ∀ (s : State) (vd : VReg), s.halt = false → (s.getV vd).Canonical → s.acc.Canonical →
    ∃ x : BitVector, exec (.bvAppa vd) s = .next { s.setV vd x with res := 0 } ∧
      ((s.getV vd).tail.length.val + s.acc.length.val < 8 →
        x.completeBytes = (s.getV vd).completeBytes ∧
        x.tail.length.val = (s.getV vd).tail.length.val + s.acc.length.val ∧
        x.tail.value = (s.getV vd).tail.value ||| (s.acc.value >>> (s.getV vd).tail.length.val)) ∧
      (8 ≤ (s.getV vd).tail.length.val + s.acc.length.val → (s.getV vd).tail.length.val = 0 →
        x.completeBytes = (s.getV vd).completeBytes ++ [s.acc.value] ∧ x.tail = ⟨0x00, 0⟩) ∧
      (8 ≤ (s.getV vd).tail.length.val + s.acc.length.val → 1 ≤ (s.getV vd).tail.length.val →
        x.completeBytes = (s.getV vd).completeBytes ++
          [(s.getV vd).tail.value ||| (s.acc.value >>> (s.getV vd).tail.length.val)] ∧
        x.tail.length.val = (s.getV vd).tail.length.val + s.acc.length.val - 8 ∧
        x.tail.value = s.acc.value <<< (8 - (s.getV vd).tail.length.val))

/-- R142: BV.LEN writes the logical length in bits to LEN; that is the number of the register's bits. -/
def Obligations.BvLenCountsTheBits : Prop :=
  ∀ (s : State) (v : VReg), s.halt = false →
    exec (.bvLen v) s =
      .next { s with len := 8 * (s.getV v).completeBytes.length + (s.getV v).tail.length.val, res := 0 } ∧
    8 * (s.getV v).completeBytes.length + (s.getV v).tail.length.val = (s.getV v).bits.length

/-- R144: BV.PARSE replaces the register by the bits of a text of any length, and raises FormatError for a text with
a character that is not binary. -/
def Obligations.BvParseReadsTheText : Prop :=
  ∀ (s : State) (vd : VReg), s.halt = false →
    (∀ l, textBits s.inBytes = some l → exec (.bvParse vd) s = .next { s.setV vd (pack l) with res := 0 }) ∧
    ((∃ c ∈ s.inBytes, c ≠ 0x30 ∧ c ≠ 0x31) → exec (.bvParse vd) s = .next { s with res := 1 })

/-- R150: BV.ITER moves the register's bits to IT, empties the register and clears the flags. -/
def Obligations.BvIterConsumesTheRegister : Prop :=
  ∀ (s : State) (v : VReg), s.halt = false →
    exec (.bvIter v) s =
      .next { s.setV v ⟨[], ⟨0x00, 0⟩⟩ with itRem := (s.getV v).bits, bit := false, bitv := false, res := 0 }

/-- R152: BV.NEXT delivers the next bit, or reports the end and leaves IT as it is. -/
def Obligations.BvNextDeliversOneBit : Prop :=
  ∀ s : State, s.halt = false →
    (∀ b rest, s.itRem = b :: rest →
      exec .bvNext s = .next { s with itRem := rest, bit := b, bitv := true, res := 0 }) ∧
    (s.itRem = [] → exec .bvNext s = .next { s with bit := false, bitv := false, res := 0 })

/-- R153: after BV.ITER the k-th BV.NEXT delivers bit k, and from the end on every BV.NEXT reports the end. -/
def Obligations.IterationDeliversEveryBitInOrder : Prop :=
  ∀ (s : State) (v : VReg) (k : Nat), s.halt = false →
    ∃ t, execMany (.bvIter v :: List.replicate (k + 1) .bvNext) s = some t ∧
      (∀ b, (s.getV v).bits[k]? = some b → t.bit = b ∧ t.bitv = true) ∧
      ((s.getV v).bits[k]? = none → t.bit = false ∧ t.bitv = false)

/-! ### Huffman commands -/

/-- R168: HUF.BUILD replaces only the LUT, with one entry per distinct byte of IN; the table is prefix-free, without
an empty code, no code longer than `N_LUT - 1` from two symbols on, and the lengths fill the code space. -/
def Obligations.HufBuildMakesAPrefixFreeTable : Prop :=
  ∀ s : State, s.halt = false →
    ∃ t, exec .hufBuild s = .next t ∧ t = { s with lut := t.lut, res := 0 } ∧
      (∀ sym, sym ∈ s.inBytes ↔ (t.lut.get sym).isSome = true) ∧ t.nLut = s.inBytes.dedup.length ∧ t.nLut ≤ 256 ∧
      t.lut.PrefixFree ∧ t.lut.NoEmptyCode ∧
      (2 ≤ t.nLut → ∀ sym c, t.lut.get sym = some c → c.length ≤ t.nLut - 1 ∧ c.length ≤ 255) ∧
      (2 ≤ t.nLut → (t.lut.entries.map (fun e => 2 ^ (255 - e.2.length))).sum = 2 ^ 255)

/-- R160: the table is a function of the multiset of bytes in IN: two states whose IN differ only in order get the
same LUT. -/
def Obligations.HufBuildDependsOnlyOnTheCounts : Prop :=
  ∀ s s' : State, s.halt = false → s'.halt = false → s.inBytes.Perm s'.inBytes →
    ∃ t t', exec .hufBuild s = .next t ∧ exec .hufBuild s' = .next t' ∧ t.lut = t'.lut

/-- R165: one distinct symbol gets the 1-bit code `0` and is the only entry; an empty IN gives the empty Dictionary. -/
def Obligations.HufBuildOnOneSymbolOrNone : Prop :=
  (∀ (s : State) (sym : Byte) (n : Nat), s.halt = false → s.inBytes = List.replicate (n + 1) sym →
    ∃ t, exec .hufBuild s = .next t ∧ t.lut.get sym = some [false] ∧ ∀ other, other ≠ sym → t.lut.get other = none) ∧
  (∀ s : State, s.halt = false → s.inBytes = [] →
    ∃ t, exec .hufBuild s = .next t ∧ ∀ sym, t.lut.get sym = none)

/-- R170: the document's worked scenario: for `AABAC`, A is `1`, B is `00`, C is `01`. -/
def Obligations.HufBuildOfTheWorkedScenario : Prop :=
  ∀ s : State, s.halt = false → s.inBytes = [0x41, 0x41, 0x42, 0x41, 0x43] →
    ∃ t, exec .hufBuild s = .next t ∧ t.lut.get 0x41 = some [true] ∧ t.lut.get 0x42 = some [false, false] ∧
      t.lut.get 0x43 = some [false, true] ∧ t.nLut = 3

/-- R180: HUF.MAP writes the concatenated codes of IN, in order, to the register; a byte without an entry raises
LogicError. -/
def Obligations.HufMapConcatenatesTheCodes : Prop :=
  ∀ (s : State) (vd : VReg), s.halt = false →
    (∀ codes : List Bits, s.inBytes.map s.lut.get = codes.map some →
      exec (.hufMap vd) s = .next { s.setV vd (pack codes.flatten) with res := 0 }) ∧
    ((∃ sym ∈ s.inBytes, s.lut.get sym = none) →
      exec (.hufMap vd) s = .next { s with res := 2, halt := true, hcause := 2 })

/-- R181: HUF.ENCODE does exactly HUF.BUILD and then HUF.MAP, as one command, and never fails. -/
def Obligations.HufEncodeIsBuildThenMap : Prop :=
  ∀ (s : State) (vd : VReg), s.halt = false →
    ∃ t, exec (.hufEncode vd) s = .next t ∧ execMany [.hufBuild, .hufMap vd] s = some t ∧ t.res = 0 ∧ t.halt = false

/-- R182: the length of the packed data is the sum of count times code length. -/
def Obligations.PackedLengthIsCountTimesCodeLength : Prop :=
  ∀ (s t : State) (vd : VReg), s.halt = false →
    (exec (.hufEncode vd) s = .next t ∨ (exec (.hufMap vd) s = .next t ∧ t.res = 0)) →
    (t.getV vd).bitLength =
      (allSymbols.map (fun sym => s.inBytes.count sym * ((t.lut.get sym).getD []).length)).sum

/-- R183: for any content of IN, HUF.ENCODE and then HUF.DECODE of the same register give IN back in OUT. -/
def Obligations.EncodeThenDecodeRestoresTheInput : Prop :=
  ∀ (s : State) (vd : VReg), s.halt = false →
    ∃ t, execMany [.hufEncode vd, .hufDecode vd] s = some t ∧ t.res = 0 ∧ t.outBytes = s.inBytes

/-- R198: with a prefix-free table without an empty code, HUF.DECODE of a concatenation of codes gives their symbols. -/
def Obligations.HufDecodeRecoversTheSymbols : Prop :=
  ∀ (s : State) (vs : VReg) (syms : List Byte) (codes : List Bits), s.halt = false →
    s.lut.PrefixFree → s.lut.NoEmptyCode → syms.map s.lut.get = codes.map some → (s.getV vs).bits = codes.flatten →
    ∃ m : Memory, m.Holds syms ∧
      exec (.hufDecode vs) s = .next { s.setV vs ⟨[], ⟨0x00, 0⟩⟩ with outBuf := m, res := 0 }

/-- R192: two entries with the same code are reported as CORRUPT before any bit is scanned, with the source consumed
and OUT unchanged; without such a pair CORRUPT is not reported. -/
def Obligations.DuplicateCodeIsCorrupt : Prop :=
  ∀ (s : State) (vs : VReg), s.halt = false →
    (¬ s.lut.CodesDistinct → exec (.hufDecode vs) s = .next { s.setV vs ⟨[], ⟨0x00, 0⟩⟩ with res := 4 }) ∧
    (s.lut.CodesDistinct → ∃ t, exec (.hufDecode vs) s = .next t ∧ t.res ≠ 4)

/-- R199: dropping the final bit of a packed stream is reported as TRUNC exactly when the last code has 2 bits or
more; when it has 1 bit the decoder succeeds with one byte fewer. -/
def Obligations.TruncationIsDetectedInsideACode : Prop :=
  ∀ (s : State) (vs : VReg) (syms : List Byte) (codes : List Bits) (last : Byte) (c : Bits), s.halt = false →
    s.lut.PrefixFree → s.lut.NoEmptyCode → syms.map s.lut.get = codes.map some → s.lut.get last = some c →
    (s.getV vs).bits = (codes.flatten ++ c).dropLast →
    (2 ≤ c.length → exec (.hufDecode vs) s = .next { s.setV vs ⟨[], ⟨0x00, 0⟩⟩ with res := 3 }) ∧
    (c.length = 1 → ∃ m : Memory, m.Holds syms ∧
      exec (.hufDecode vs) s = .next { s.setV vs ⟨[], ⟨0x00, 0⟩⟩ with outBuf := m, res := 0 })

/-- R190 to R195: the phase machine of R191, run for one transition per bit and three more, ends in DONE with the
bytes HUF.DECODE writes to OUT, or in ERR with the error HUF.DECODE reports. -/
def Obligations.HufDecodeRunsThePhaseMachine : Prop :=
  ∀ (s : State) (vs : VReg) (n : Nat), s.halt = false → (s.getV vs).bits.length + 3 ≤ n →
    ((decoderRun s.lut n (decoderStart (s.getV vs).bits)).phase = .done ∧
      ∃ m : Memory, m.Holds (decoderRun s.lut n (decoderStart (s.getV vs).bits)).out ∧
        exec (.hufDecode vs) s = .next { s.setV vs ⟨[], ⟨0x00, 0⟩⟩ with outBuf := m, res := 0 }) ∨
    (∃ e : Err, (decoderRun s.lut n (decoderStart (s.getV vs).bits)).phase = .err e ∧ (e = .corrupt ∨ e = .trunc) ∧
      exec (.hufDecode vs) s = .next { s.setV vs ⟨[], ⟨0x00, 0⟩⟩ with res := e.code })

/-- R196: for every table without a duplicate code, prefix-free or not, a walk of the code trie gives the bytes or
the error HUF.DECODE gives. -/
def Obligations.HufDecodeIsATreeWalk : Prop :=
  ∀ (s : State) (vs : VReg), s.halt = false → s.lut.CodesDistinct →
    (∀ out, walkBits s.lut (s.getV vs).bits = .ok out →
      ∃ m : Memory, m.Holds out ∧
        exec (.hufDecode vs) s = .next { s.setV vs ⟨[], ⟨0x00, 0⟩⟩ with outBuf := m, res := 0 }) ∧
    (∀ e, walkBits s.lut (s.getV vs).bits = .error e →
      e = .trunc ∧ exec (.hufDecode vs) s = .next { s.setV vs ⟨[], ⟨0x00, 0⟩⟩ with res := 3 })

/-- R197: a symbol whose code is empty is never emitted. -/
def Obligations.EmptyCodeIsNeverMatched : Prop :=
  ∀ (s t : State) (vs : VReg) (sym : Byte), s.halt = false → s.lut.get sym = some [] →
    exec (.hufDecode vs) s = .next t → t.res = 0 → sym ∉ t.outBytes

/-! ### Serializer commands -/

/-- R210: SER.BV writes the Bit Vector frame to OUT and leaves the register. -/
def Obligations.SerBvWritesTheFrame : Prop :=
  ∀ (s : State) (v : VReg), s.halt = false →
    ∃ m : Memory, exec (.serBv v) s = .next { s with outBuf := m, res := 0 } ∧
      m.Holds ([BitVec.ofNat 8 (s.getV v).tail.length.val, (s.getV v).tail.value] ++ (s.getV v).completeBytes) ∧
      m.length = 2 + (s.getV v).completeBytes.length

/-- R215: DES.BV accepts exactly the frames that pass the three tests, and otherwise reports FRAME. -/
def Obligations.DesBvReadsTheFrame : Prop :=
  ∀ (s : State) (vd : VReg), s.halt = false →
    (∀ tl tv bytes, s.inBytes = tl :: tv :: bytes → tl.toNat ≤ 7 → tv <<< tl.toNat = 0 →
      ∃ x : BitVector, x.completeBytes = bytes ∧ x.tail.value = tv ∧ x.tail.length.val = tl.toNat ∧
        exec (.desBv vd) s = .next { s.setV vd x with res := 0 }) ∧
    (s.inLen < 2 → exec (.desBv vd) s = .next { s with res := 6 }) ∧
    (∀ tl tv bytes, s.inBytes = tl :: tv :: bytes → (7 < tl.toNat ∨ tv <<< tl.toNat ≠ 0) →
      exec (.desBv vd) s = .next { s with res := 6 })

/-- R216: the Bit Vector frame round trips, both ways. -/
def Obligations.VectorFrameRoundTrips : Prop :=
  (∀ (s : State) (v vd : VReg), s.halt = false → (s.getV v).Canonical →
    ∃ t, execMany [.serBv v, .ioXfer, .desBv vd] s = some t ∧ t.res = 0 ∧ t.getV vd = s.getV v) ∧
  (∀ (s t : State) (vd : VReg), s.halt = false → exec (.desBv vd) s = .next t → t.res = 0 →
    ∃ u, exec (.serBv vd) t = .next u ∧ u.outBytes = s.inBytes)

/-- R220: SER.DICT writes count, pairs in ascending symbol order and the frame of the packed codes; with 256 entries it
reports ALPHA. -/
def Obligations.SerDictWritesTheFrame : Prop :=
  ∀ s : State, s.halt = false →
    (s.nLut ≤ 255 → s.lut.CodesFit →
      ∃ (es : List (Byte × Bits)) (m : Memory), exec .serDict s = .next { s with outBuf := m, res := 0 } ∧
        es.length = s.nLut ∧ es.Pairwise (fun d e => d.1.toNat < e.1.toNat) ∧
        (∀ sym c, (sym, c) ∈ es ↔ s.lut.get sym = some c) ∧
        m.Holds ([BitVec.ofNat 8 es.length] ++ es.flatMap (fun e => [e.1, BitVec.ofNat 8 e.2.length]) ++
          [BitVec.ofNat 8 (pack (es.flatMap Prod.snd)).tail.length.val, (pack (es.flatMap Prod.snd)).tail.value] ++
          (pack (es.flatMap Prod.snd)).completeBytes)) ∧
    (s.nLut = 256 → exec .serDict s = .next { s with res := 5 }) ∧ s.nLut ≤ 256

/-- R225: DES.DICT accepts exactly the well-formed frames, by their byte positions, and replaces the LUT by the
symbols and codes they spell; otherwise it reports FRAME. -/
def Obligations.DesDictReadsTheFrame : Prop :=
  ∀ s : State, s.halt = false →
    (DictFrameWf s.inBytes →
      ∃ table : Lut, exec .desDict s = .next { s with lut := table, res := 0 } ∧
        (∀ i < frameCount s.inBytes, table.get (frameSym s.inBytes i) = some (frameCode s.inBytes i)) ∧
        (∀ sym, (∀ i < frameCount s.inBytes, frameSym s.inBytes i ≠ sym) → table.get sym = none)) ∧
    (¬ DictFrameWf s.inBytes → exec .desDict s = .next { s with res := 6 })

/-- R226: the Dictionary frame round trips: a LUT of at most 255 entries comes back; a well-formed frame with its pairs
in ascending symbol order comes back byte for byte; with its pairs in any order what comes back is a well-formed frame
in ascending order of the same Dictionary. -/
def Obligations.DictionaryFrameRoundTrips : Prop :=
  (∀ s : State, s.halt = false → s.nLut ≤ 255 → s.lut.CodesFit →
    ∃ t, execMany [.serDict, .ioXfer, .desDict] s = some t ∧ t.res = 0 ∧ t.lut = s.lut) ∧
  (∀ s : State, s.halt = false → DictFrameWf s.inBytes →
    (∀ i k, i < k → k < frameCount s.inBytes → (frameSym s.inBytes i).toNat < (frameSym s.inBytes k).toNat) →
    ∃ t, execMany [.desDict, .serDict] s = some t ∧ t.res = 0 ∧ t.outBytes = s.inBytes) ∧
  (∀ s : State, s.halt = false → DictFrameWf s.inBytes →
    ∃ t, execMany [.desDict, .serDict] s = some t ∧ t.res = 0 ∧ DictFrameWf t.outBytes ∧
      frameCount t.outBytes = frameCount s.inBytes ∧
      (∀ i k, i < k → k < frameCount t.outBytes → (frameSym t.outBytes i).toNat < (frameSym t.outBytes k).toNat) ∧
      ∀ i < frameCount s.inBytes, ∃ k < frameCount t.outBytes,
        frameSym t.outBytes k = frameSym s.inBytes i ∧ frameCode t.outBytes k = frameCode s.inBytes i)

/-! ### Host data movement, ports, assembler -/

/-- R240: IN.CLR empties IN. -/
def Obligations.InClrEmptiesTheInput : Prop :=
  ∀ s : State, s.halt = false → exec .inClr s = .next { s with inBuf := [], res := 0 }

/-- R241: IN.PUSH stores its byte at address IN_LEN, the end of IN; every other address reads as before. -/
def Obligations.InPushAppendsOneByte : Prop :=
  ∀ (s : State) (imm8 : Byte), s.halt = false →
    ∃ m : Memory, exec (.inPush imm8) s = .next { s with inBuf := m, res := 0 } ∧
      m.bytes = s.inBytes ++ [imm8] ∧ m.length = s.inLen + 1 ∧
      (∀ addr, addr ≠ s.inLen → m.readByte addr = s.inBuf.readByte addr) ∧
      (s.inBuf.wf → m.wf ∧ m.readByte s.inLen = some imm8)

/-- R242: IO.XFER moves OUT into IN and empties OUT. -/
def Obligations.IoXferMovesTheOutput : Prop :=
  ∀ s : State, s.halt = false → exec .ioXfer s = .next { s with inBuf := s.outBuf, outBuf := [], res := 0 }

/-- R39: the scalar port's eleven numbers, and the OUT port for the addresses below OUT_LEN. That the OUT port has no
value at OUT_LEN and above is the model's choice (log entry 5, DESIGN CHOICE); R39 is silent there. -/
def Obligations.PortsShowTheRegisters : Prop :=
  ∀ s : State,
    s.readPort 0 = some s.res.toNat ∧ s.readPort 1 = some (if s.halt then 1 else 0) ∧
    s.readPort 2 = some s.hcause.toNat ∧ s.readPort 3 = some s.len ∧
    s.readPort 4 = some (if s.bit then 1 else 0) ∧ s.readPort 5 = some (if s.bitv then 1 else 0) ∧
    s.readPort 6 = some s.inBytes.length ∧ s.readPort 7 = some s.outBytes.length ∧
    s.readPort 8 = some s.acc.value.toNat ∧ s.readPort 9 = some s.acc.length.val ∧
    s.readPort 10 = some (allSymbols.countP (fun sym => (s.lut.get sym).isSome)) ∧
    (s.outBuf.wf → ∀ i, s.readOutPort i = s.outBytes[i]?)

/-- R96: the expansions of the five pseudo-instructions, and what they leave when executed. -/
def Obligations.PseudoInstructionsExpand : Prop :=
  ∀ s : State, s.halt = false →
    (∀ bytes, (Pseudo.inBytes bytes).expand = some (.inClr :: bytes.map .inPush) ∧
      ∃ m : Memory, execMany (.inClr :: bytes.map .inPush) s = some { s with inBuf := m, res := 0 } ∧ m.Holds bytes) ∧
    (∀ text bytes, text.mapM asciiCode = some bytes →
      (Pseudo.inStr text).expand = some (.inClr :: bytes.map .inPush) ∧
      ∃ m : Memory, execMany (.inClr :: bytes.map .inPush) s = some { s with inBuf := m, res := 0 } ∧ m.Holds bytes) ∧
    (∀ bits : Bits, bits.length ≤ 8 → (Pseudo.accBits bits).expand = some (.accClr :: bits.map .accAppb) ∧
      execMany (.accClr :: bits.map .accAppb) s = some { s with acc := accOfBits bits, res := 0 }) ∧
    (∀ vd bits, (Pseudo.bvBits vd bits).expand = some (.bvClr vd :: bits.map (.bvAppb vd)) ∧
      execMany (.bvClr vd :: bits.map (.bvAppb vd)) s = some { s.setV vd (pack bits) with res := 0 }) ∧
    (∀ vd vs, vd ≠ vs → (Pseudo.bvCopy vd vs).expand = some [.bvClr vd, .bvAppv vd vs] ∧
      ((s.getV vs).Canonical →
        execMany [.bvClr vd, .bvAppv vd vs] s = some { s.setV vd (s.getV vs) with res := 0 }))
end

