-- ==== Sys2Proof/Laws/Bits.lean ====
section
/-! SUPPORT. The laws of the operand forms: what each append does to the bit sequence, that it keeps accumulators and
vectors canonical, and that `pack` is the only canonical vector with a given bit sequence (R13, R112, R130, R139). -/

namespace Sys2Proof.Machine

/-! ### Bytes bit by bit -/

theorem bitShifted_getLsbD (b : Bool) {k : Nat} (hk : k < 8) (j : Nat) :
    (bitShifted b k).getLsbD j = (b && decide (j = k)) := by
  by_cases hj : j < 8
  · have : ∀ (b : Bool) (k j : Fin 8), (bitShifted b k.val).getLsbD j.val = (b && decide (j.val = k.val)) := by decide
    exact this b ⟨k, hk⟩ ⟨j, hj⟩
  · rw [BitVec.getLsbD_of_ge _ _ (by omega)]
    simp [show j ≠ k by omega]

/-- The low bits of a byte are zero exactly when each of them is. -/
theorem lowBitsZero_iff (v : Byte) (n : Nat) :
    lowBitsZero v n = true ↔ ∀ j, j + n < 8 → v.getLsbD j = false := by
  rw [lowBitsZero, beq_iff_eq]
  constructor
  · intro h j hj
    have h2 : (v <<< n).getLsbD (j + n) = false := by rw [h]; exact BitVec.getLsbD_zero
    rw [BitVec.getLsbD_shiftLeft, decide_eq_true hj, decide_eq_false (by omega), Nat.add_sub_cancel] at h2
    simpa only [Bool.not_false, Bool.true_and] using h2
  · intro h
    apply BitVec.eq_of_getLsbD_eq
    intro i hi
    rw [BitVec.getLsbD_shiftLeft]
    by_cases hn : i < n
    · simp [hn]
    · have := h (i - n) (by omega)
      simp [this]

@[simp] theorem Acc.bits_length (a : Acc) : a.bits.length = a.length.val := by simp [Acc.bits]

@[simp] theorem byteBits_length (b : Byte) : (byteBits b).length = 8 := by simp [byteBits]

theorem Acc.bits_full (b : Byte) : (⟨b, 8⟩ : Acc).bits = byteBits b := rfl

theorem Acc.bits_getElem? (a : Acc) (i : Nat) :
    a.bits[i]? = if i < a.length.val then some (a.value.getLsbD (7 - i)) else none := by
  rw [Acc.bits, List.getElem?_map]
  split
  · next h => rw [List.getElem?_range h]; rfl
  · next h => rw [List.getElem?_eq_none (by simpa using h)]; rfl

theorem byteBits_getElem? (b : Byte) (i : Nat) :
    (byteBits b)[i]? = if i < 8 then some (b.getLsbD (7 - i)) else none := Acc.bits_getElem? ⟨b, 8⟩ i

theorem byteBits_injective {a b : Byte} (h : byteBits a = byteBits b) : a = b := by
  apply BitVec.eq_of_getLsbD_eq
  intro i hi
  have := congrArg (fun l => l[7 - i]?) h
  simp only [byteBits_getElem?, show 7 - i < 8 by omega, if_true, show 7 - (7 - i) = i by omega] at this
  exact Option.some.inj this

/-- A canonical accumulator is determined by its bits. -/
theorem Acc.eq_of_bits {a b : Acc} (ha : a.Canonical) (hb : b.Canonical) (h : a.bits = b.bits) : a = b := by
  have hl : a.length = b.length := by
    have := congrArg List.length h
    rw [Acc.bits_length, Acc.bits_length] at this
    exact Fin.ext this
  have hv : a.value = b.value := by
    apply BitVec.eq_of_getLsbD_eq
    intro j hj
    by_cases hjl : j + a.length.val < 8
    · rw [(lowBitsZero_iff _ _).1 ha j hjl, (lowBitsZero_iff _ _).1 hb j (hl ▸ hjl)]
    · have := congrArg (fun l => l[7 - j]?) h
      simp only [Acc.bits_getElem?, ← hl, show 7 - j < a.length.val by omega, if_true,
        show 7 - (7 - j) = j by omega] at this
      exact Option.some.inj this
  cases a; cases b; simp_all

theorem Acc.canonical_empty : Acc.empty.Canonical := rfl
@[simp] theorem Acc.bits_empty : Acc.empty.bits = [] := rfl
theorem BitVector.canonical_empty : BitVector.empty.Canonical := by decide
@[simp] theorem BitVector.bits_empty : BitVector.empty.bits = [] := rfl

/-- A full byte is a canonical accumulator of 8 bits. -/
theorem Acc.canonical_full (b : Byte) : (⟨b, 8⟩ : Acc).Canonical :=
  (lowBitsZero_iff _ _).2 (fun _ h => absurd h (by simp))

/-! ### Lengths -/

theorem flatMap_byteBits_length (bs : List Byte) : (bs.flatMap byteBits).length = 8 * bs.length := by
  induction bs with
  | nil => rfl
  | cons b bs ih => rw [List.flatMap_cons, List.length_append, ih, byteBits_length, List.length_cons]; omega

/-- The logical length is the number of bits (R23, R142). -/
theorem BitVector.bits_length (x : BitVector) : x.bits.length = x.bitLength := by
  rw [BitVector.bits, List.length_append, flatMap_byteBits_length, Acc.bits_length, BitVector.bitLength]

/-! ### Appending one bit -/

/-- Below 8 bits the bit lands at the most significant free position (R111). -/
theorem Acc.appendBit_of_lt (a : Acc) (b : Bool) (h : a.length.val < 8) :
    a.appendBit b =
      some ⟨a.value ||| bitShifted b (7 - a.length.val), ⟨a.length.val + 1, by omega⟩⟩ := dif_pos h

/-- At 8 bits there is no free position (R111). -/
theorem Acc.appendBit_of_full (a : Acc) (b : Bool) (h : a.length.val = 8) : a.appendBit b = none :=
  dif_neg (by show ¬ a.length.val < 8; omega)

/-- The law of the accumulator's append (R112), for the accumulator with the bit set and one more bit. -/
theorem Acc.bits_pushed {v : Byte} {n : Nat} (hn : n < 8) (hc : lowBitsZero v n = true) (b : Bool) :
    (⟨v ||| bitShifted b (7 - n), ⟨n + 1, by omega⟩⟩ : Acc).bits = (⟨v, ⟨n, by omega⟩⟩ : Acc).bits ++ [b] := by
  apply List.ext_getElem?
  intro i
  rw [Acc.bits_getElem?, List.getElem?_append, Acc.bits_length, Acc.bits_getElem?]
  simp only [BitVec.getLsbD_or, bitShifted_getLsbD b (show 7 - n < 8 by omega)]
  by_cases h1 : i < n
  · simp [h1, show i < n + 1 by omega, show ¬ 7 - i = 7 - n by omega]
  · by_cases h2 : i = n
    · subst h2
      have : v.getLsbD (7 - i) = false := (lowBitsZero_iff _ _).1 hc _ (by omega)
      simp [this]
    · rw [if_neg (by omega), if_neg h1, List.getElem?_eq_none (by simp; omega)]

theorem lowBitsZero_pushed {v : Byte} {n : Nat} (hn : n < 8) (hc : lowBitsZero v n = true) (b : Bool) :
    lowBitsZero (v ||| bitShifted b (7 - n)) (n + 1) = true := by
  rw [lowBitsZero_iff] at *
  intro j hj
  rw [BitVec.getLsbD_or, bitShifted_getLsbD b (by omega), hc j (by omega)]
  simp [show j ≠ 7 - n by omega]

/-- R112: a successful append adds the bit at the end and keeps the accumulator canonical. -/
theorem Acc.appendBit_bits {a a' : Acc} {b : Bool} (hc : a.Canonical) (h : a.appendBit b = some a') :
    a'.bits = a.bits ++ [b] ∧ a'.Canonical ∧ a'.length.val = a.length.val + 1 := by
  by_cases hl : a.length.val < 8
  · rw [Acc.appendBit_of_lt a b hl] at h
    cases h
    exact ⟨Acc.bits_pushed hl hc b, lowBitsZero_pushed hl hc b, rfl⟩
  · rw [Acc.appendBit_of_full a b (by omega)] at h
    cases h

/-- R130 for BV.APPB: the bit is added at the end and the vector stays canonical. -/
theorem BitVector.appendBit_bits {x : BitVector} (hx : x.Canonical) (b : Bool) :
    (x.appendBit b).bits = x.bits ++ [b] ∧ (x.appendBit b).Canonical := by
  obtain ⟨bs, v, n, hn⟩ := x
  obtain ⟨hc, hl⟩ := hx
  simp only [Acc.Canonical] at hc hl
  have key := Acc.bits_pushed hl hc b
  by_cases h7 : n < 7
  · simp only [BitVector.appendBit, h7, dif_pos]
    refine ⟨?_, lowBitsZero_pushed hl hc b, ?_⟩
    · simp only [BitVector.bits, List.append_assoc]; rw [key]
    · show n + 1 < 8; omega
  · have : n = 7 := by omega
    subst this
    refine ⟨?_, BitVector.canonical_empty.1, (by decide : (0 : Nat) < 8)⟩
    show (bs ++ [v ||| bitShifted b (7 - 7)]).flatMap byteBits ++ Acc.empty.bits = _
    rw [List.flatMap_append, Acc.bits_empty, List.append_nil, List.flatMap_singleton,
      ← Acc.bits_full, BitVector.bits, List.append_assoc]
    exact congrArg (bs.flatMap byteBits ++ ·) key

/-! ### Appending an accumulator and a vector -/

theorem merged_getLsbD (v w : Byte) (j i : Nat) :
    (v ||| (w >>> j)).getLsbD i = (v.getLsbD i || w.getLsbD (j + i)) := by
  rw [BitVec.getLsbD_or, BitVec.getLsbD_ushiftRight]

/-- The tail and the accumulator together, while they do not fill a byte (R136, first branch). -/
theorem Acc.bits_merged {v w : Byte} {j k : Nat} (hjk : j + k < 9) (hv : lowBitsZero v j = true) :
    (⟨v ||| (w >>> j), ⟨j + k, hjk⟩⟩ : Acc).bits =
      (⟨v, ⟨j, by omega⟩⟩ : Acc).bits ++ (⟨w, ⟨k, by omega⟩⟩ : Acc).bits := by
  apply List.ext_getElem?
  intro i
  rw [Acc.bits_getElem?, List.getElem?_append, Acc.bits_length, Acc.bits_getElem?, Acc.bits_getElem?]
  simp only [merged_getLsbD]
  by_cases h1 : i < j
  · have : w.getLsbD (j + (7 - i)) = false := BitVec.getLsbD_of_ge _ _ (by omega)
    simp [h1, this, show i < j + k by omega]
  · by_cases h2 : i < j + k
    · have : v.getLsbD (7 - i) = false := (lowBitsZero_iff _ _).1 hv _ (by omega)
      simp [h1, h2, this, show i - j < k by omega, show j + (7 - i) = 7 - (i - j) by omega]
    · simp [h1, h2, show ¬ i - j < k by omega]

/-- The flushed byte and the new tail, when tail and accumulator fill a byte (R136, second branch). -/
theorem Acc.bits_flushed {v w : Byte} {j k : Nat} (hj : j < 8) (hk : k < 9) (hjk : 8 ≤ j + k)
    (hv : lowBitsZero v j = true) :
    byteBits (v ||| (w >>> j)) ++ (⟨w <<< (8 - j), ⟨j + k - 8, by omega⟩⟩ : Acc).bits =
      (⟨v, ⟨j, by omega⟩⟩ : Acc).bits ++ (⟨w, ⟨k, hk⟩⟩ : Acc).bits := by
  apply List.ext_getElem?
  intro i
  rw [List.getElem?_append, List.getElem?_append, byteBits_getElem?, byteBits_length, Acc.bits_getElem?,
    Acc.bits_length, Acc.bits_getElem?, Acc.bits_getElem?]
  simp only [merged_getLsbD, BitVec.getLsbD_shiftLeft]
  by_cases h1 : i < j
  · have : w.getLsbD (j + (7 - i)) = false := BitVec.getLsbD_of_ge _ _ (by omega)
    simp [h1, this, show i < 8 by omega]
  · by_cases h2 : i < 8
    · have : v.getLsbD (7 - i) = false := (lowBitsZero_iff _ _).1 hv _ (by omega)
      simp [h1, h2, this, show i - j < k by omega, show j + (7 - i) = 7 - (i - j) by omega]
    · by_cases h3 : i < j + k
      · simp [h1, h2, show i - 8 < j + k - 8 by omega, show i - j < k by omega, show 7 - (i - 8) < 8 by omega,
          show ¬ 7 - (i - 8) < 8 - j by omega, show 7 - (i - 8) - (8 - j) = 7 - (i - j) by omega]
      · simp [h1, h2, show ¬ i - 8 < j + k - 8 by omega, show ¬ i - j < k by omega]

theorem lowBitsZero_merged {v w : Byte} {j k : Nat} (hv : lowBitsZero v j = true) (hw : lowBitsZero w k = true) :
    lowBitsZero (v ||| (w >>> j)) (j + k) = true := by
  rw [lowBitsZero_iff] at *
  intro i hi
  rw [merged_getLsbD, hv i (by omega), hw (j + i) (by omega)]
  rfl

theorem lowBitsZero_shifted {w : Byte} {j k : Nat} (hw : lowBitsZero w k = true) (hjk : 8 ≤ j + k) (hj : j < 8) :
    lowBitsZero (w <<< (8 - j)) (j + k - 8) = true := by
  rw [lowBitsZero_iff] at *
  intro i hi
  rw [BitVec.getLsbD_shiftLeft]
  by_cases h : i < 8 - j
  · simp [h]
  · simp [hw (i - (8 - j)) (by omega)]

/-- R130 for BV.APPA: the accumulator's bits are added at the end, whatever the alignment. -/
theorem BitVector.appendAcc_bits {x : BitVector} {a : Acc} (hx : x.Canonical) (ha : a.Canonical) :
    (x.appendAcc a).bits = x.bits ++ a.bits ∧ (x.appendAcc a).Canonical := by
  obtain ⟨bs, v, j, hj9⟩ := x
  obtain ⟨w, k, hk9⟩ := a
  obtain ⟨hv, hj⟩ := hx
  simp only [Acc.Canonical] at hv hj ha
  by_cases hjk : j + k < 8
  · simp only [BitVector.appendAcc, hjk, dif_pos]
    refine ⟨?_, lowBitsZero_merged hv ha, hjk⟩
    simp only [BitVector.bits, List.append_assoc]
    rw [Acc.bits_merged (by omega) hv]
  · have key := Acc.bits_flushed (w := w) hj hk9 (by omega) hv
    by_cases hj0 : j = 0
    · subst hj0
      have hk : k = 8 := by omega
      subst hk
      refine ⟨?_, BitVector.canonical_empty.1, (by decide : (0 : Nat) < 8)⟩
      show (bs ++ [v ||| (w >>> 0)]).flatMap byteBits ++ Acc.empty.bits = _
      rw [List.flatMap_append, Acc.bits_empty, List.append_nil, List.flatMap_singleton, BitVector.bits,
        List.append_assoc]
      refine congrArg (bs.flatMap byteBits ++ ·) ?_
      rw [← key]
      exact (List.append_nil _).symm
    · have e : (⟨bs, v, j, hj9⟩ : BitVector).appendAcc ⟨w, k, hk9⟩ =
          ⟨bs ++ [v ||| (w >>> j)], w <<< (8 - j), j + k - 8, by omega⟩ := by
        simp only [BitVector.appendAcc, hjk, hj0]; rfl
      rw [e]
      refine ⟨?_, lowBitsZero_shifted ha (by omega) hj, ?_⟩
      · simp only [BitVector.bits, List.flatMap_append, List.flatMap_singleton, List.append_assoc]
        rw [key]
      · show j + k - 8 < 8; omega

theorem foldl_appendAcc_bits (bs : List Byte) {x : BitVector} (hx : x.Canonical) :
    (bs.foldl (fun y byte => y.appendAcc ⟨byte, 8⟩) x).bits = x.bits ++ bs.flatMap byteBits ∧
      (bs.foldl (fun y byte => y.appendAcc ⟨byte, 8⟩) x).Canonical := by
  induction bs generalizing x with
  | nil => exact ⟨by simp, hx⟩
  | cons b bs ih =>
    have h1 := BitVector.appendAcc_bits hx (Acc.canonical_full b)
    have h2 := ih h1.2
    refine ⟨?_, h2.2⟩
    rw [List.foldl_cons, h2.1, h1.1, List.flatMap_cons, Acc.bits_full, List.append_assoc]

/-- R139: appending a vector is concatenation of the bit sequences. -/
theorem BitVector.appendVector_bits {x o : BitVector} (hx : x.Canonical) (ho : o.Canonical) :
    (x.appendVector o).bits = x.bits ++ o.bits ∧ (x.appendVector o).Canonical := by
  have h1 := foldl_appendAcc_bits o.completeBytes hx
  have h2 := BitVector.appendAcc_bits h1.2 ho.1
  refine ⟨?_, h2.2⟩
  rw [BitVector.appendVector, h2.1, h1.1, BitVector.bits, BitVector.bits, List.append_assoc, List.append_assoc]

/-! ### Packing -/

theorem byteFrom_getLsbD (l : Bits) {k : Nat} (hk : k < 8) (hl : l.length ≤ k + 1) (j : Nat) :
    (byteFrom k l).getLsbD j = if j ≤ k then (l[k - j]?).getD false else false := by
  induction l generalizing k with
  | nil => simp [byteFrom]
  | cons b bs ih =>
    rw [byteFrom, BitVec.getLsbD_or, bitShifted_getLsbD b hk]
    simp only [List.length_cons] at hl
    by_cases hk0 : k = 0
    · subst hk0
      have : bs = [] := List.eq_nil_of_length_eq_zero (by omega)
      subst this
      by_cases hj : j = 0 <;> simp [byteFrom, hj]
    · rw [ih (by omega) (by omega)]
      by_cases hjk : j = k
      · subst hjk; simp [show ¬ j ≤ j - 1 by omega]
      · by_cases hle : j ≤ k
        · simp [hjk, hle, show j ≤ k - 1 by omega, show k - j = (k - 1 - j) + 1 by omega]
        · simp [hjk, hle, show ¬ j ≤ k - 1 by omega]

/-- R13: `acc(L)` spells L and is canonical. -/
theorem accOfBits_spec {l : Bits} (h : l.length ≤ 8) : (accOfBits l).bits = l ∧ (accOfBits l).Canonical := by
  have ht : l.take 8 = l := List.take_of_length_le h
  constructor
  · apply List.ext_getElem?
    intro i
    rw [Acc.bits_getElem?]
    simp only [accOfBits, ht, show min l.length 8 = l.length by omega]
    by_cases hi : i < l.length
    · rw [if_pos hi, byteFrom_getLsbD l (by omega) (by omega)]
      simp [show 7 - (7 - i) = i by omega, hi]
    · rw [if_neg hi, List.getElem?_eq_none (by omega)]
  · rw [Acc.Canonical, lowBitsZero_iff]
    intro j hj
    simp only [accOfBits, ht, show min l.length 8 = l.length by omega] at hj ⊢
    rw [byteFrom_getLsbD l (by omega) (by omega), List.getElem?_eq_none (by omega)]
    simp

theorem accOfBits_length {l : Bits} (h : l.length ≤ 8) : (accOfBits l).length.val = l.length := by
  simp only [accOfBits]; omega

theorem byteBits_byteFrom {l : Bits} (h : l.length = 8) : byteBits (byteFrom 7 l) = l := by
  have h1 := (accOfBits_spec (l := l) (by omega)).1
  have h2 : (accOfBits l) = ⟨byteFrom 7 l, 8⟩ := by
    simp only [accOfBits, List.take_of_length_le (show l.length ≤ 8 by omega)]
    congr 1
    exact Fin.ext (by simp [h])
  rw [h2] at h1
  exact h1

theorem pack_short {l : Bits} (h : l.length < 8) : pack l = ⟨[], accOfBits l⟩ := by
  unfold pack
  split
  · simp at h
    omega
  · rfl

/-- R13: `pack(L)` spells L and is canonical. -/
theorem pack_spec (l : Bits) : (pack l).bits = l ∧ (pack l).Canonical := by
  induction l using pack.induct with
  | case1 b7 b6 b5 b4 b3 b2 b1 b0 rest ih =>
    refine ⟨?_, ih.2⟩
    rw [pack, BitVector.bits, List.flatMap_cons, byteBits_byteFrom rfl, List.append_assoc]
    exact congrArg ([b7, b6, b5, b4, b3, b2, b1, b0] ++ ·) ih.1
  | case2 short h =>
    have hs : short.length < 8 := by
      match short, h with
      | [], _ => simp
      | [_], _ => simp
      | [_, _], _ => simp
      | [_, _, _], _ => simp
      | [_, _, _, _], _ => simp
      | [_, _, _, _, _], _ => simp
      | [_, _, _, _, _, _], _ => simp
      | [_, _, _, _, _, _, _], _ => simp
      | a :: b :: c :: d :: e :: f :: g :: i :: r, h => exact absurd rfl (h a b c d e f g i r)
    rw [pack_short hs]
    have := accOfBits_spec (l := short) (by omega)
    refine ⟨?_, this.2, ?_⟩
    · simpa [BitVector.bits] using this.1
    · simpa [accOfBits_length (show short.length ≤ 8 by omega)] using hs

@[simp] theorem pack_bits (l : Bits) : (pack l).bits = l := (pack_spec l).1

theorem pack_canonical (l : Bits) : (pack l).Canonical := (pack_spec l).2

/-- R13: a canonical vector is determined by its bit sequence. -/
theorem BitVector.eq_of_bits {x y : BitVector} (hx : x.Canonical) (hy : y.Canonical) (h : x.bits = y.bits) : x = y := by
  obtain ⟨bs, a⟩ := x
  obtain ⟨cs, b⟩ := y
  obtain ⟨ha, hla⟩ := hx
  obtain ⟨hb, hlb⟩ := hy
  simp only at ha hb hla hlb
  induction bs generalizing cs with
  | nil =>
    cases cs with
    | nil =>
      simp only [BitVector.bits, List.flatMap_nil, List.nil_append] at h
      rw [Acc.eq_of_bits ha hb h]
    | cons c cs =>
      have := congrArg List.length h
      rw [BitVector.bits_length, BitVector.bits_length] at this
      simp only [BitVector.bitLength, List.length_nil, List.length_cons] at this
      omega
  | cons x xs ih =>
    cases cs with
    | nil =>
      have := congrArg List.length h
      rw [BitVector.bits_length, BitVector.bits_length] at this
      simp only [BitVector.bitLength, List.length_nil, List.length_cons] at this
      omega
    | cons c cs =>
      simp only [BitVector.bits, List.flatMap_cons, List.append_assoc] at h
      have hs := List.append_inj h (by simp)
      have hx := byteBits_injective hs.1
      have := ih cs hs.2
      simp only [BitVector.mk.injEq] at this ⊢
      exact ⟨by rw [hx, this.1], this.2⟩

theorem pack_bits_of_canonical {x : BitVector} (hx : x.Canonical) : pack x.bits = x :=
  BitVector.eq_of_bits (pack_canonical _) hx (pack_bits _)

theorem BitVector.eq_pack {x : BitVector} (hx : x.Canonical) {l : Bits} (h : x.bits = l) : x = pack l := by
  rw [← h, pack_bits_of_canonical hx]

/-! ### Text -/

@[simp] theorem bitOfChar_charOfBit (b : Bool) : bitOfChar (charOfBit b) = some b := by cases b <;> decide

theorem bitOfChar_eq_none_iff (c : Byte) : bitOfChar c = none ↔ c ≠ 0x30 ∧ c ≠ 0x31 := by
  unfold bitOfChar
  split
  · next h => simp [h]
  · split
    · next h => simp [h]
    · next h h' => exact ⟨fun _ => ⟨h, h'⟩, fun _ => rfl⟩

theorem charOfBit_of_bitOfChar {c : Byte} {b : Bool} (h : bitOfChar c = some b) : charOfBit b = c := by
  unfold bitOfChar at h
  split at h
  · next hc => cases h; exact hc.symm
  · split at h
    · next hc => cases h; exact hc.symm
    · cases h

/-- The vector's parse loop: the bits of the text are appended, one bad character anywhere is a FormatError (R144). -/
theorem parseVectorFrom_spec (text : List Byte) {x : BitVector} (hx : x.Canonical) :
    parseVectorFrom x text =
      match text.mapM bitOfChar with
      | some l => .ok (pack (x.bits ++ l))
      | none => .error .format := by
  induction text generalizing x with
  | nil => simp [parseVectorFrom, pack_bits_of_canonical hx]
  | cons c cs ih =>
    rw [parseVectorFrom, List.mapM_cons]
    cases hc : bitOfChar c with
    | none => rfl
    | some b =>
      have hb := BitVector.appendBit_bits hx b
      simp only [ih hb.2]
      cases hm : cs.mapM bitOfChar with
      | none => rfl
      | some l => simp [hb.1]

/-- What the accumulator's parse loop answers, by the first character that is not binary or does not fit (R113,
R114). -/
theorem parseAccFrom_spec (text : List Byte) {a : Acc} (ha : a.Canonical) :
    (∀ l, text.mapM bitOfChar = some l → a.length.val + l.length ≤ 8 →
      parseAccFrom a text = .ok (accOfBits (a.bits ++ l))) ∧
    (∀ good l c rest, text = good ++ c :: rest → good.mapM bitOfChar = some l → a.length.val + l.length ≤ 8 →
      bitOfChar c = none → parseAccFrom a text = .error .format) ∧
    (∀ nine l rest, text = nine ++ rest → nine.mapM bitOfChar = some l → a.length.val + l.length = 9 →
      parseAccFrom a text = .error .logic) := by
  induction text generalizing a with
  | nil =>
    refine ⟨?_, ?_, ?_⟩
    · intro l h hl
      simp at h; subst h
      rw [parseAccFrom, List.append_nil]
      congr 1
      have := accOfBits_spec (l := a.bits) (by rw [Acc.bits_length]; omega)
      exact Acc.eq_of_bits ha this.2 this.1.symm
    · intro good l c rest h; simp at h
    · intro nine l rest h h1 h2
      have : nine = [] := by cases nine <;> simp_all
      subst this; simp at h1; subst h1; simp at h2; omega
  | cons c cs ih =>
    rw [parseAccFrom]
    cases hc : bitOfChar c with
    | none =>
      refine ⟨?_, fun _ _ _ _ _ _ _ _ => rfl, ?_⟩
      · intro l h; simp [List.mapM_cons, hc] at h
      · intro nine l rest h h1 h2
        cases nine with
        | nil => simp at h1; subst h1; simp at h2; omega
        | cons d nine => simp at h; obtain ⟨rfl, _⟩ := h; simp [List.mapM_cons, hc] at h1
    | some b =>
      by_cases hl : a.length.val < 8
      · have h1 := Acc.appendBit_of_lt a b hl
        have h2 := Acc.appendBit_bits ha h1
        simp only [h1]
        have ih := ih h2.2.1
        have hlen := h2.2.2
        generalize (⟨a.value ||| bitShifted b (7 - a.length.val), ⟨a.length.val + 1, by omega⟩⟩ : Acc) = a' at *
        refine ⟨?_, ?_, ?_⟩
        · intro l h hle
          rw [List.mapM_cons, hc] at h
          cases hm : cs.mapM bitOfChar with
          | none => simp [hm] at h
          | some l' =>
            simp [hm] at h; subst h
            rw [ih.1 l' hm (by simp at hle; omega), h2.1]; simp
        · intro good l d rest h hg hle hd
          cases good with
          | nil => simp at h; rw [← h.1, hc] at hd; cases hd
          | cons g good =>
            simp at h; obtain ⟨rfl, rfl⟩ := h
            rw [List.mapM_cons, hc] at hg
            cases hm : good.mapM bitOfChar with
            | none => simp [hm] at hg
            | some l' => simp [hm] at hg; subst hg; exact ih.2.1 good l' d rest rfl hm (by simp at hle; omega) hd
        · intro nine l rest h hg hle
          cases nine with
          | nil => simp at hg; subst hg; simp at hle; omega
          | cons g good =>
            simp at h; obtain ⟨rfl, rfl⟩ := h
            rw [List.mapM_cons, hc] at hg
            cases hm : good.mapM bitOfChar with
            | none => simp [hm] at hg
            | some l' => simp [hm] at hg; subst hg; exact ih.2.2 good l' rest rfl hm (by simp at hle; omega)
      · simp only [Acc.appendBit_of_full a b (by omega)]
        refine ⟨?_, ?_, fun _ _ _ _ _ _ => trivial⟩
        · intro l h hle
          rw [List.mapM_cons, hc] at h
          cases hm : cs.mapM bitOfChar with
          | none => simp [hm] at h
          | some l' => simp [hm] at h; subst h; simp at hle; omega
        · intro good l d rest h hg hle hd
          cases good with
          | nil => simp at h; rw [← h.1, hc] at hd; cases hd
          | cons g good =>
            simp at h; obtain ⟨rfl, rfl⟩ := h
            rw [List.mapM_cons, hc] at hg
            cases hm : good.mapM bitOfChar with
            | none => simp [hm] at hg
            | some l' => simp [hm] at hg; subst hg; simp at hle; omega

end Sys2Proof.Machine
end

