-- ==== Sys2Proof/Laws/State.lean ====
section
/-! SUPPORT. One lemma per field per update of the state, so that no later proof unfolds a record update. -/

namespace Sys2Proof.Machine

variable (s : State)

/-! ### State.setV -/

@[simp] theorem State.setV_acc (r : VReg) (x : BitVector) : (s.setV r x).acc = s.acc := rfl
@[simp] theorem State.setV_v (r : VReg) (x : BitVector) : (s.setV r x).v = s.v.set r.val x r.isLt := rfl
@[simp] theorem State.setV_lut (r : VReg) (x : BitVector) : (s.setV r x).lut = s.lut := rfl
@[simp] theorem State.setV_inBuf (r : VReg) (x : BitVector) : (s.setV r x).inBuf = s.inBuf := rfl
@[simp] theorem State.setV_outBuf (r : VReg) (x : BitVector) : (s.setV r x).outBuf = s.outBuf := rfl
@[simp] theorem State.setV_len (r : VReg) (x : BitVector) : (s.setV r x).len = s.len := rfl
@[simp] theorem State.setV_itRem (r : VReg) (x : BitVector) : (s.setV r x).itRem = s.itRem := rfl
@[simp] theorem State.setV_bit (r : VReg) (x : BitVector) : (s.setV r x).bit = s.bit := rfl
@[simp] theorem State.setV_bitv (r : VReg) (x : BitVector) : (s.setV r x).bitv = s.bitv := rfl
@[simp] theorem State.setV_res (r : VReg) (x : BitVector) : (s.setV r x).res = s.res := rfl
@[simp] theorem State.setV_halt (r : VReg) (x : BitVector) : (s.setV r x).halt = s.halt := rfl
@[simp] theorem State.setV_hcause (r : VReg) (x : BitVector) : (s.setV r x).hcause = s.hcause := rfl
@[simp] theorem State.setV_pending (r : VReg) (x : BitVector) : (s.setV r x).pending = s.pending := rfl

/-! ### State.setAcc -/

@[simp] theorem State.setAcc_acc (a : Acc) : (s.setAcc a).acc = a := rfl
@[simp] theorem State.setAcc_v (a : Acc) : (s.setAcc a).v = s.v := rfl
@[simp] theorem State.setAcc_lut (a : Acc) : (s.setAcc a).lut = s.lut := rfl
@[simp] theorem State.setAcc_inBuf (a : Acc) : (s.setAcc a).inBuf = s.inBuf := rfl
@[simp] theorem State.setAcc_outBuf (a : Acc) : (s.setAcc a).outBuf = s.outBuf := rfl
@[simp] theorem State.setAcc_len (a : Acc) : (s.setAcc a).len = s.len := rfl
@[simp] theorem State.setAcc_itRem (a : Acc) : (s.setAcc a).itRem = s.itRem := rfl
@[simp] theorem State.setAcc_bit (a : Acc) : (s.setAcc a).bit = s.bit := rfl
@[simp] theorem State.setAcc_bitv (a : Acc) : (s.setAcc a).bitv = s.bitv := rfl
@[simp] theorem State.setAcc_res (a : Acc) : (s.setAcc a).res = s.res := rfl
@[simp] theorem State.setAcc_halt (a : Acc) : (s.setAcc a).halt = s.halt := rfl
@[simp] theorem State.setAcc_hcause (a : Acc) : (s.setAcc a).hcause = s.hcause := rfl
@[simp] theorem State.setAcc_pending (a : Acc) : (s.setAcc a).pending = s.pending := rfl

/-! ### State.setLut -/

@[simp] theorem State.setLut_acc (t : Lut) : (s.setLut t).acc = s.acc := rfl
@[simp] theorem State.setLut_v (t : Lut) : (s.setLut t).v = s.v := rfl
@[simp] theorem State.setLut_lut (t : Lut) : (s.setLut t).lut = t := rfl
@[simp] theorem State.setLut_inBuf (t : Lut) : (s.setLut t).inBuf = s.inBuf := rfl
@[simp] theorem State.setLut_outBuf (t : Lut) : (s.setLut t).outBuf = s.outBuf := rfl
@[simp] theorem State.setLut_len (t : Lut) : (s.setLut t).len = s.len := rfl
@[simp] theorem State.setLut_itRem (t : Lut) : (s.setLut t).itRem = s.itRem := rfl
@[simp] theorem State.setLut_bit (t : Lut) : (s.setLut t).bit = s.bit := rfl
@[simp] theorem State.setLut_bitv (t : Lut) : (s.setLut t).bitv = s.bitv := rfl
@[simp] theorem State.setLut_res (t : Lut) : (s.setLut t).res = s.res := rfl
@[simp] theorem State.setLut_halt (t : Lut) : (s.setLut t).halt = s.halt := rfl
@[simp] theorem State.setLut_hcause (t : Lut) : (s.setLut t).hcause = s.hcause := rfl
@[simp] theorem State.setLut_pending (t : Lut) : (s.setLut t).pending = s.pending := rfl

/-! ### State.setIn -/

@[simp] theorem State.setIn_acc (m : Memory) : (s.setIn m).acc = s.acc := rfl
@[simp] theorem State.setIn_v (m : Memory) : (s.setIn m).v = s.v := rfl
@[simp] theorem State.setIn_lut (m : Memory) : (s.setIn m).lut = s.lut := rfl
@[simp] theorem State.setIn_inBuf (m : Memory) : (s.setIn m).inBuf = m := rfl
@[simp] theorem State.setIn_outBuf (m : Memory) : (s.setIn m).outBuf = s.outBuf := rfl
@[simp] theorem State.setIn_len (m : Memory) : (s.setIn m).len = s.len := rfl
@[simp] theorem State.setIn_itRem (m : Memory) : (s.setIn m).itRem = s.itRem := rfl
@[simp] theorem State.setIn_bit (m : Memory) : (s.setIn m).bit = s.bit := rfl
@[simp] theorem State.setIn_bitv (m : Memory) : (s.setIn m).bitv = s.bitv := rfl
@[simp] theorem State.setIn_res (m : Memory) : (s.setIn m).res = s.res := rfl
@[simp] theorem State.setIn_halt (m : Memory) : (s.setIn m).halt = s.halt := rfl
@[simp] theorem State.setIn_hcause (m : Memory) : (s.setIn m).hcause = s.hcause := rfl
@[simp] theorem State.setIn_pending (m : Memory) : (s.setIn m).pending = s.pending := rfl

/-! ### State.setOut -/

@[simp] theorem State.setOut_acc (m : Memory) : (s.setOut m).acc = s.acc := rfl
@[simp] theorem State.setOut_v (m : Memory) : (s.setOut m).v = s.v := rfl
@[simp] theorem State.setOut_lut (m : Memory) : (s.setOut m).lut = s.lut := rfl
@[simp] theorem State.setOut_inBuf (m : Memory) : (s.setOut m).inBuf = s.inBuf := rfl
@[simp] theorem State.setOut_outBuf (m : Memory) : (s.setOut m).outBuf = m := rfl
@[simp] theorem State.setOut_len (m : Memory) : (s.setOut m).len = s.len := rfl
@[simp] theorem State.setOut_itRem (m : Memory) : (s.setOut m).itRem = s.itRem := rfl
@[simp] theorem State.setOut_bit (m : Memory) : (s.setOut m).bit = s.bit := rfl
@[simp] theorem State.setOut_bitv (m : Memory) : (s.setOut m).bitv = s.bitv := rfl
@[simp] theorem State.setOut_res (m : Memory) : (s.setOut m).res = s.res := rfl
@[simp] theorem State.setOut_halt (m : Memory) : (s.setOut m).halt = s.halt := rfl
@[simp] theorem State.setOut_hcause (m : Memory) : (s.setOut m).hcause = s.hcause := rfl
@[simp] theorem State.setOut_pending (m : Memory) : (s.setOut m).pending = s.pending := rfl

/-! ### State.replaceOut -/

@[simp] theorem State.replaceOut_acc (bs : List Byte) : (s.replaceOut bs).acc = s.acc := rfl
@[simp] theorem State.replaceOut_v (bs : List Byte) : (s.replaceOut bs).v = s.v := rfl
@[simp] theorem State.replaceOut_lut (bs : List Byte) : (s.replaceOut bs).lut = s.lut := rfl
@[simp] theorem State.replaceOut_inBuf (bs : List Byte) : (s.replaceOut bs).inBuf = s.inBuf := rfl
@[simp] theorem State.replaceOut_outBuf (bs : List Byte) : (s.replaceOut bs).outBuf = Memory.ofBytes bs := rfl
@[simp] theorem State.replaceOut_len (bs : List Byte) : (s.replaceOut bs).len = s.len := rfl
@[simp] theorem State.replaceOut_itRem (bs : List Byte) : (s.replaceOut bs).itRem = s.itRem := rfl
@[simp] theorem State.replaceOut_bit (bs : List Byte) : (s.replaceOut bs).bit = s.bit := rfl
@[simp] theorem State.replaceOut_bitv (bs : List Byte) : (s.replaceOut bs).bitv = s.bitv := rfl
@[simp] theorem State.replaceOut_res (bs : List Byte) : (s.replaceOut bs).res = s.res := rfl
@[simp] theorem State.replaceOut_halt (bs : List Byte) : (s.replaceOut bs).halt = s.halt := rfl
@[simp] theorem State.replaceOut_hcause (bs : List Byte) : (s.replaceOut bs).hcause = s.hcause := rfl
@[simp] theorem State.replaceOut_pending (bs : List Byte) : (s.replaceOut bs).pending = s.pending := rfl

/-! ### State.setLen -/

@[simp] theorem State.setLen_acc (n : Nat) : (s.setLen n).acc = s.acc := rfl
@[simp] theorem State.setLen_v (n : Nat) : (s.setLen n).v = s.v := rfl
@[simp] theorem State.setLen_lut (n : Nat) : (s.setLen n).lut = s.lut := rfl
@[simp] theorem State.setLen_inBuf (n : Nat) : (s.setLen n).inBuf = s.inBuf := rfl
@[simp] theorem State.setLen_outBuf (n : Nat) : (s.setLen n).outBuf = s.outBuf := rfl
@[simp] theorem State.setLen_len (n : Nat) : (s.setLen n).len = n := rfl
@[simp] theorem State.setLen_itRem (n : Nat) : (s.setLen n).itRem = s.itRem := rfl
@[simp] theorem State.setLen_bit (n : Nat) : (s.setLen n).bit = s.bit := rfl
@[simp] theorem State.setLen_bitv (n : Nat) : (s.setLen n).bitv = s.bitv := rfl
@[simp] theorem State.setLen_res (n : Nat) : (s.setLen n).res = s.res := rfl
@[simp] theorem State.setLen_halt (n : Nat) : (s.setLen n).halt = s.halt := rfl
@[simp] theorem State.setLen_hcause (n : Nat) : (s.setLen n).hcause = s.hcause := rfl
@[simp] theorem State.setLen_pending (n : Nat) : (s.setLen n).pending = s.pending := rfl

/-! ### State.setIt -/

@[simp] theorem State.setIt_acc (l : Bits) : (s.setIt l).acc = s.acc := rfl
@[simp] theorem State.setIt_v (l : Bits) : (s.setIt l).v = s.v := rfl
@[simp] theorem State.setIt_lut (l : Bits) : (s.setIt l).lut = s.lut := rfl
@[simp] theorem State.setIt_inBuf (l : Bits) : (s.setIt l).inBuf = s.inBuf := rfl
@[simp] theorem State.setIt_outBuf (l : Bits) : (s.setIt l).outBuf = s.outBuf := rfl
@[simp] theorem State.setIt_len (l : Bits) : (s.setIt l).len = s.len := rfl
@[simp] theorem State.setIt_itRem (l : Bits) : (s.setIt l).itRem = l := rfl
@[simp] theorem State.setIt_bit (l : Bits) : (s.setIt l).bit = s.bit := rfl
@[simp] theorem State.setIt_bitv (l : Bits) : (s.setIt l).bitv = s.bitv := rfl
@[simp] theorem State.setIt_res (l : Bits) : (s.setIt l).res = s.res := rfl
@[simp] theorem State.setIt_halt (l : Bits) : (s.setIt l).halt = s.halt := rfl
@[simp] theorem State.setIt_hcause (l : Bits) : (s.setIt l).hcause = s.hcause := rfl
@[simp] theorem State.setIt_pending (l : Bits) : (s.setIt l).pending = s.pending := rfl

/-! ### State.setRes -/

@[simp] theorem State.setRes_acc (n : BitVec 4) : (s.setRes n).acc = s.acc := rfl
@[simp] theorem State.setRes_v (n : BitVec 4) : (s.setRes n).v = s.v := rfl
@[simp] theorem State.setRes_lut (n : BitVec 4) : (s.setRes n).lut = s.lut := rfl
@[simp] theorem State.setRes_inBuf (n : BitVec 4) : (s.setRes n).inBuf = s.inBuf := rfl
@[simp] theorem State.setRes_outBuf (n : BitVec 4) : (s.setRes n).outBuf = s.outBuf := rfl
@[simp] theorem State.setRes_len (n : BitVec 4) : (s.setRes n).len = s.len := rfl
@[simp] theorem State.setRes_itRem (n : BitVec 4) : (s.setRes n).itRem = s.itRem := rfl
@[simp] theorem State.setRes_bit (n : BitVec 4) : (s.setRes n).bit = s.bit := rfl
@[simp] theorem State.setRes_bitv (n : BitVec 4) : (s.setRes n).bitv = s.bitv := rfl
@[simp] theorem State.setRes_res (n : BitVec 4) : (s.setRes n).res = n := rfl
@[simp] theorem State.setRes_halt (n : BitVec 4) : (s.setRes n).halt = s.halt := rfl
@[simp] theorem State.setRes_hcause (n : BitVec 4) : (s.setRes n).hcause = s.hcause := rfl
@[simp] theorem State.setRes_pending (n : BitVec 4) : (s.setRes n).pending = s.pending := rfl

/-! ### State.clearIterFlags -/

@[simp] theorem State.clearIterFlags_acc : (s.clearIterFlags).acc = s.acc := rfl
@[simp] theorem State.clearIterFlags_v : (s.clearIterFlags).v = s.v := rfl
@[simp] theorem State.clearIterFlags_lut : (s.clearIterFlags).lut = s.lut := rfl
@[simp] theorem State.clearIterFlags_inBuf : (s.clearIterFlags).inBuf = s.inBuf := rfl
@[simp] theorem State.clearIterFlags_outBuf : (s.clearIterFlags).outBuf = s.outBuf := rfl
@[simp] theorem State.clearIterFlags_len : (s.clearIterFlags).len = s.len := rfl
@[simp] theorem State.clearIterFlags_itRem : (s.clearIterFlags).itRem = s.itRem := rfl
@[simp] theorem State.clearIterFlags_bit : (s.clearIterFlags).bit = false := rfl
@[simp] theorem State.clearIterFlags_bitv : (s.clearIterFlags).bitv = false := rfl
@[simp] theorem State.clearIterFlags_res : (s.clearIterFlags).res = s.res := rfl
@[simp] theorem State.clearIterFlags_halt : (s.clearIterFlags).halt = s.halt := rfl
@[simp] theorem State.clearIterFlags_hcause : (s.clearIterFlags).hcause = s.hcause := rfl
@[simp] theorem State.clearIterFlags_pending : (s.clearIterFlags).pending = s.pending := rfl

/-! ### State.setIterFlags -/

@[simp] theorem State.setIterFlags_bit (o : Option Bool) : (s.setIterFlags o).bit = o.getD false := by cases o <;> rfl
@[simp] theorem State.setIterFlags_bitv (o : Option Bool) : (s.setIterFlags o).bitv = o.isSome := by cases o <;> rfl
@[simp] theorem State.setIterFlags_acc (o : Option Bool) : (s.setIterFlags o).acc = s.acc := by cases o <;> rfl
@[simp] theorem State.setIterFlags_v (o : Option Bool) : (s.setIterFlags o).v = s.v := by cases o <;> rfl
@[simp] theorem State.setIterFlags_lut (o : Option Bool) : (s.setIterFlags o).lut = s.lut := by cases o <;> rfl
@[simp] theorem State.setIterFlags_inBuf (o : Option Bool) : (s.setIterFlags o).inBuf = s.inBuf := by cases o <;> rfl
@[simp] theorem State.setIterFlags_outBuf (o : Option Bool) : (s.setIterFlags o).outBuf = s.outBuf := by cases o <;> rfl
@[simp] theorem State.setIterFlags_len (o : Option Bool) : (s.setIterFlags o).len = s.len := by cases o <;> rfl
@[simp] theorem State.setIterFlags_itRem (o : Option Bool) : (s.setIterFlags o).itRem = s.itRem := by cases o <;> rfl
@[simp] theorem State.setIterFlags_res (o : Option Bool) : (s.setIterFlags o).res = s.res := by cases o <;> rfl
@[simp] theorem State.setIterFlags_halt (o : Option Bool) : (s.setIterFlags o).halt = s.halt := by cases o <;> rfl
@[simp] theorem State.setIterFlags_hcause (o : Option Bool) : (s.setIterFlags o).hcause = s.hcause := by cases o <;> rfl
@[simp] theorem State.setIterFlags_pending (o : Option Bool) : (s.setIterFlags o).pending = s.pending := by cases o <;> rfl

/-! ### State.raise -/

@[simp] theorem State.raise_res (e : Err) : (s.raise e).res = e.code := by cases e <;> rfl
@[simp] theorem State.raise_halt (e : Err) : (s.raise e).halt = (e.fatal || s.halt) := by cases e <;> rfl
@[simp] theorem State.raise_hcause (e : Err) : (s.raise e).hcause = if e.fatal then e.code else s.hcause := by
  cases e <;> rfl
@[simp] theorem State.raise_acc (e : Err) : (s.raise e).acc = s.acc := by cases e <;> rfl
@[simp] theorem State.raise_v (e : Err) : (s.raise e).v = s.v := by cases e <;> rfl
@[simp] theorem State.raise_lut (e : Err) : (s.raise e).lut = s.lut := by cases e <;> rfl
@[simp] theorem State.raise_inBuf (e : Err) : (s.raise e).inBuf = s.inBuf := by cases e <;> rfl
@[simp] theorem State.raise_outBuf (e : Err) : (s.raise e).outBuf = s.outBuf := by cases e <;> rfl
@[simp] theorem State.raise_len (e : Err) : (s.raise e).len = s.len := by cases e <;> rfl
@[simp] theorem State.raise_itRem (e : Err) : (s.raise e).itRem = s.itRem := by cases e <;> rfl
@[simp] theorem State.raise_bit (e : Err) : (s.raise e).bit = s.bit := by cases e <;> rfl
@[simp] theorem State.raise_bitv (e : Err) : (s.raise e).bitv = s.bitv := by cases e <;> rfl
@[simp] theorem State.raise_pending (e : Err) : (s.raise e).pending = s.pending := by cases e <;> rfl

/-! ### State.hostReset and State.issueNext -/

@[simp] theorem State.hostReset_pending : s.hostReset.pending = s.pending := rfl
@[simp] theorem State.hostReset_halt : s.hostReset.halt = false := rfl
@[simp] theorem State.hostReset_res : s.hostReset.res = 0 := rfl
@[simp] theorem State.hostReset_hcause : s.hostReset.hcause = 0 := rfl
@[simp] theorem State.issueNext_pending (w : Word) : (s.issueNext w).pending = .issue w :: s.pending := rfl
@[simp] theorem State.issueNext_halt (w : Word) : (s.issueNext w).halt = s.halt := rfl

/-! ### Reading a bit-vector register after a write -/

@[simp] theorem State.getV_setV_self (r : VReg) (x : BitVector) : (s.setV r x).getV r = x := by
  simp [State.getV, State.setV]

theorem State.getV_setV_other {r q : VReg} (h : q ≠ r) (x : BitVector) : (s.setV r x).getV q = s.getV q := by
  have : r.val ≠ q.val := fun e => h (Fin.ext e.symm)
  simp [State.getV, State.setV, Vector.getElem_set_ne, this]

theorem State.getV_setV (r q : VReg) (x : BitVector) : (s.setV r x).getV q = if q = r then x else s.getV q := by
  split
  · next h => subst h; exact s.getV_setV_self q x
  · next h => exact s.getV_setV_other h x

@[simp] theorem State.getV_setAcc (a : Acc) (r : VReg) : (s.setAcc a).getV r = s.getV r := rfl
@[simp] theorem State.getV_setLut (t : Lut) (r : VReg) : (s.setLut t).getV r = s.getV r := rfl
@[simp] theorem State.getV_setIn (m : Memory) (r : VReg) : (s.setIn m).getV r = s.getV r := rfl
@[simp] theorem State.getV_setOut (m : Memory) (r : VReg) : (s.setOut m).getV r = s.getV r := rfl
@[simp] theorem State.getV_replaceOut (bs : List Byte) (r : VReg) : (s.replaceOut bs).getV r = s.getV r := rfl
@[simp] theorem State.getV_setLen (n : Nat) (r : VReg) : (s.setLen n).getV r = s.getV r := rfl
@[simp] theorem State.getV_setIt (l : Bits) (r : VReg) : (s.setIt l).getV r = s.getV r := rfl
@[simp] theorem State.getV_clearIterFlags (r : VReg) : s.clearIterFlags.getV r = s.getV r := rfl
@[simp] theorem State.getV_setIterFlags (o : Option Bool) (r : VReg) : (s.setIterFlags o).getV r = s.getV r := by
  cases o <;> rfl
@[simp] theorem State.getV_setRes (n : BitVec 4) (r : VReg) : (s.setRes n).getV r = s.getV r := rfl
@[simp] theorem State.getV_raise (e : Err) (r : VReg) : (s.raise e).getV r = s.getV r := by cases e <;> rfl

/-- Writing a register with what it holds changes nothing. -/
theorem State.setV_getV (r : VReg) : s.setV r (s.getV r) = s := by
  have : s.v.set r.val (s.v[r.val]) r.isLt = s.v := by simp
  show { s with v := s.v.set r.val (s.v[r.val]) r.isLt } = s
  rw [this]

/-- Of two writes to one register the second stands. -/
theorem State.setV_setV (r : VReg) (x y : BitVector) : (s.setV r x).setV r y = s.setV r y := by
  have : (s.v.set r.val x r.isLt).set r.val y r.isLt = s.v.set r.val y r.isLt := by simp
  show { s with v := (s.v.set r.val x r.isLt).set r.val y r.isLt } = _
  rw [this]; rfl

end Sys2Proof.Machine
end

