-- ==== Sys2Proof/Laws/Lut.lean ====
section
/-! SUPPORT. The laws of the look-up table: reading after recording, its entries in ascending order of symbol, and the
table of a list of entries (R27, R220, R225). -/

namespace Sys2Proof.Machine

@[simp] theorem Lut.get_empty (sym : Byte) : Lut.empty.get sym = none := by simp [Lut.get, Lut.empty]

@[simp] theorem Lut.get_record_self (t : Lut) (sym : Byte) (c : Bits) : (t.record sym c).get sym = some c := by
  simp [Lut.get, Lut.record]

theorem Lut.get_record_other (t : Lut) {a b : Byte} (h : b ≠ a) (c : Bits) : (t.record a c).get b = t.get b := by
  have : a.toNat ≠ b.toNat := fun e => h (BitVec.eq_of_toNat_eq e.symm)
  simp [Lut.get, Lut.record, Vector.getElem_set_ne, this]

theorem Lut.get_record (t : Lut) (a b : Byte) (c : Bits) :
    (t.record a c).get b = if b = a then some c else t.get b := by
  split
  · next h => subst h; exact t.get_record_self b c
  · next h => exact t.get_record_other h c

/-- Two tables that agree on every symbol are equal. -/
theorem Lut.ext_get {t u : Lut} (h : ∀ sym, t.get sym = u.get sym) : t = u := by
  apply Vector.ext
  intro i hi
  have := h (BitVec.ofNat 8 i)
  simpa [Lut.get, Nat.mod_eq_of_lt hi] using this

theorem mem_allSymbols (sym : Byte) : sym ∈ allSymbols :=
  List.mem_map.2 ⟨sym.toNat, List.mem_range.2 sym.isLt, by simp⟩

theorem allSymbols_ascending : allSymbols.Pairwise (fun a b => a.toNat < b.toNat) := by
  rw [allSymbols, List.pairwise_map]
  refine List.Pairwise.imp_of_mem ?_ (List.pairwise_lt_range (n := 256))
  intro a b ha hb hab
  rw [List.mem_range] at ha hb
  simpa [Nat.mod_eq_of_lt ha, Nat.mod_eq_of_lt hb] using hab

theorem allSymbols_nodup : allSymbols.Nodup :=
  allSymbols_ascending.imp (fun h e => by rw [e] at h; exact Nat.lt_irrefl _ h)

theorem allSymbols_length : allSymbols.length = 256 := by simp [allSymbols]

/-- The entries are exactly the symbols that have a code, with their codes. -/
theorem Lut.mem_entries (t : Lut) (sym : Byte) (c : Bits) : (sym, c) ∈ t.entries ↔ t.get sym = some c := by
  rw [Lut.entries, List.mem_filterMap]
  constructor
  · rintro ⟨a, -, h⟩
    rw [Option.map_eq_some_iff] at h
    obtain ⟨d, hd, he⟩ := h
    cases he
    exact hd
  · intro h
    exact ⟨sym, mem_allSymbols sym, by rw [h]; rfl⟩

/-- The entries come in ascending order of symbol (R220). -/
theorem Lut.entries_ascending (t : Lut) : t.entries.Pairwise (fun d e => d.1.toNat < e.1.toNat) := by
  rw [Lut.entries, List.pairwise_filterMap]
  refine allSymbols_ascending.imp ?_
  intro a b hab d hd e he
  rw [Option.map_eq_some_iff] at hd he
  obtain ⟨_, _, rfl⟩ := hd
  obtain ⟨_, _, rfl⟩ := he
  exact hab

theorem Lut.entries_keys_nodup (t : Lut) : (t.entries.map Prod.fst).Nodup := by
  rw [List.Nodup, List.pairwise_map]
  exact t.entries_ascending.imp (fun h e => by rw [e] at h; exact Nat.lt_irrefl _ h)

/-- `N_LUT` counts the symbols that have a code (R27). -/
theorem Lut.entries_length (t : Lut) : t.entries.length = allSymbols.countP (fun sym => (t.get sym).isSome) := by
  rw [Lut.entries]
  have : ∀ l : List Byte, (l.filterMap (fun sym => (t.get sym).map (fun c => (sym, c)))).length =
      l.countP (fun sym => (t.get sym).isSome) := by
    intro l
    induction l with
    | nil => rfl
    | cons a l ih =>
      rw [List.filterMap_cons, List.countP_cons]
      cases h : t.get a <;> simp [ih]
  exact this allSymbols

theorem State.nLut_le (s : State) : s.nLut ≤ 256 := by
  rw [State.nLut, Lut.entries_length, ← allSymbols_length]
  exact List.countP_le_length

/-- Recording entries with distinct symbols one after the other: a symbol among them has its code, another keeps what
it had. -/
theorem foldl_record_get (es : List (Byte × Bits)) (t : Lut) (hn : (es.map Prod.fst).Nodup) (sym : Byte) :
    (es.foldl (fun t e => t.record e.1 e.2) t).get sym =
      match es.find? (fun e => e.1 == sym) with
      | some e => some e.2
      | none => t.get sym := by
  induction es generalizing t with
  | nil => rfl
  | cons e es ih =>
    rw [List.map_cons, List.nodup_cons] at hn
    rw [List.foldl_cons, ih _ hn.2, List.find?_cons]
    by_cases h : e.1 = sym
    · subst h
      have : es.find? (fun d => d.1 == e.1) = none := by
        rw [List.find?_eq_none]
        intro d hd hde
        exact hn.1 (List.mem_map.2 ⟨d, hd, by simpa using hde⟩)
      simp [this]
    · have h' : (e.1 == sym) = false := by simpa using h
      rw [h']
      cases es.find? (fun d => d.1 == sym) with
      | none => exact t.get_record_other (Ne.symm h) _
      | some d => rfl

/-- The table of a list of entries with distinct symbols holds exactly them (R225). -/
theorem Lut.get_ofEntries {es : List (Byte × Bits)} (hn : (es.map Prod.fst).Nodup) (sym : Byte) (c : Bits) :
    (Lut.ofEntries es).get sym = some c ↔ (sym, c) ∈ es := by
  rw [Lut.ofEntries, foldl_record_get es _ hn sym]
  constructor
  · cases h : es.find? (fun e => e.1 == sym) with
    | none => simp
    | some e =>
      intro he
      have h1 := List.mem_of_find?_eq_some h
      have h2 : e.1 = sym := by simpa using List.find?_some h
      cases he
      rw [← h2]
      exact h1
  · intro hm
    cases h : es.find? (fun e => e.1 == sym) with
    | none =>
      rw [List.find?_eq_none] at h
      exact absurd (beq_self_eq_true sym) (h _ hm)
    | some e =>
      have h1 := List.mem_of_find?_eq_some h
      have h2 : e.1 = sym := by simpa using List.find?_some h
      have : e = (sym, c) := List.inj_on_of_nodup_map hn h1 hm h2
      rw [this]

/-- The table of a table's own entries is the table (R226). -/
theorem Lut.ofEntries_entries (t : Lut) : Lut.ofEntries t.entries = t := by
  apply Lut.ext_get
  intro sym
  apply Option.ext
  intro c
  rw [Lut.get_ofEntries t.entries_keys_nodup, Lut.mem_entries]

end Sys2Proof.Machine
end

