-- ==== Sys2Proof/Laws/Decoding.lean ====
section
/-! SUPPORT. The laws of the decoder's operations: the Reverse Dictionary, and the scan of one code (R192, R193, R198). -/

namespace Sys2Proof.Machine

/-- Building the Reverse Dictionary fails exactly when a code occurs twice (R192). -/
theorem reverseDict_eq_none_iff (rev : RevDict) (es : List (Byte × Bits)) :
    reverseDict rev es = none ↔ ¬ ((es.map Prod.snd).Nodup ∧ ∀ e ∈ es, rev.lookup e.2 = none) := by
  induction es generalizing rev with
  | nil => simp [reverseDict]
  | cons e es ih =>
    obtain ⟨sym, c⟩ := e
    rw [reverseDict]
    cases hl : rev.lookup c with
    | some x =>
      refine iff_of_true rfl (fun h => ?_)
      have := h.2 (sym, c) (by simp)
      rw [hl] at this
      cases this
    | none =>
      have hlook : ∀ d : Bits, List.lookup d ((c, sym) :: rev) = none ↔ d ≠ c ∧ rev.lookup d = none := by
        intro d
        rw [List.lookup_cons]
        by_cases h : d = c
        · simp [h]
        · have : (d == c) = false := by simpa using h
          simp only [this]
          exact ⟨fun hn => ⟨h, hn⟩, fun hn => hn.2⟩
      show reverseDict ((c, sym) :: rev) es = none ↔ _
      rw [ih, not_iff_not, List.map_cons, List.nodup_cons]
      constructor
      · rintro ⟨h1, h2⟩
        refine ⟨⟨fun hm => ?_, h1⟩, ?_⟩
        · obtain ⟨x, hx, hxc⟩ := List.mem_map.1 hm
          exact ((hlook _).1 (h2 x hx)).1 hxc
        · intro x hx
          rcases List.mem_cons.1 hx with rfl | hx
          · exact hl
          · exact ((hlook _).1 (h2 x hx)).2
      · rintro ⟨⟨h1, h2⟩, h3⟩
        refine ⟨h2, fun x hx => (hlook _).2 ⟨fun e => h1 (List.mem_map.2 ⟨x, hx, e⟩), h3 x (by simp [hx])⟩⟩

/-- The Reverse Dictionary holds the given pairs and what it held before (R192). -/
theorem reverseDict_lookup {rev r : RevDict} {es : List (Byte × Bits)} (h : reverseDict rev es = some r) (c : Bits)
    (sym : Byte) : r.lookup c = some sym ↔ rev.lookup c = some sym ∨ (sym, c) ∈ es := by
  induction es generalizing rev with
  | nil => rw [reverseDict] at h; cases h; simp
  | cons e es ih =>
    obtain ⟨a, d⟩ := e
    rw [reverseDict] at h
    cases hl : rev.lookup d with
    | some x => simp [hl] at h
    | none =>
      simp only [hl, Option.isSome_none, Bool.false_eq_true, if_false] at h
      rw [ih h, List.lookup_cons, List.mem_cons]
      by_cases hc : c = d
      · subst hc
        simp [hl, eq_comm]
      · have : (c == d) = false := by simpa using hc
        simp [this, hc]

theorem Lut.codesDistinct_iff (t : Lut) : t.CodesDistinct ↔ (t.entries.map Prod.snd).Nodup := by
  rw [List.nodup_map_iff_inj_on (List.Nodup.of_map _ t.entries_keys_nodup)]
  constructor
  · rintro h ⟨a, c⟩ ha ⟨b, d⟩ hb he
    simp only at he
    subst he
    rw [Lut.mem_entries] at ha hb
    rw [h a b _ ha hb]
  · intro h a b c ha hb
    rw [← Lut.mem_entries] at ha hb
    exact congrArg Prod.fst (h _ ha _ hb rfl)

/-- A prefix-free table has no duplicate code. -/
theorem Lut.PrefixFree.codesDistinct {t : Lut} (h : t.PrefixFree) : t.CodesDistinct := by
  intro a b c ha hb
  by_contra hab
  exact h a b c c ha hb hab (List.prefix_refl c)

/-- Phase REV of a table: CORRUPT exactly with a duplicate code, else the inverse of the table (R192). -/
theorem reverseDict_entries (t : Lut) :
    (¬ t.CodesDistinct ∧ reverseDict [] t.entries = none) ∨
    (t.CodesDistinct ∧ ∃ rev, reverseDict [] t.entries = some rev ∧
      ∀ c sym, rev.lookup c = some sym ↔ t.get sym = some c) := by
  by_cases hd : t.CodesDistinct
  · right
    refine ⟨hd, ?_⟩
    cases h : reverseDict [] t.entries with
    | none =>
      rw [reverseDict_eq_none_iff] at h
      exact absurd ⟨(t.codesDistinct_iff).1 hd, fun _ _ => rfl⟩ h
    | some rev =>
      refine ⟨rev, rfl, fun c sym => ?_⟩
      rw [reverseDict_lookup h c sym, Lut.mem_entries]
      simp
  · left
    refine ⟨hd, (reverseDict_eq_none_iff _ _).2 (fun h => hd ((t.codesDistinct_iff).2 h.1))⟩

/-- While no buffer content on the way is a code, the scan only fills the buffer (R193). -/
theorem foldl_scanBit_noMatch {rev : RevDict} (p scr : Bits) (out : List Byte)
    (h : ∀ q b, q ++ [b] <+: p → rev.lookup (scr ++ (q ++ [b])) = none) :
    p.foldl (scanBit rev) (scr, out) = (scr ++ p, out) := by
  induction p generalizing scr with
  | nil => simp
  | cons b p ih =>
    have h0 : rev.lookup (scr ++ [b]) = none := h [] b (by simp)
    have hs : scanBit rev (scr, out) b = (scr ++ [b], out) := by simp [scanBit, h0]
    rw [List.foldl_cons, hs, ih]
    · simp
    · intro q d hq
      have := h (b :: q) d (by simpa using hq)
      simpa using this

/-- The inverse of a prefix-free table matches a code at its last bit and no earlier (R198). -/
theorem foldl_scanBit_code {t : Lut} {rev : RevDict} (hrev : ∀ c sym, rev.lookup c = some sym ↔ t.get sym = some c)
    (hp : t.PrefixFree) {sym : Byte} {c : Bits} (hc : t.get sym = some c) (hne : c ≠ []) (out : List Byte) :
    c.foldl (scanBit rev) ([], out) = ([], out ++ [sym]) := by
  obtain ⟨p, b, rfl⟩ : ∃ p b, c = p ++ [b] := ⟨c.dropLast, c.getLast hne, (List.dropLast_concat_getLast hne).symm⟩
  rw [List.foldl_append, foldl_scanBit_noMatch p [] out]
  · have : rev.lookup (p ++ [b]) = some sym := (hrev _ _).2 hc
    simp [scanBit, this]
  · intro q d hq
    rw [List.nil_append]
    cases hl : rev.lookup (q ++ [d]) with
    | none => rfl
    | some a =>
      have ha := (hrev _ _).1 hl
      have hpre : q ++ [d] <+: p ++ [b] := hq.trans (List.prefix_append _ _)
      by_cases hab : a = sym
      · subst hab
        rw [hc] at ha
        have h1 := hq.length_le
        have h2 := congrArg List.length (Option.some.inj ha)
        rw [List.length_append, List.length_append] at h2
        simp only [List.length_append, List.length_singleton] at h1 h2
        omega
      · exact absurd hpre (hp a sym _ _ ha hc hab)

/-- A proper prefix of a code of a prefix-free table stays in the buffer unmatched (R199). -/
theorem foldl_scanBit_properPrefix {t : Lut} {rev : RevDict}
    (hrev : ∀ c sym, rev.lookup c = some sym ↔ t.get sym = some c) (hp : t.PrefixFree) {sym : Byte} {p : Bits} {b : Bool}
    (hc : t.get sym = some (p ++ [b])) (out : List Byte) : p.foldl (scanBit rev) ([], out) = (p, out) := by
  rw [foldl_scanBit_noMatch p [] out]
  · simp
  · intro q d hq
    rw [List.nil_append]
    cases hl : rev.lookup (q ++ [d]) with
    | none => rfl
    | some a =>
      have ha := (hrev _ _).1 hl
      have hpre : q ++ [d] <+: p ++ [b] := hq.trans (List.prefix_append _ _)
      by_cases hab : a = sym
      · subst hab
        rw [hc] at ha
        have h1 := hq.length_le
        have h2 := congrArg List.length (Option.some.inj ha)
        simp only [List.length_append, List.length_singleton] at h1 h2
        omega
      · exact absurd hpre (hp a sym _ _ ha hc hab)

/-- The scan of a concatenation of codes emits their symbols in order (R198). -/
theorem foldl_scanBit_codes {t : Lut} {rev : RevDict} (hrev : ∀ c sym, rev.lookup c = some sym ↔ t.get sym = some c)
    (hp : t.PrefixFree) (hne : t.NoEmptyCode) (syms : List Byte) (codes : List Bits)
    (h : syms.map t.get = codes.map some) (out : List Byte) :
    codes.flatten.foldl (scanBit rev) ([], out) = ([], out ++ syms) := by
  induction syms generalizing codes out with
  | nil => cases codes with
    | nil => simp
    | cons => simp at h
  | cons a syms ih => cases codes with
    | nil => simp at h
    | cons c codes =>
      simp only [List.map_cons, List.cons.injEq] at h
      have hcne : c ≠ [] := fun e => hne a (by rw [h.1, e])
      rw [List.flatten_cons, List.foldl_append, foldl_scanBit_code hrev hp h.1 hcne, ih codes h.2]
      simp

/-- Decoding a concatenation of codes (R198). -/
theorem decodeBits_of_codes {t : Lut} (hp : t.PrefixFree) (hne : t.NoEmptyCode) {syms : List Byte} {codes : List Bits}
    (h : syms.map t.get = codes.map some) : decodeBits t codes.flatten = .ok syms := by
  rcases reverseDict_entries t with ⟨hd, -⟩ | ⟨-, rev, hr, hrev⟩
  · exact absurd hp.codesDistinct hd
  · have := foldl_scanBit_codes hrev hp hne syms codes h []
    rw [List.nil_append] at this
    simp [decodeBits, hr, scanBits, this]

/-- The decoder's only errors are CORRUPT and TRUNC (R191). -/
theorem decodeBits_error {t : Lut} {src : Bits} {e : Err} (h : decodeBits t src = .error e) :
    (e = .corrupt ∧ ¬ t.CodesDistinct) ∨ (e = .trunc ∧ t.CodesDistinct) := by
  rcases reverseDict_entries t with ⟨hd, hr⟩ | ⟨hd, rev, hr, -⟩
  · simp only [decodeBits, hr] at h
    cases h
    exact .inl ⟨rfl, hd⟩
  · simp only [decodeBits, hr] at h
    split at h
    · cases h
    · cases h; exact .inr ⟨rfl, hd⟩

end Sys2Proof.Machine
end

