-- ==== Sys2Proof/Laws/Memory.lean ====
section
/-! SUPPORT. The laws of the byte buffers: every operation keeps the canonical form, a read after a write gives what
was written, and other addresses read as before. -/

namespace Sys2Proof.Machine

theorem zipIdx_map_swap (bs : List Byte) (k : Nat) :
    (bs.zipIdx k).map (fun p => (p.2, p.1)) = (List.range' k bs.length).zip bs := by
  induction bs generalizing k with
  | nil => rfl
  | cons b bs ih => simp [List.zipIdx_cons, List.range'_succ, ih]

theorem Memory.ofBytes_eq_zip (bs : List Byte) : Memory.ofBytes bs = (List.range bs.length).zip bs := by
  rw [Memory.ofBytes, zipIdx_map_swap, List.range_eq_range']

@[simp] theorem Memory.ofBytes_nil : Memory.ofBytes [] = [] := rfl

@[simp] theorem Memory.ofBytes_length (bs : List Byte) : (Memory.ofBytes bs).length = bs.length := by
  simp [Memory.ofBytes]

@[simp] theorem Memory.bytes_nil : Memory.bytes [] = [] := rfl

@[simp] theorem Memory.bytes_length (m : Memory) : m.bytes.length = m.length := by simp [Memory.bytes]

@[simp] theorem Memory.bytes_ofBytes (bs : List Byte) : (Memory.ofBytes bs).bytes = bs := by
  rw [Memory.ofBytes_eq_zip, Memory.bytes, List.map_snd_zip (by simp)]

@[simp] theorem Memory.bytes_push (m : Memory) (b : Byte) : (m.push b).bytes = m.bytes ++ [b] := by
  simp [Memory.push, Memory.bytes]

@[simp] theorem Memory.length_push (m : Memory) (b : Byte) : (m.push b).length = m.length + 1 := by
  simp [Memory.push]

/-- The empty buffer has the canonical form. -/
theorem Memory.wf_nil : Memory.wf [] := rfl

/-- A buffer replaced whole has the canonical form. -/
theorem Memory.wf_ofBytes (bs : List Byte) : (Memory.ofBytes bs).wf := by
  unfold Memory.wf
  rw [Memory.ofBytes_length, Memory.ofBytes_eq_zip, List.map_fst_zip (by simp)]

/-- Appending a byte keeps the canonical form. -/
theorem Memory.wf_push {m : Memory} (h : m.wf) (b : Byte) : (m.push b).wf := by
  unfold Memory.wf at *
  rw [Memory.length_push, Memory.push, List.map_append, h, List.range_succ]
  rfl

/-- A canonical buffer is determined by its bytes, so equal contents are equal data. -/
theorem Memory.eq_ofBytes_of_wf {m : Memory} (h : m.wf) : m = Memory.ofBytes m.bytes := by
  rw [Memory.ofBytes_eq_zip, Memory.bytes_length]
  calc m = (m.map Prod.fst).zip (m.map Prod.snd) := (List.zip_of_prod rfl rfl)
    _ = (List.range m.length).zip m.bytes := by rw [h]; rfl

theorem Memory.holds_ofBytes (bs : List Byte) : (Memory.ofBytes bs).wf ∧ (Memory.ofBytes bs).bytes = bs :=
  ⟨Memory.wf_ofBytes bs, Memory.bytes_ofBytes bs⟩

theorem lookup_zip_range' (bs : List Byte) (k a : Nat) :
    ((List.range' k bs.length).zip bs).lookup a = if k ≤ a then bs[a - k]? else none := by
  induction bs generalizing k with
  | nil => simp
  | cons b bs ih =>
    rw [List.length_cons, List.range'_succ, List.zip_cons_cons, List.lookup_cons, ih]
    by_cases h : a = k
    · subst h; simp
    · have h' : (a == k) = false := by simpa using h
      simp only [h']
      by_cases hk : k ≤ a
      · have : a - k = (a - (k + 1)) + 1 := by omega
        rw [if_pos hk, if_pos (by omega : k + 1 ≤ a), this, List.getElem?_cons_succ]
      · rw [if_neg hk, if_neg (by omega)]

/-- Reading a buffer replaced whole: the byte at each address below the length, none above. -/
@[simp] theorem Memory.readByte_ofBytes (bs : List Byte) (a : Nat) : (Memory.ofBytes bs).readByte a = bs[a]? := by
  rw [Memory.readByte, Memory.ofBytes_eq_zip, List.range_eq_range', lookup_zip_range']
  simp

/-- Reading a canonical buffer at an address gives the byte at that place of its content. -/
theorem Memory.readByte_of_wf {m : Memory} (h : m.wf) (a : Nat) : m.readByte a = m.bytes[a]? := by
  conv_lhs => rw [Memory.eq_ofBytes_of_wf h]
  exact Memory.readByte_ofBytes _ _

/-- Appending a byte leaves every address but the old length reading as before. -/
theorem Memory.readByte_push_other (m : Memory) (b : Byte) {a : Nat} (h : a ≠ m.length) :
    (m.push b).readByte a = m.readByte a := by
  have h' : (a == m.length) = false := by simpa using h
  simp [Memory.readByte, Memory.push, List.lookup_append, List.lookup_cons, h']

/-- `MemRead(space, 0, length)` of a canonical buffer is its whole content (R14). -/
theorem Memory.readRange_whole {m : Memory} (h : m.wf) : m.readRange 0 m.length = some m.bytes := by
  have hf : (fun i => m.readByte (0 + i)) = fun i => m.bytes[i]? := by
    funext i; rw [Nat.zero_add]; exact Memory.readByte_of_wf h i
  rw [Memory.readRange, hf, ← Memory.bytes_length]
  have key : ∀ (l : List Byte) (k : Nat) (pre : List Byte), pre.length = k →
      (List.range' k l.length).mapM (fun i => (pre ++ l)[i]?) = some l := by
    intro l
    induction l with
    | nil => intros; rfl
    | cons b l ih =>
      intro k pre hk
      have h1 : (pre ++ b :: l)[k]? = some b := by simp [← hk]
      have h2 := ih (k + 1) (pre ++ [b]) (by simp [hk])
      simp only [List.append_assoc, List.singleton_append] at h2
      rw [List.length_cons, List.range'_succ, List.mapM_cons, h1, h2]
      rfl
  have := key m.bytes 0 [] rfl
  simpa [List.range_eq_range'] using this

@[simp] theorem State.inBytes_length (s : State) : s.inBytes.length = s.inLen := Memory.bytes_length _
@[simp] theorem State.outBytes_length (s : State) : s.outBytes.length = s.outLen := Memory.bytes_length _
@[simp] theorem State.inBytes_setIn (s : State) (m : Memory) : (s.setIn m).inBytes = m.bytes := rfl
@[simp] theorem State.outBytes_setOut (s : State) (m : Memory) : (s.setOut m).outBytes = m.bytes := rfl
@[simp] theorem State.outBytes_replaceOut (s : State) (bs : List Byte) : (s.replaceOut bs).outBytes = bs :=
  Memory.bytes_ofBytes bs

end Sys2Proof.Machine
end

