-- ==== Sys2Proof/Laws/Run.lean ====
section
/-! SUPPORT. What running one command can do, said once: the equations of `runCommand` by how the command's work ends,
and its inversion. -/

namespace Sys2Proof.Machine

@[simp] theorem fitsCap_none (n : Nat) : fitsCap none n = true := rfl
@[simp] theorem fitsWidth_none (n : Nat) : fitsWidth none n = true := rfl
@[simp] theorem fitsWidth_countW (n : Nat) : fitsWidth Config.capacities.countW n = true := rfl

/-- With the default, unbounded capacities every state is within them (R6). -/
@[simp] theorem State.withinCapacity_default (s : State) : s.withinCapacity Config.capacities = true := by
  simp [State.withinCapacity, Config.capacities]

variable {work : State → Result} {s t : State}

/-- A halted core stays as it is (R258). -/
theorem runCommand_halted (h : s.halt = true) : runCommand Config.capacities work s = .next s := by simp [runCommand, h]

/-- A command that ends well writes 0 to RES (R15). -/
theorem runCommand_done (h : s.halt = false) (hw : work s = .done t) : runCommand Config.capacities work s = .next (t.setRes 0) := by
  simp [runCommand, h, hw]

/-- A command that raises ends with the error raised (R15). -/
theorem runCommand_raised {e : Err} (h : s.halt = false) (hw : work s = .raised e t) :
    runCommand Config.capacities work s = .next (t.raise e) := by simp [runCommand, h, hw]

/-- Everything a command can do: nothing while halted, else end well, raise, or exceed a capacity. -/
theorem runCommand_cases (work : State → Result) (s : State) :
    (s.halt = true ∧ runCommand Config.capacities work s = .next s) ∨
    (s.halt = false ∧ ∃ t, work s = .done t ∧ runCommand Config.capacities work s = .next (t.setRes 0)) ∨
    (s.halt = false ∧ ∃ e t, work s = .raised e t ∧ runCommand Config.capacities work s = .next (t.raise e)) ∨
    (s.halt = false ∧ work s = .exceeds ∧ runCommand Config.capacities work s = .refused .capacityExceeded) := by
  cases hh : s.halt
  · cases hw : work s with
    | done t => exact .inr (.inl ⟨rfl, t, rfl, runCommand_done hh hw⟩)
    | raised e t => exact .inr (.inr (.inl ⟨rfl, e, t, rfl, runCommand_raised hh hw⟩))
    | exceeds => exact .inr (.inr (.inr ⟨rfl, rfl, by simp [runCommand, hh, hw]⟩))
  · exact .inl ⟨rfl, runCommand_halted hh⟩

@[simp] theorem Err.code_ne_zero (e : Err) : e.code ≠ 0 := by cases e <;> decide
theorem Err.code_toNat_le (e : Err) : e.code.toNat ≤ 7 := by cases e <;> decide
theorem Err.code_eq_two_iff (e : Err) : e.code = 2 ↔ e = .logic := by cases e <;> decide
theorem Err.fatal_iff (e : Err) : e.fatal = true ↔ e = .logic := by cases e <;> decide

/-- The fatal error's entry (R256). -/
theorem State.raise_logic (s : State) : s.raise .logic = { s with res := 2, halt := true, hcause := 2 } := rfl

/-- A recoverable error's entry (R259). -/
theorem State.raise_recoverable (s : State) {e : Err} (h : e ≠ .logic) : s.raise e = { s with res := e.code } := by
  cases e <;> first | rfl | exact absurd rfl h

@[simp] theorem Result.andThen_done (t : State) (f : State → Result) : (Result.done t).andThen f = f t := rfl
@[simp] theorem Result.andThen_raised (e : Err) (t : State) (f : State → Result) :
    (Result.raised e t).andThen f = .raised e t := rfl
@[simp] theorem Result.andThen_exceeds (f : State → Result) : Result.exceeds.andThen f = .exceeds := rfl

/-! ### The step, by the host's next action -/

theorem step_waits {s : State} (h : s.pending = []) : step s = .next s := by simp [step, runAction, State.takeAction, h]

theorem step_reset {s : State} {rest : List HostAction} (h : s.pending = .reset :: rest) :
    step s = .next { State.reset with pending := rest } := by simp [step, runAction, State.takeAction, h, State.hostReset]

theorem step_issue {s : State} {w : Word} {rest : List HostAction} (h : s.pending = .issue w :: rest) :
    step s = stepWord w { s with pending := rest } := by simp [step, runAction, State.takeAction, h]

/-- The word set for the next step is the word the next step executes. -/
theorem step_withFetchWord (s : State) (nbits w : Nat) :
    step (s.withFetchWord nbits w) = stepWord (BitVec.ofNat 16 (w % 2 ^ nbits)) s :=
  step_issue (s := s.withFetchWord nbits w) rfl

end Sys2Proof.Machine
end

