-- ==== Sys2Proof/Laws/Tree.lean ====
section
/-! SUPPORT. The laws of the tree builder: the queue, the merge loop, the walk, and the table they make (R163 to R168);
and of the symbol mapping (R180). -/

namespace Sys2Proof.Machine

/-! ### The queue -/

theorem popMin_eq_none_iff (q : List Node) : popMin q = none ↔ q = [] := by
  cases q with
  | nil => simp [popMin]
  | cons n ns =>
    rw [popMin]
    cases popMin ns with
    | none => simp
    | some p => simp only [reduceCtorEq, iff_false]; split <;> simp

/-- `popmin` takes one node out of the queue and leaves the others (R163). -/
theorem popMin_perm {q rest : List Node} {m : Node} (h : popMin q = some (m, rest)) : (m :: rest).Perm q := by
  induction q generalizing m rest with
  | nil => simp [popMin] at h
  | cons n ns ih =>
    rw [popMin] at h
    cases hp : popMin ns with
    | none =>
      rw [hp] at h
      cases h
      rw [(popMin_eq_none_iff ns).1 hp]
    | some p =>
      obtain ⟨m', r'⟩ := p
      rw [hp] at h
      have := ih hp
      simp only at h
      split at h
      · cases h; exact .refl _
      · cases h; exact (List.Perm.swap _ _ _).trans (this.cons n)

/-- `popmin` takes the least node in the queue order: no node left in the queue comes before it (R163). -/
theorem popMin_least {q rest : List Node} {m : Node} (h : popMin q = some (m, rest)) : ∀ n ∈ rest, n.before m = false := by
  have trans : ∀ a b c : Node, a.before b = false → b.before c = false → a.before c = false := by
    intro a b c
    simp only [Node.before, Bool.or_eq_false_iff, Bool.and_eq_false_iff, decide_eq_false_iff_not, beq_eq_false_iff_ne]
    omega
  have total : ∀ a b : Node, a.before b = true → b.before a = false := by
    intro a b
    simp only [Node.before, Bool.or_eq_false_iff, Bool.and_eq_false_iff, decide_eq_false_iff_not, beq_eq_false_iff_ne,
      Bool.or_eq_true, Bool.and_eq_true, decide_eq_true_eq, beq_iff_eq]
    omega
  induction q generalizing m rest with
  | nil => simp [popMin] at h
  | cons n ns ih =>
    rw [popMin] at h
    cases hp : popMin ns with
    | none =>
      rw [hp] at h
      cases h
      simp
    | some p =>
      obtain ⟨m', r'⟩ := p
      rw [hp] at h
      have h1 := ih hp
      simp only at h
      split at h
      · next hb =>
        cases h
        intro x hx
        rcases List.mem_cons.1 ((popMin_perm hp).mem_iff.2 hx) with rfl | hx'
        · exact total _ _ hb
        · exact trans _ _ _ (h1 x hx') (total _ _ hb)
      · next hb =>
        cases h
        intro x hx
        rcases List.mem_cons.1 hx with rfl | hx'
        · simpa using hb
        · exact h1 x hx'

/-! ### The tree -/

/-- The symbols of a tree, left to right. -/
def Node.symbols : Node → List Byte
  | .leaf sym _ _ => [sym]
  | .internal left right _ _ => left.symbols ++ right.symbols

/-- The symbols of a tree with the branch bits from the root to each, after the bits of the path to the root. -/
def Node.paths : Node → Bits → List (Byte × Bits)
  | .leaf sym _ _, code => [(sym, code)]
  | .internal left right _ _, code => left.paths (code ++ [false]) ++ right.paths (code ++ [true])

/-- The walk records the paths, in any table (R166). -/
theorem Node.walk_eq_record_paths (n : Node) (code : Bits) (t : Lut) :
    n.walk code t = (n.paths code).foldl (fun t e => t.record e.1 e.2) t := by
  induction n generalizing code t with
  | leaf => rfl
  | internal left right f k ihl ihr => rw [Node.walk, Node.paths, List.foldl_append, ihl, ihr]

theorem Node.paths_symbols (n : Node) (code : Bits) : (n.paths code).map Prod.fst = n.symbols := by
  induction n generalizing code with
  | leaf => rfl
  | internal left right f k ihl ihr => rw [Node.paths, List.map_append, ihl, ihr, Node.symbols]

theorem Node.symbols_ne_nil (n : Node) : n.symbols ≠ [] := by
  induction n with
  | leaf => simp [Node.symbols]
  | internal left right f k ihl _ => simp [Node.symbols, ihl]

theorem Node.symbols_length_pos (n : Node) : 0 < n.symbols.length := List.length_pos_of_ne_nil n.symbols_ne_nil

/-- Every path begins with the path to the root it was taken from (R166). -/
theorem Node.prefix_of_mem_paths (n : Node) (code : Bits) {e : Byte × Bits} (h : e ∈ n.paths code) : code <+: e.2 := by
  induction n generalizing code with
  | leaf =>
    rw [Node.paths, List.mem_singleton] at h
    rw [h]
  | internal left right f k ihl ihr =>
    rw [Node.paths, List.mem_append] at h
    rcases h with h | h
    · exact (List.prefix_append _ _).trans (ihl _ h)
    · exact (List.prefix_append _ _).trans (ihr _ h)

theorem no_common_extension {code c : Bits} (h0 : code ++ [false] <+: c) (h1 : code ++ [true] <+: c) : False := by
  obtain ⟨a, ha⟩ := h0
  obtain ⟨b, hb⟩ := h1
  rw [← hb, List.append_assoc, List.append_assoc] at ha
  have := List.append_cancel_left ha
  simp at this

/-- No leaf is an ancestor of another: of two paths neither is a prefix of the other (R168). -/
theorem Node.paths_prefixFree (n : Node) (code : Bits) :
    (n.paths code).Pairwise (fun d e => ¬ d.2 <+: e.2 ∧ ¬ e.2 <+: d.2) := by
  induction n generalizing code with
  | leaf => exact List.pairwise_singleton _ _
  | internal left right f k ihl ihr =>
    rw [Node.paths, List.pairwise_append]
    refine ⟨ihl _, ihr _, ?_⟩
    intro d hd e he
    have h0 := left.prefix_of_mem_paths _ hd
    have h1 := right.prefix_of_mem_paths _ he
    exact ⟨fun h => no_common_extension (h0.trans h) h1, fun h => no_common_extension h0 (h1.trans h)⟩

/-- A path is no longer than the number of leaves less one allows (R168). -/
theorem Node.paths_depth (n : Node) (code : Bits) {e : Byte × Bits} (h : e ∈ n.paths code) :
    e.2.length + 1 ≤ code.length + n.symbols.length := by
  induction n generalizing code with
  | leaf =>
    rw [Node.paths, List.mem_singleton] at h
    rw [h]
    simp [Node.symbols]
  | internal left right f k ihl ihr =>
    rw [Node.paths, List.mem_append] at h
    have hl := left.symbols_length_pos
    have hr := right.symbols_length_pos
    simp only [Node.symbols, List.length_append]
    rcases h with h | h
    · have := ihl _ h
      simp only [List.length_append, List.length_singleton] at this
      omega
    · have := ihr _ h
      simp only [List.length_append, List.length_singleton] at this
      omega

/-- The paths of a full tree fill the code space (R168). -/
theorem Node.paths_kraft (n : Node) (code : Bits) {depth : Nat} (h : code.length + n.symbols.length ≤ depth + 1) :
    ((n.paths code).map (fun e => 2 ^ (depth - e.2.length))).sum = 2 ^ (depth - code.length) := by
  induction n generalizing code with
  | leaf => simp [Node.paths]
  | internal left right f k ihl ihr =>
    have hl := left.symbols_length_pos
    have hr := right.symbols_length_pos
    simp only [Node.symbols, List.length_append] at h
    rw [Node.paths, List.map_append, List.sum_append, ihl _ (by simp; omega), ihr _ (by simp; omega)]
    simp only [List.length_append, List.length_singleton]
    rw [show depth - code.length = (depth - (code.length + 1)) + 1 by omega, pow_succ]
    omega

/-- The merge loop ends in one root that has exactly the symbols of the queue (R164). -/
theorem mergeAll_spec (fuel seq : Nat) {q : List Node} (hq : q ≠ []) (hf : q.length ≤ fuel) :
    ∃ root, mergeAll fuel seq q = some root ∧ root.symbols.Perm (q.flatMap Node.symbols) := by
  induction fuel generalizing seq q with
  | zero => exact absurd (List.eq_nil_of_length_eq_zero (by omega)) hq
  | succ fuel ih =>
    rw [mergeAll]
    cases hp : popMin q with
    | none => exact absurd ((popMin_eq_none_iff q).1 hp) hq
    | some p =>
      obtain ⟨a, rest⟩ := p
      have h1 := popMin_perm hp
      cases hp2 : popMin rest with
      | none =>
        rw [(popMin_eq_none_iff rest).1 hp2] at h1
        refine ⟨a, by simp [hp2], ?_⟩
        simpa using h1.flatMap_right Node.symbols
      | some p2 =>
        obtain ⟨b, rest'⟩ := p2
        have h2 := popMin_perm hp2
        have hlen : rest'.length + 2 = q.length := by
          rw [← h1.length_eq, List.length_cons, ← h2.length_eq, List.length_cons]
        obtain ⟨root, hr, hs⟩ := ih (seq + 1)
          (q := .internal a b (a.freq + b.freq) seq :: rest') (by simp) (by simp; omega)
        refine ⟨root, by simp only [hp2]; exact hr, hs.trans ?_⟩
        have h3 : (a :: b :: rest').Perm q := (h2.cons a).trans h1
        simpa [Node.symbols] using h3.flatMap_right Node.symbols

/-! ### The leaves and the root -/

/-- The distinct symbols of an input in ascending order (R161, R162). -/
def presentSymbols (input : List Byte) : List Byte :=
  allSymbols.filter (fun sym => decide (0 < symbolCount input sym))

theorem mem_presentSymbols (input : List Byte) (sym : Byte) : sym ∈ presentSymbols input ↔ sym ∈ input := by
  simp [presentSymbols, mem_allSymbols, symbolCount, List.count_pos_iff]

theorem presentSymbols_nodup (input : List Byte) : (presentSymbols input).Nodup := allSymbols_nodup.filter _

theorem presentSymbols_length_le (input : List Byte) : (presentSymbols input).length ≤ 256 := by
  rw [← allSymbols_length]; exact List.length_filter_le _ _

theorem presentSymbols_perm_dedup (input : List Byte) : (presentSymbols input).Perm input.dedup :=
  (List.perm_ext_iff_of_nodup (presentSymbols_nodup input) (List.nodup_dedup input)).2
    (fun a => by rw [mem_presentSymbols, List.mem_dedup])

theorem leaves_symbols (input : List Byte) : (leaves input).flatMap Node.symbols = presentSymbols input := by
  have key : ∀ (l : List Byte) (k : Nat),
      ((l.zipIdx k).map (fun p => Node.leaf p.1 (symbolCount input p.1) p.2)).flatMap Node.symbols = l := by
    intro l
    induction l with
    | nil => intro k; rfl
    | cons b l ih => intro k; rw [List.zipIdx_cons, List.map_cons, List.flatMap_cons, ih]; rfl
  exact key (presentSymbols input) 0

theorem leaves_length (input : List Byte) : (leaves input).length = (presentSymbols input).length := by
  simp [leaves, presentSymbols]

theorem presentSymbols_eq_nil_iff (input : List Byte) : presentSymbols input = [] ↔ input = [] := by
  constructor
  · intro h
    rw [List.eq_nil_iff_forall_not_mem]
    intro a ha
    rw [← mem_presentSymbols, h] at ha
    cases ha
  · intro h
    rw [List.eq_nil_iff_forall_not_mem]
    intro a ha
    rw [mem_presentSymbols, h] at ha
    cases ha

/-- The tree of a non-empty input has the input's distinct symbols (R164). -/
theorem treeRoot_spec {input : List Byte} (h : input ≠ []) :
    ∃ root, treeRoot input = some root ∧ root.symbols.Perm (presentSymbols input) := by
  have hne : leaves input ≠ [] := by
    intro he
    have := leaves_length input
    rw [he] at this
    exact h ((presentSymbols_eq_nil_iff input).1 (List.eq_nil_of_length_eq_zero this.symm))
  obtain ⟨root, hr, hs⟩ := mergeAll_spec (leaves input).length (leaves input).length hne (le_refl _)
  exact ⟨root, hr, by rw [leaves_symbols] at hs; exact hs⟩

theorem treeRoot_nil : treeRoot [] = none := by
  have : leaves [] = [] :=
    List.eq_nil_of_length_eq_zero (by rw [leaves_length, (presentSymbols_eq_nil_iff []).2 rfl]; rfl)
  rw [treeRoot, this]
  rfl

/-! ### The table -/

/-- The pairs HUF.BUILD records for an input. -/
def builtPairs (input : List Byte) : List (Byte × Bits) :=
  match treeRoot input with
  | none => []
  | some (.leaf sym _ _) => [(sym, Config.singleCode)]
  | some (.internal left right f n) => (Node.internal left right f n).paths []

theorem buildTable_eq (input : List Byte) : buildTable input = Lut.ofEntries (builtPairs input) := by
  unfold buildTable builtPairs
  cases treeRoot input with
  | none => rfl
  | some root =>
    cases root with
    | leaf => rfl
    | internal left right f n => exact Node.walk_eq_record_paths _ _ _

/-- Everything the tree builder makes of an input (R165, R168): one pair per distinct symbol; prefix-free; no empty code;
from two symbols on the depth bound and the filled code space. -/
theorem builtPairs_spec (input : List Byte) :
    ((builtPairs input).map Prod.fst).Perm (presentSymbols input) ∧
    (builtPairs input).Pairwise (fun d e => ¬ d.2 <+: e.2 ∧ ¬ e.2 <+: d.2) ∧
    (∀ e ∈ builtPairs input, e.2 ≠ []) ∧
    (∀ e ∈ builtPairs input, e.2.length ≤ 255) ∧
    (2 ≤ (builtPairs input).length →
      (∀ e ∈ builtPairs input, e.2.length + 1 ≤ (builtPairs input).length) ∧
      ((builtPairs input).map (fun e => 2 ^ (255 - e.2.length))).sum = 2 ^ 255) := by
  by_cases hi : input = []
  · subst hi
    have : builtPairs [] = [] := by rw [builtPairs, treeRoot_nil]
    rw [this, (presentSymbols_eq_nil_iff []).2 rfl]
    simp
  · obtain ⟨root, hr, hs⟩ := treeRoot_spec hi
    have hle : root.symbols.length ≤ 256 := hs.length_eq ▸ presentSymbols_length_le input
    cases root with
    | leaf sym f n =>
      have : builtPairs input = [(sym, Config.singleCode)] := by rw [builtPairs, hr]
      rw [this]
      refine ⟨by simpa [Node.symbols] using hs, by simp, ?_, ?_, by simp⟩
      · simp [Config.singleCode]
      · simp [Config.singleCode]
    | internal left right f n =>
      have hb : builtPairs input = (Node.internal left right f n).paths [] := by rw [builtPairs, hr]
      have hlen : ((Node.internal left right f n).paths []).length = (Node.internal left right f n).symbols.length := by
        rw [← Node.paths_symbols _ [], List.length_map]
      rw [hb]
      have hdepth : ∀ e ∈ (Node.internal left right f n).paths [],
          e.2.length + 1 ≤ ((Node.internal left right f n).paths []).length := by
        intro e he
        have := Node.paths_depth _ _ he
        rw [hlen]
        simpa using this
      refine ⟨by rw [Node.paths_symbols]; exact hs, Node.paths_prefixFree _ _, ?_, ?_, ?_⟩
      · intro e he hnil
        rw [Node.paths, List.mem_append] at he
        rcases he with he | he
        · have := left.prefix_of_mem_paths _ he
          rw [hnil] at this
          simp at this
        · have := right.prefix_of_mem_paths _ he
          rw [hnil] at this
          simp at this
      · intro e he
        have := hdepth e he
        rw [hlen] at this
        omega
      · intro _
        refine ⟨hdepth, ?_⟩
        rw [Node.paths_kraft _ [] (depth := 255) (by simpa using hle)]
        rfl

theorem builtPairs_keys_nodup (input : List Byte) : ((builtPairs input).map Prod.fst).Nodup :=
  (builtPairs_spec input).1.nodup_iff.2 (presentSymbols_nodup input)

/-- A symbol has a code in the built table exactly when its pair was recorded. -/
theorem buildTable_get (input : List Byte) (sym : Byte) (c : Bits) :
    (buildTable input).get sym = some c ↔ (sym, c) ∈ builtPairs input := by
  rw [buildTable_eq, Lut.get_ofEntries (builtPairs_keys_nodup input)]

/-- The built table covers exactly the symbols of the input (R168 a, R181). -/
theorem buildTable_isSome_iff (input : List Byte) (sym : Byte) :
    ((buildTable input).get sym).isSome = true ↔ sym ∈ input := by
  rw [← mem_presentSymbols, ← (builtPairs_spec input).1.mem_iff, List.mem_map, Option.isSome_iff_exists]
  constructor
  · rintro ⟨c, hc⟩
    exact ⟨(sym, c), (buildTable_get input sym c).1 hc, rfl⟩
  · rintro ⟨e, he, rfl⟩
    exact ⟨e.2, (buildTable_get input e.1 e.2).2 he⟩

/-- The built table is prefix-free (R168 b). -/
theorem buildTable_prefixFree (input : List Byte) : (buildTable input).PrefixFree := by
  intro a b ca cb ha hb hab
  rw [buildTable_get] at ha hb
  have hp := (builtPairs_spec input).2.1
  have : Std.Symm (fun d e : Byte × Bits => ¬ d.2 <+: e.2 ∧ ¬ e.2 <+: d.2) := ⟨fun _ _ h => ⟨h.2, h.1⟩⟩
  exact (hp.forall ha hb (fun h => hab (congrArg Prod.fst h))).1

/-- No code of the built table is empty (R168 c). -/
theorem buildTable_noEmptyCode (input : List Byte) : (buildTable input).NoEmptyCode := by
  intro sym h
  rw [buildTable_get] at h
  exact (builtPairs_spec input).2.2.1 _ h rfl

/-- Every code of the built table fits the LUT entry (R168 d). -/
theorem buildTable_codesFit (input : List Byte) : (buildTable input).CodesFit := by
  intro sym c h
  rw [buildTable_get] at h
  exact (builtPairs_spec input).2.2.2.1 _ h

/-- The entries of the built table are the recorded pairs, in another order. -/
theorem buildTable_entries_perm (input : List Byte) : (buildTable input).entries.Perm (builtPairs input) := by
  refine (List.perm_ext_iff_of_nodup ?_ ?_).2 ?_
  · exact List.Nodup.of_map _ (Lut.entries_keys_nodup _)
  · exact List.Nodup.of_map _ (builtPairs_keys_nodup input)
  · intro e
    rw [← buildTable_get input e.1 e.2, ← Lut.mem_entries]

/-- Only the counts of an input matter (R160). -/
theorem buildTable_perm {input input' : List Byte} (h : input.Perm input') : buildTable input = buildTable input' := by
  have : leaves input = leaves input' := by
    have hc : symbolCount input = symbolCount input' := by funext sym; exact h.count_eq sym
    rw [leaves, leaves, hc]
  rw [buildTable, buildTable, treeRoot, treeRoot, this]

/-! ### Mapping symbols -/

/-- The mapping of a symbol sequence whose symbols all have codes is the concatenation of the codes (R180). -/
theorem mapSymbols_of_codes {t : Lut} {syms : List Byte} {codes : List Bits} (h : syms.map t.get = codes.map some) :
    mapSymbols t syms = some codes.flatten := by
  induction syms generalizing codes with
  | nil => cases codes with
    | nil => rfl
    | cons => simp at h
  | cons a syms ih => cases codes with
    | nil => simp at h
    | cons c codes =>
      simp only [List.map_cons, List.cons.injEq] at h
      simp [mapSymbols, h.1, ih h.2]

/-- A symbol without a code makes the mapping fail (R180). -/
theorem mapSymbols_eq_none_iff (t : Lut) (syms : List Byte) :
    mapSymbols t syms = none ↔ ∃ sym ∈ syms, t.get sym = none := by
  induction syms with
  | nil => simp [mapSymbols]
  | cons a syms ih =>
    rw [mapSymbols]
    cases ha : t.get a with
    | none => simp [ha]
    | some c => simp [ih, ha]

/-- Symbols that all have codes have a list of codes. -/
theorem exists_codes {t : Lut} {syms : List Byte} (h : ∀ sym ∈ syms, (t.get sym).isSome = true) :
    ∃ codes : List Bits, syms.map t.get = codes.map some := by
  induction syms with
  | nil => exact ⟨[], rfl⟩
  | cons a syms ih =>
    obtain ⟨c, hc⟩ := Option.isSome_iff_exists.1 (h a (by simp))
    obtain ⟨codes, hcs⟩ := ih (fun s hs => h s (by simp [hs]))
    exact ⟨c :: codes, by simp [hc, hcs]⟩

/-- HUF.BUILD's work always ends well (R160). -/
theorem buildWork_eq (t : State) : buildWork Config.capacities t = .done (t.setLut (buildTable t.inBytes)) := rfl

/-- HUF.MAP's work after HUF.BUILD's always ends well (R181). -/
theorem build_then_map_eq (t : State) (vd : VReg) :
    ∃ codes : List Bits, t.inBytes.map (buildTable t.inBytes).get = codes.map some ∧
      (buildWork Config.capacities t).andThen (mapWork vd) =
        .done ((t.setLut (buildTable t.inBytes)).setV vd (pack codes.flatten)) := by
  obtain ⟨codes, hc⟩ := exists_codes (fun sym hs => (buildTable_isSome_iff t.inBytes sym).2 hs)
  refine ⟨codes, hc, ?_⟩
  rw [buildWork_eq, Result.andThen, mapWork]
  have hm : mapSymbols (t.setLut (buildTable t.inBytes)).lut (t.setLut (buildTable t.inBytes)).inBytes =
      some codes.flatten := mapSymbols_of_codes hc
  rw [hm]

end Sys2Proof.Machine
end

