-- ==== Sys2Proof/Laws/Exec.lean ====
section
/-! SUPPORT. What executing a command can do, said once: every arm of `exec` is `runCommand` over the command's work, the
work never exceeds a capacity, and it raises only the errors of R250, with the state of R259. -/

namespace Sys2Proof.Machine

theorem exec_eq_runCommand (i : Instr) (s : State) :
    exec i s = runCommand Config.capacities (commandWork Config.capacities i) s := by cases i <;> rfl

/-- The accumulator's parse loop fails only with FormatError or LogicError (R113). -/
theorem parseAccFrom_error {a : Acc} {text : List Byte} {e : Err} (h : parseAccFrom a text = .error e) :
    e = .format ∨ e = .logic := by
  induction text generalizing a with
  | nil => cases h
  | cons c cs ih =>
    rw [parseAccFrom] at h
    split at h
    · cases h; exact .inl rfl
    · split at h
      · cases h; exact .inr rfl
      · exact ih h

/-- The vector's parse loop fails only with FormatError (R144). -/
theorem parseVectorFrom_error {x : BitVector} {text : List Byte} {e : Err} (h : parseVectorFrom x text = .error e) :
    e = .format := by
  induction text generalizing x with
  | nil => cases h
  | cons c cs ih =>
    rw [parseVectorFrom] at h
    split at h
    · cases h; rfl
    · exact ih h

theorem encodeWork_eq (t : State) (vd : VReg) :
    ∃ codes : List Bits, t.inBytes.map (buildTable t.inBytes).get = codes.map some ∧
      encodeWork Config.capacities vd t = .done ((t.setLut (buildTable t.inBytes)).setV vd (pack codes.flatten)) :=
  build_then_map_eq t vd

/-- Which command's work raises which error, and in which state (R250, R259): the state is as it was, but for the source
HUF.DECODE has consumed. -/
theorem commandWork_raised {i : Instr} {t u : State} {e : Err} (h : commandWork Config.capacities i t = .raised e u) :
    (u = t ∧ (((∃ b, i = .accAppb b) ∧ e = .logic) ∨ (i = .accParse ∧ (e = .format ∨ e = .logic)) ∨
      ((∃ vd, i = .bvParse vd) ∧ e = .format) ∨ ((∃ vd, i = .hufMap vd) ∧ e = .logic) ∨
      ((∃ vd, i = .desBv vd) ∧ e = .frame) ∨ (i = .serDict ∧ e = .alpha) ∨ (i = .desDict ∧ e = .frame))) ∨
    (∃ vs, i = .hufDecode vs ∧ u = t.setV vs BitVector.empty ∧ (e = .corrupt ∨ e = .trunc)) := by
  cases i
  case accAppb b =>
    simp only [commandWork, accAppbWork] at h
    split at h <;> cases h
    exact .inl ⟨rfl, .inl ⟨⟨b, rfl⟩, rfl⟩⟩
  case accParse =>
    simp only [commandWork, accParseWork] at h
    split at h
    · cases h
    · next he => cases h; exact .inl ⟨rfl, .inr (.inl ⟨rfl, parseAccFrom_error he⟩)⟩
  case bvParse vd =>
    simp only [commandWork, bvParseWork] at h
    split at h
    · cases h
    · next he => cases h; exact .inl ⟨rfl, .inr (.inr (.inl ⟨⟨vd, rfl⟩, parseVectorFrom_error he⟩))⟩
  case bvNext => simp only [commandWork, bvNextWork] at h; split at h <;> cases h
  case hufMap vd =>
    simp only [commandWork, mapWork] at h
    split at h <;> cases h
    exact .inl ⟨rfl, .inr (.inr (.inr (.inl ⟨⟨vd, rfl⟩, rfl⟩)))⟩
  case hufEncode vd =>
    obtain ⟨codes, -, he⟩ := encodeWork_eq t vd
    rw [commandWork, he] at h
    cases h
  case hufDecode vs =>
    simp only [commandWork, hufDecodeWork] at h
    split at h
    · cases h
    · next he =>
      cases h
      refine .inr ⟨vs, rfl, rfl, ?_⟩
      rcases decodeBits_error he with ⟨h, -⟩ | ⟨h, -⟩
      · exact .inl h
      · exact .inr h
  case desBv vd =>
    simp only [commandWork, desBvWork] at h
    split at h <;> cases h
    exact .inl ⟨rfl, .inr (.inr (.inr (.inr (.inl ⟨⟨vd, rfl⟩, rfl⟩))))⟩
  case serDict =>
    simp only [commandWork, serDictWork] at h
    split at h <;> cases h
    exact .inl ⟨rfl, .inr (.inr (.inr (.inr (.inr (.inl ⟨rfl, rfl⟩)))))⟩
  case desDict =>
    simp only [commandWork, desDictWork] at h
    split at h <;> cases h
    exact .inl ⟨rfl, .inr (.inr (.inr (.inr (.inr (.inr ⟨rfl, rfl⟩)))))⟩
  all_goals exact absurd h (by simp [commandWork, accClrWork, accTextWork, bvClrWork, bvAppbWork, bvAppaWork, bvAppvWork,
    bvLenWork, bvIterWork, buildWork, serBvWork, inClrWork, inPushWork, ioXferWork])

/-- With the default capacities no command's work exceeds one (R6). -/
theorem commandWork_ne_exceeds (i : Instr) (t : State) : commandWork Config.capacities i t ≠ .exceeds := by
  cases i
  case hufEncode vd => obtain ⟨codes, -, he⟩ := encodeWork_eq t vd; rw [commandWork, he]; simp
  case accAppb => simp only [commandWork, accAppbWork]; split <;> simp
  case accParse => simp only [commandWork, accParseWork]; split <;> simp
  case bvParse => simp only [commandWork, bvParseWork]; split <;> simp
  case bvNext => simp only [commandWork, bvNextWork]; split <;> simp
  case hufMap => simp only [commandWork, mapWork]; split <;> simp
  case hufDecode => simp only [commandWork, hufDecodeWork]; split <;> simp
  case desBv => simp only [commandWork, desBvWork]; split <;> simp
  case serDict => simp only [commandWork, serDictWork]; split <;> simp
  case desDict => simp only [commandWork, desDictWork]; split <;> simp
  all_goals simp [commandWork, accClrWork, accTextWork, bvClrWork, bvAppbWork, bvAppaWork, bvAppvWork,
    bvLenWork, bvIterWork, buildWork, serBvWork, inClrWork, inPushWork, ioXferWork]

/-- Executing a command: nothing while halted; else its work's state with RES 0, or the error raised. -/
theorem exec_cases (i : Instr) (s : State) :
    (s.halt = true ∧ exec i s = .next s) ∨
    (s.halt = false ∧ ∃ t, commandWork Config.capacities i s = .done t ∧ exec i s = .next (t.setRes 0)) ∨
    (s.halt = false ∧ ∃ e t, commandWork Config.capacities i s = .raised e t ∧ exec i s = .next (t.raise e)) := by
  rw [exec_eq_runCommand]
  rcases runCommand_cases (commandWork Config.capacities i) s with h | h | h | ⟨-, h, -⟩
  · exact .inl h
  · exact .inr (.inl h)
  · exact .inr (.inr h)
  · exact absurd h (commandWork_ne_exceeds i s)

/-- A command that is done: the way to compute what `exec` answers. -/
theorem exec_done {i : Instr} {s t : State} (h : s.halt = false) (hw : commandWork Config.capacities i s = .done t) :
    exec i s = .next (t.setRes 0) := by rw [exec_eq_runCommand]; exact runCommand_done h hw

/-- A command that raises. -/
theorem exec_raised {i : Instr} {s t : State} {e : Err} (h : s.halt = false) (hw : commandWork Config.capacities i s = .raised e t) :
    exec i s = .next (t.raise e) := by rw [exec_eq_runCommand]; exact runCommand_raised h hw

/-- HUF.DECODE where the decoding succeeds (R195). -/
theorem exec_hufDecode_ok {s : State} {vs : VReg} {out : List Byte} (h : s.halt = false)
    (hd : decodeBits s.lut (s.getV vs).bits = .ok out) :
    exec (.hufDecode vs) s = .next (((s.setV vs BitVector.empty).replaceOut out).setRes 0) :=
  exec_done h (i := .hufDecode vs) (by simp only [commandWork, hufDecodeWork, hd])

/-- HUF.DECODE where the decoding reports an error; the source is consumed all the same (R195). -/
theorem exec_hufDecode_error {s : State} {vs : VReg} {e : Err} (h : s.halt = false)
    (hd : decodeBits s.lut (s.getV vs).bits = .error e) :
    exec (.hufDecode vs) s = .next ((s.setV vs BitVector.empty).raise e) :=
  exec_raised h (i := .hufDecode vs) (by simp only [commandWork, hufDecodeWork, hd])

end Sys2Proof.Machine
end

