-- ==== Sys2Proof/Laws/Bounded.lean ====
section
/-! SUPPORT. What a core with given capacities can do (00_scope.md R6, 93_implementation_defined.md U8): what the
unbounded core does, or refuse; it refuses exactly where a capacity would be exceeded, and keeps to its capacities. -/

namespace Sys2Proof.Machine

variable {c : Capacities} {i : Instr} {s t : State}

/-- The commands that compute frequencies. -/
def buildsTree (i : Instr) : Prop := i = .hufBuild ∨ ∃ vd, i = .hufEncode vd

/-- The default core is the core whose capacities are unbounded. -/
theorem execWith_default (i : Instr) (s : State) : execWith Config.capacities i s = exec i s :=
  (exec_eq_runCommand i s).symm

theorem stepWith_default (s : State) : stepWith Config.capacities s = step s := by
  have h : stepWordWith Config.capacities = stepWord := by
    funext w t
    rw [stepWordWith, stepWord]
    cases decode w with
    | ok i => exact execWith_default i t
    | error reason => rfl
  rw [stepWith, h, step]

/-- A command's work is the default core's, unless it computes frequencies beyond COUNT_W. -/
theorem commandWork_cases (c : Capacities) (i : Instr) (s : State) :
    (buildsTree i ∧ fitsWidth c.countW s.inLen = false ∧ commandWork c i s = .exceeds) ∨
    ((buildsTree i → fitsWidth c.countW s.inLen = true) ∧
      commandWork c i s = commandWork Config.capacities i s) := by
  by_cases hb : buildsTree i
  · cases hf : fitsWidth c.countW s.inLen
    · refine .inl ⟨hb, rfl, ?_⟩
      rcases hb with rfl | ⟨vd, rfl⟩ <;> simp [commandWork, encodeWork, buildWork, hf]
    · refine .inr ⟨fun _ => rfl, ?_⟩
      rcases hb with rfl | ⟨vd, rfl⟩ <;> simp [commandWork, encodeWork, buildWork, hf]
  · refine .inr ⟨fun h => absurd h hb, ?_⟩
    cases i <;> first | rfl | exact absurd (.inl rfl) hb | exact absurd (.inr ⟨_, rfl⟩) hb

/-- Everything a command can do in a core with given capacities: what it does in the unbounded core, or be refused. -/
theorem execWith_cases (c : Capacities) (i : Instr) (s : State) :
    (s.halt = true ∧ execWith c i s = .next s) ∨
    (s.halt = false ∧ buildsTree i ∧ fitsWidth c.countW s.inLen = false ∧
      execWith c i s = .refused .capacityExceeded) ∨
    (s.halt = false ∧ (buildsTree i → fitsWidth c.countW s.inLen = true) ∧
      ((∃ e t, commandWork Config.capacities i s = .raised e t ∧ execWith c i s = .next (t.raise e)) ∨
        ∃ t, commandWork Config.capacities i s = .done t ∧
          execWith c i s = if t.withinCapacity c then .next (t.setRes 0) else .refused .capacityExceeded)) := by
  cases hh : s.halt
  · rcases commandWork_cases c i s with ⟨hb, hf, hw⟩ | ⟨hb, hw⟩
    · exact .inr (.inl ⟨rfl, hb, hf, by simp [execWith, runCommand, hh, hw]⟩)
    · refine .inr (.inr ⟨rfl, hb, ?_⟩)
      cases hd : commandWork Config.capacities i s with
      | done t => exact .inr ⟨t, rfl, by simp [execWith, runCommand, hh, hw, hd]⟩
      | raised e t => exact .inl ⟨e, t, rfl, by simp [execWith, runCommand, hh, hw, hd]⟩
      | exceeds => exact absurd hd (commandWork_ne_exceeds i s)
  · exact .inl ⟨rfl, by simp [execWith, runCommand, hh]⟩

@[simp] theorem State.withinCapacity_setRes (c : Capacities) (s : State) (n : BitVec 4) :
    (s.setRes n).withinCapacity c = s.withinCapacity c := rfl

@[simp] theorem State.withinCapacity_raise (c : Capacities) (s : State) (e : Err) :
    (s.raise e).withinCapacity c = s.withinCapacity c := by cases e <;> rfl

/-- Emptying a register keeps within the capacities. -/
theorem State.withinCapacity_emptied (h : s.withinCapacity c = true) (r : VReg) :
    (s.setV r BitVector.empty).withinCapacity c = true := by
  simp only [State.withinCapacity, Bool.and_eq_true, List.all_eq_true] at h ⊢
  refine ⟨⟨⟨fun x hx => ?_, h.1.1.2⟩, h.1.2⟩, h.2⟩
  rw [Vector.mem_toList_iff, Vector.mem_iff_getElem] at hx
  obtain ⟨k, hk, rfl⟩ := hx
  simp only [State.setV, Vector.getElem_set]
  split
  · cases c.bvCap <;> simp [fitsCap, BitVector.bitLength, BitVector.empty, Acc.empty]
  · exact h.1.1.1 _ (by simp)

/-- A command of a core with given capacities keeps within them. -/
theorem execWith_withinCapacity (h : execWith c i s = .next t) (hs : s.withinCapacity c = true) :
    t.withinCapacity c = true := by
  rcases execWith_cases c i s with ⟨-, h'⟩ | ⟨-, -, -, h'⟩ | ⟨-, -, ⟨e, u, hw, h'⟩ | ⟨u, -, h'⟩⟩
  · rw [h'] at h; cases h; exact hs
  · rw [h'] at h; cases h
  · rw [h'] at h
    cases h
    rw [State.withinCapacity_raise]
    rcases commandWork_raised hw with ⟨rfl, -⟩ | ⟨vs, -, rfl, -⟩
    · exact hs
    · exact State.withinCapacity_emptied hs vs
  · rw [h'] at h
    split at h
    · next hu => cases h; simpa using hu
    · cases h

end Sys2Proof.Machine
end

