-- ==== Sys2Proof/Laws/Encoding.lean ====
section
/-! SUPPORT. What a row of the command table tests, read as the two word checks (30_encoding.md R81, R88, R91, R92). -/

namespace Sys2Proof

/-- A mask of the whole opcode byte and some low bits tests the opcode and those bits. -/
theorem and_mask_eq_iff {w z m : Word} (hz : z &&& 0xFF00 = 0) (hm : m &&& 0x00FF = 0) :
    w &&& (0xFF00 ||| z) = m ↔ fieldOp w = fieldOp m ∧ w &&& z = 0 := by
  have h0 (i : Nat) : (0 : Word).getLsbD i = false := BitVec.getLsbD_zero
  have hz' : ∀ i, 8 ≤ i → i < 16 → z.getLsbD i = false := by
    intro i h1 h2
    have h := congrArg (fun x : Word => x.getLsbD i) hz
    have h3 : (0xFF00 : Word).getLsbD i = true := by interval_cases i <;> rfl
    rwa [BitVec.getLsbD_and, h3, Bool.and_true, h0] at h
  have hm' : ∀ i, i < 8 → m.getLsbD i = false := by
    intro i h1
    have h := congrArg (fun x : Word => x.getLsbD i) hm
    have h3 : (0x00FF : Word).getLsbD i = true := by interval_cases i <;> rfl
    rwa [BitVec.getLsbD_and, h3, Bool.and_true, h0] at h
  have hlow : ∀ i, i < 8 → (0xFF00 : Word).getLsbD i = false := by intro i h; interval_cases i <;> rfl
  have hhigh : ∀ i, 8 ≤ i → i < 16 → (0xFF00 : Word).getLsbD i = true := by
    intro i h1 h2; interval_cases i <;> rfl
  constructor
  · intro h
    have hb (i : Nat) : (w.getLsbD i && ((0xFF00 : Word).getLsbD i || z.getLsbD i)) = m.getLsbD i := by
      rw [← h, BitVec.getLsbD_and, BitVec.getLsbD_or]
    refine ⟨BitVec.eq_of_getLsbD_eq (fun i hi => ?_), BitVec.eq_of_getLsbD_eq (fun i hi => ?_)⟩
    · have := hb (8 + i)
      rw [hhigh (8 + i) (by omega) (by omega), Bool.true_or, Bool.and_true] at this
      simp only [fieldOp, BitVec.getLsbD_extractLsb', this]
    · rw [BitVec.getLsbD_and, h0]
      by_cases h8 : i < 8
      · have := hb i
        rwa [hlow i h8, Bool.false_or, hm' i h8] at this
      · rw [hz' i (by omega) hi, Bool.and_false]
  · rintro ⟨hop, hw⟩
    refine BitVec.eq_of_getLsbD_eq (fun i hi => ?_)
    rw [BitVec.getLsbD_and, BitVec.getLsbD_or]
    by_cases h8 : i < 8
    · have := congrArg (fun x : Word => x.getLsbD i) hw
      rw [hlow i h8, Bool.false_or, hm' i h8]
      rwa [BitVec.getLsbD_and, h0] at this
    · have := congrArg (fun x : Byte => x.getLsbD (i - 8)) hop
      simp only [fieldOp, BitVec.getLsbD_extractLsb', show i - 8 < 8 by omega, decide_true, Bool.true_and,
        show 8 + (i - 8) = i by omega] at this
      rw [hhigh i (by omega) hi, Bool.true_or, Bool.and_true, this]

/-- A row accepts a word exactly when the opcode is the row's and the bits the row's format does not use are zero. -/
theorem Row.accepts_iff {r : Row} (hr : r ∈ commandRows) (w : Word) :
    r.accepts w = true ↔ fieldOp w = fieldOp r.matchBits ∧ w &&& r.format.zeroBits = 0 := by
  have h : ∀ q ∈ commandRows, q.mask = 0xFF00 ||| q.format.zeroBits ∧ q.format.zeroBits &&& 0xFF00 = 0 ∧
      q.matchBits &&& 0x00FF = 0 := by decide
  obtain ⟨h1, h2, h3⟩ := h r hr
  rw [Row.accepts, beq_iff_eq, h1, and_mask_eq_iff h2 h3]

/-- The opcodes of the rows are the assigned ones, each with its row's format. -/
theorem formatOfOpcode_eq_some_iff (op : Byte) (f : Format) :
    formatOfOpcode op = some f ↔ ∃ r ∈ commandRows, fieldOp r.matchBits = op ∧ r.format = f := by
  revert op f
  have h : ∀ op : Byte, formatOfOpcode op =
      (commandRows.find? (fun r => fieldOp r.matchBits == op)).map Row.format := by decide +kernel
  have hd : ∀ r ∈ commandRows, formatOfOpcode (fieldOp r.matchBits) = some r.format := by decide
  intro op f
  constructor
  · intro hf
    rw [h, Option.map_eq_some_iff] at hf
    obtain ⟨r, hr, rfl⟩ := hf
    exact ⟨r, List.mem_of_find?_eq_some hr, by simpa using List.find?_some hr, rfl⟩
  · rintro ⟨r, hr, rfl, rfl⟩
    exact hd r hr

end Sys2Proof
end

