-- ==== Sys2Proof/Laws/Frames.lean ====
section
/-! SUPPORT. What the frame operations do: a frame that is written is read back, a frame that is read is written back,
and which frames are read (30_encoding.md R97, R98; 45_serializer.md). -/

namespace Sys2Proof.Machine

/-! ### Bit Vector frames (R97, R210, R215) -/

/-- The frame of a canonical Bit Vector is read back as that Bit Vector. -/
theorem parseVectorFrame_vectorFrame {x : BitVector} (h : x.Canonical) : parseVectorFrame (vectorFrame x) = some x := by
  obtain ⟨bytes, value, len⟩ := x
  have hlen : len.val < 8 := h.2
  have h1 : (BitVec.ofNat 8 len.val).toNat = len.val := by
    rw [BitVec.toNat_ofNat]; exact Nat.mod_eq_of_lt (by omega)
  have h2 : lowBitsZero value len.val = true := h.1
  simp only [vectorFrame, List.cons_append, List.nil_append, parseVectorFrame, h1, h2]
  simp [show len.val ≤ 7 by omega]

/-- A frame that is accepted is the frame of the canonical Bit Vector read from it. -/
theorem vectorFrame_of_parse {f : List Byte} {x : BitVector} (h : parseVectorFrame f = some x) :
    x.Canonical ∧ vectorFrame x = f := by
  unfold parseVectorFrame at h
  split at h
  · split at h
    · split at h
      · rename_i tl tv bytes hl hc
        obtain rfl := Option.some.inj h
        exact ⟨⟨hc, by dsimp only; omega⟩, by simp [vectorFrame]⟩
      · cases h
    · cases h
  · cases h

/-! ### Dictionary frames (R98, R220, R225) -/

/-- The pairs written for a list of entries are read back, whatever follows them. -/
theorem readPairs_dictPairs {es : List (Byte × Bits)} (hfit : ∀ e ∈ es, e.2.length ≤ 255) (rest : List Byte) :
    readPairs es.length (dictPairs es ++ rest) = es.map (fun e => (e.1, e.2.length)) := by
  induction es with
  | nil => cases rest <;> simp [readPairs]
  | cons e es ih =>
    have h1 : e.2.length ≤ 255 := hfit e (by simp)
    have h2 : (BitVec.ofNat 8 e.2.length).toNat = e.2.length := by
      rw [BitVec.toNat_ofNat]; exact Nat.mod_eq_of_lt (by omega)
    have := ih (fun d hd => hfit d (by simp [hd]))
    simp only [dictPairs, List.flatMap_cons, List.cons_append, List.nil_append, List.length_cons, readPairs, h2,
      List.map_cons]
    rw [← this]; rfl

theorem dictPairs_length (es : List (Byte × Bits)) : (dictPairs es).length = 2 * es.length := by
  induction es with
  | nil => rfl
  | cons e es ih => simp only [dictPairs, List.flatMap_cons, List.length_append, List.length_cons] at *; simp at *; omega

/-- Splitting the concatenated codes by their lengths gives the entries back. -/
theorem splitCodes_flatMap (es : List (Byte × Bits)) :
    splitCodes (es.map (fun e => (e.1, e.2.length))) (es.flatMap Prod.snd) = es := by
  induction es with
  | nil => rfl
  | cons e es ih => simp [splitCodes, ih]

theorem totalLength_map (es : List (Byte × Bits)) :
    totalLength (es.map (fun e => (e.1, e.2.length))) = (es.flatMap Prod.snd).length := by
  simp only [totalLength, List.map_map, List.length_flatMap]; rfl

theorem pack_completeBytes_length (l : Bits) : (pack l).completeBytes.length = l.length / 8 := by
  have h1 := BitVector.bits_length (pack l)
  have h2 := (pack_canonical l).2
  rw [pack_bits, BitVector.bitLength] at h1
  omega

theorem pack_tail_length (l : Bits) : (pack l).tail.length.val = l.length % 8 := by
  have h1 := BitVector.bits_length (pack l)
  have h2 := (pack_canonical l).2
  rw [pack_bits, BitVector.bitLength] at h1
  omega

/-- The packed region of a bit sequence is accepted for its length. -/
theorem parseRegion_pack (l : Bits) : parseRegion l.length (vectorFrame (pack l)) = some (pack l) := by
  have h := parseVectorFrame_vectorFrame (pack_canonical l)
  have h1 : (BitVec.ofNat 8 (pack l).tail.length.val).toNat = l.length % 8 := by
    rw [BitVec.toNat_ofNat, pack_tail_length]; exact Nat.mod_eq_of_lt (by omega)
  simp only [vectorFrame, List.cons_append, List.nil_append] at h ⊢
  rw [parseRegion, if_pos ⟨pack_completeBytes_length l, h1⟩, h]

/-- The frame of at most 255 entries with different symbols is read back as the table of those entries. -/
theorem parseDictFrame_dictFrame {es : List (Byte × Bits)} (hn : (es.map Prod.fst).Nodup) (hlen : es.length ≤ 255)
    (hfit : ∀ e ∈ es, e.2.length ≤ 255) : parseDictFrame (dictFrame es) = some (Lut.ofEntries es) := by
  have h1 : (BitVec.ofNat 8 es.length).toNat = es.length := by
    rw [BitVec.toNat_ofNat]; exact Nat.mod_eq_of_lt (by omega)
  have h2 := dictPairs_length es
  have h3 : (vectorFrame (pack (es.flatMap Prod.snd))).length ≥ 2 := by simp [vectorFrame]
  have h4 : (dictPairs es ++ vectorFrame (pack (es.flatMap Prod.snd))).drop (2 * es.length) =
      vectorFrame (pack (es.flatMap Prod.snd)) := by rw [← h2, List.drop_left]
  simp only [dictFrame, List.cons_append, List.nil_append, parseDictFrame, h1, readPairs_dictPairs hfit, totalLength_map,
    h4, parseRegion_pack, List.map_map]
  rw [if_neg (by rw [List.length_append]; omega), if_neg (by simpa [Function.comp_def] using hn), pack_bits,
    splitCodes_flatMap]

theorem readPairs_eq (n : Nat) {body : List Byte} (h : 2 * n ≤ body.length) :
    readPairs n body = (List.range n).map (fun i => (body.getD (2 * i) 0, (body.getD (2 * i + 1) 0).toNat)) := by
  induction n generalizing body with
  | zero => rfl
  | succ n ih =>
    match body, h with
    | sym :: len :: rest, h =>
      rw [readPairs, ih (by simp at h; omega), List.range_succ_eq_map, List.map_cons, List.map_map]
      congr 1
    | [_], h => simp at h; omega
    | [], h => simp at h

/-- The pairs of a frame, by byte position (R225). -/
theorem readPairs_frame {count : Byte} {body : List Byte} (h : 2 * count.toNat ≤ body.length) :
    readPairs count.toNat body =
      (List.range count.toNat).map (fun i => (frameSym (count :: body) i, frameLen (count :: body) i)) := by
  rw [readPairs_eq _ h]
  refine List.map_congr_left (fun i _ => ?_)
  simp only [frameSym, frameLen, show 1 + 2 * i = 2 * i + 1 by omega, show 2 + 2 * i = 2 * i + 1 + 1 by omega,
    List.getD_cons_succ]

/-- Splitting a region by lengths: each code stands at the sum of the lengths before it (R225). -/
theorem splitCodes_range (n : Nat) (sym : Nat → Byte) (len : Nat → Nat) (region : Bits) :
    splitCodes ((List.range n).map (fun i => (sym i, len i))) region =
      (List.range n).map (fun i => (sym i, (region.drop ((List.range i).map len).sum).take (len i))) := by
  induction n generalizing sym len region with
  | zero => rfl
  | succ n ih =>
    rw [List.range_succ_eq_map, List.map_cons, List.map_map, List.map_cons, List.map_map, splitCodes,
      show (fun i => (sym i, len i)) ∘ Nat.succ = fun i => (sym (i + 1), len (i + 1)) from rfl,
      ih (fun i => sym (i + 1)) (fun i => len (i + 1))]
    congr 1
    refine List.map_congr_left (fun i _ => ?_)
    simp only [Function.comp_apply, Nat.succ_eq_add_one, List.drop_drop, List.range_succ_eq_map, List.map_cons,
      List.map_map, List.sum_cons]
    rfl

theorem Acc.bits_eq_take (value : Byte) (n : Nat) (h : n < 9) :
    (⟨value, ⟨n, h⟩⟩ : Acc).bits = (byteBits value).take n := by
  rw [Acc.bits, byteBits, ← List.map_take, List.take_range, Nat.min_eq_left (by omega)]

/-- The packed region of a frame of total length T: which are accepted, and the bits they hold (R225). -/
theorem parseRegion_eq (total : Nat) (tl tv : Byte) (bytes : List Byte) :
    (parseRegion total (tl :: tv :: bytes)).map BitVector.bits =
      if bytes.length = total / 8 ∧ tl.toNat = total % 8 ∧ tv <<< tl.toNat = 0 then
        some (bytes.flatMap byteBits ++ (byteBits tv).take (total % 8)) else none := by
  rw [parseRegion]
  by_cases h : bytes.length = total / 8 ∧ tl.toNat = total % 8
  · have h7 : tl.toNat ≤ 7 := by omega
    rw [if_pos h, parseVectorFrame, dif_pos h7]
    by_cases hc : tv <<< tl.toNat = 0
    · rw [if_pos (by simp [lowBitsZero, hc]), if_pos ⟨h.1, h.2, hc⟩, Option.map_some, BitVector.bits,
        Acc.bits_eq_take, ← h.2]
    · rw [if_neg (by simpa [lowBitsZero] using hc), if_neg (fun hh => hc hh.2.2), Option.map_none]
  · rw [if_neg h, if_neg (fun hh => h ⟨hh.1, hh.2.1⟩), Option.map_none]

/-- The entries a frame spells (R225). -/
def frameEntries (f : List Byte) : List (Byte × Bits) :=
  (List.range (frameCount f)).map (fun i => (frameSym f i, frameCode f i))

theorem frameSyms_nodup_iff (f : List Byte) :
    ((List.range (frameCount f)).map (frameSym f)).Nodup ↔
      ∀ i k, i < frameCount f → k < frameCount f → i ≠ k → frameSym f i ≠ frameSym f k := by
  rw [List.nodup_map_iff_inj_on List.nodup_range]
  simp only [List.mem_range]
  exact ⟨fun h i k hi hk hne he => hne (h i hi k hk he), fun h i hi k hk he => by
    by_contra hne; exact h i k hi hk hne he⟩

/-- What DES.DICT reads: the table of the entries a frame spells exactly when it passes the tests of R225. -/
theorem parseDictFrame_eq (f : List Byte) :
    (DictFrameWf f → parseDictFrame f = some (Lut.ofEntries (frameEntries f))) ∧
      (¬ DictFrameWf f → parseDictFrame f = none) := by
  cases f with
  | nil => exact ⟨fun h => absurd h.1 (by simp), fun _ => rfl⟩
  | cons count body =>
    have hcount : frameCount (count :: body) = count.toNat := rfl
    have hreg : frameRegion (count :: body) = 2 * count.toNat + 1 := by rw [frameRegion, hcount]; omega
    rw [parseDictFrame]
    by_cases hlen : body.length < 2 * count.toNat + 2
    · rw [if_pos hlen]
      refine ⟨fun h => ?_, fun _ => rfl⟩
      have := h.2.1
      rw [hreg, List.length_cons] at this; omega
    · have hp := readPairs_frame (count := count) (body := body) (by omega)
      have hps : (readPairs count.toNat body).map Prod.fst =
          (List.range (frameCount (count :: body))).map (frameSym (count :: body)) := by
        rw [hp, List.map_map]; rfl
      have htot : totalLength (readPairs count.toNat body) =
          frameOffset (count :: body) (frameCount (count :: body)) := by
        rw [hp, totalLength, List.map_map]; rfl
      rw [if_neg hlen, hps, htot]
      by_cases hn : ((List.range (frameCount (count :: body))).map (frameSym (count :: body))).Nodup
      · rw [if_neg (not_not.2 hn)]
        obtain ⟨tl, tv, bytes, hd⟩ : ∃ tl tv bytes, body.drop (2 * count.toNat) = tl :: tv :: bytes := by
          match hm : body.drop (2 * count.toNat) with
          | tl :: tv :: bytes => exact ⟨tl, tv, bytes, rfl⟩
          | [_] => have := congrArg List.length hm; simp at this; omega
          | [] => have := congrArg List.length hm; simp at this; omega
        have hg (k : Nat) : (count :: body).getD (frameRegion (count :: body) + k) 0 = (tl :: tv :: bytes).getD k 0 := by
          rw [← hd, hreg, show 2 * count.toNat + 1 + k = 2 * count.toNat + k + 1 by omega, List.getD_cons_succ,
            List.getD_eq_getElem?_getD, List.getD_eq_getElem?_getD, List.getElem?_drop]
        have htl : (count :: body).getD (frameRegion (count :: body)) 0 = tl := hg 0
        have htv : (count :: body).getD (frameRegion (count :: body) + 1) 0 = tv := hg 1
        have hbytes : (count :: body).drop (frameRegion (count :: body) + 2) = bytes := by
          rw [hreg, List.drop_succ_cons, ← List.drop_drop, hd]; rfl
        have hl : (count :: body).length = frameRegion (count :: body) + 2 + bytes.length := by
          have := congrArg List.length hd
          rw [List.length_drop, List.length_cons, List.length_cons] at this
          rw [hreg, List.length_cons]; omega
        have hr := parseRegion_eq (frameOffset (count :: body) (frameCount (count :: body))) tl tv bytes
        have hwf : DictFrameWf (count :: body) ↔
            bytes.length = frameOffset (count :: body) (frameCount (count :: body)) / 8 ∧
            tl.toNat = frameOffset (count :: body) (frameCount (count :: body)) % 8 ∧ tv <<< tl.toNat = 0 := by
          rw [DictFrameWf, htl, htv, hl, ← frameSyms_nodup_iff]
          constructor
          · rintro ⟨_, h2, _, h4, h5⟩; exact ⟨by omega, h4, h5⟩
          · rintro ⟨h2, h4, h5⟩; exact ⟨by omega, by omega, hn, h4, h5⟩
        rw [hd]
        refine ⟨fun h => ?_, fun h => ?_⟩
        · rw [if_pos (hwf.1 h)] at hr
          obtain ⟨region, hreg', hbits⟩ := Option.map_eq_some_iff.1 hr
          rw [hreg', frameEntries, hp]
          dsimp only
          rw [splitCodes_range, hbits]
          simp only [hcount, frameCode, frameBits, frameOffset, hbytes, htv]
        · rw [if_neg (fun hh => h (hwf.2 hh))] at hr
          rw [Option.map_eq_none_iff.1 hr]
      · rw [if_pos hn]
        exact ⟨fun h => absurd ((frameSyms_nodup_iff _).2 h.2.2.1) hn, fun _ => rfl⟩

/-! ### Writing back what was read (R226) -/

theorem flatMap_slices (l : Bits) (len : Nat → Nat) (n : Nat) :
    (List.range n).flatMap (fun i => (l.drop ((List.range i).map len).sum).take (len i)) =
      l.take ((List.range n).map len).sum := by
  induction n with
  | zero => simp
  | succ n ih =>
    rw [List.range_succ, List.flatMap_append, ih, List.map_append, List.sum_append, List.take_add]
    simp

theorem flatMap_pairs (l : List Byte) (n : Nat) (h : 2 * n ≤ l.length) :
    (List.range n).flatMap (fun i => [l.getD (2 * i) 0, l.getD (2 * i + 1) 0]) = l.take (2 * n) := by
  induction n with
  | zero => simp
  | succ n ih =>
    rw [List.range_succ, List.flatMap_append, ih (by omega), show 2 * (n + 1) = 2 * n + 1 + 1 by omega,
      List.take_add_one, List.take_add_one, List.append_assoc]
    simp [List.getElem?_eq_getElem (show 2 * n < l.length by omega),
      List.getElem?_eq_getElem (show 2 * n + 1 < l.length by omega)]

/-- The packed region of a well-formed frame holds exactly T bits. -/
theorem frameBits_length {f : List Byte} (h : DictFrameWf f) :
    (frameBits f).length = frameOffset f (frameCount f) := by
  have h2 := h.2.1
  rw [frameBits, List.length_append, flatMap_byteBits_length, List.length_drop, List.length_take, byteBits_length]
  omega

theorem frameOffset_add_le (f : List Byte) {i n : Nat} (h : i < n) : frameOffset f i + frameLen f i ≤ frameOffset f n := by
  induction n with
  | zero => omega
  | succ n ih =>
    have hs : frameOffset f (n + 1) = frameOffset f n + frameLen f n := by simp [frameOffset, List.range_succ]
    by_cases hi : i = n
    · rw [hi, hs]
    · have := ih (by omega); omega

/-- In a well-formed frame each code has the length its pair announces. -/
theorem frameCode_length {f : List Byte} (h : DictFrameWf f) {i : Nat} (hi : i < frameCount f) :
    (frameCode f i).length = frameLen f i := by
  have h1 := frameOffset_add_le f hi
  rw [frameCode, List.length_take, List.length_drop, frameBits_length h]
  omega

theorem frameEntries_keys_nodup {f : List Byte} (h : DictFrameWf f) : ((frameEntries f).map Prod.fst).Nodup := by
  rw [frameEntries, List.map_map]
  exact (frameSyms_nodup_iff f).2 h.2.2.1

theorem frameCount_le (f : List Byte) : frameCount f ≤ 255 := by
  have := (f.getD 0 0).isLt; rw [frameCount]; omega

/-- The frame of the entries a well-formed frame spells is that frame. -/
theorem dictFrame_frameEntries {f : List Byte} (h : DictFrameWf f) : dictFrame (frameEntries f) = f := by
  have hlen := h.2.1
  have hbits : (frameEntries f).flatMap Prod.snd = frameBits f := by
    rw [frameEntries, List.flatMap_map]
    exact (flatMap_slices _ _ _).trans (by
      rw [show ((List.range (frameCount f)).map (frameLen f)).sum = (frameBits f).length from (frameBits_length h).symm,
        List.take_length])
  have hpairs : dictPairs (frameEntries f) = (f.drop 1).take (2 * frameCount f) := by
    rw [← flatMap_pairs _ _ (by rw [List.length_drop, hlen, frameRegion]; omega), dictPairs, frameEntries,
      List.flatMap_map]
    refine List.flatMap_congr (fun i hi => ?_)
    have hc := frameCode_length h (List.mem_range.1 hi)
    simp only [hc, frameSym, frameLen, BitVec.ofNat_toNat, BitVec.setWidth_eq, List.getD_eq_getElem?_getD,
      List.getElem?_drop]
    congr 4; omega
  have hd : f.drop (frameRegion f) =
      f.getD (frameRegion f) 0 :: f.getD (frameRegion f + 1) 0 :: f.drop (frameRegion f + 2) := by
    rw [List.drop_eq_getElem_cons (show frameRegion f < f.length by omega),
      List.drop_eq_getElem_cons (show frameRegion f + 1 < f.length by omega)]
    simp [List.getElem?_eq_getElem (show frameRegion f < f.length by omega),
      List.getElem?_eq_getElem (show frameRegion f + 1 < f.length by omega)]
  have hregion : vectorFrame (pack (frameBits f)) = f.drop (frameRegion f) := by
    have hr := parseRegion_eq (frameOffset f (frameCount f)) (f.getD (frameRegion f) 0) (f.getD (frameRegion f + 1) 0)
      (f.drop (frameRegion f + 2))
    rw [if_pos ⟨by rw [List.length_drop]; omega, h.2.2.2⟩, ← hd] at hr
    obtain ⟨region, hp, hb⟩ := Option.map_eq_some_iff.1 hr
    rw [hd, parseRegion] at hp
    split at hp
    · have := vectorFrame_of_parse hp
      rw [← hd] at this
      rw [← this.2, BitVector.eq_pack this.1 hb, frameBits]
    · cases hp
  have hcount : [BitVec.ofNat 8 (frameEntries f).length] = f.take 1 := by
    match f, h.1 with
    | count :: body, _ =>
      simp [frameEntries, frameCount]
  rw [dictFrame, hbits, hpairs, hregion, hcount, frameRegion, List.append_assoc,
    show f.drop (1 + 2 * frameCount f) = (f.drop 1).drop (2 * frameCount f) by rw [List.drop_drop],
    List.take_append_drop, List.take_append_drop]

/-- A frame that SER.DICT can write is well formed, and its pairs stand in the order of the entries. -/
theorem dictFrame_wf {es : List (Byte × Bits)} (hn : (es.map Prod.fst).Nodup) (hlen : es.length ≤ 255)
    (hfit : ∀ e ∈ es, e.2.length ≤ 255) :
    DictFrameWf (dictFrame es) ∧ frameCount (dictFrame es) = es.length ∧
      (List.range es.length).map (frameSym (dictFrame es)) = es.map Prod.fst := by
  have hp := parseDictFrame_dictFrame hn hlen hfit
  have hcount : (BitVec.ofNat 8 es.length).toNat = es.length := by
    rw [BitVec.toNat_ofNat]; exact Nat.mod_eq_of_lt (by omega)
  refine ⟨?_, hcount, ?_⟩
  · by_contra h
    rw [(parseDictFrame_eq _).2 h] at hp
    cases hp
  · have hr := readPairs_frame (count := BitVec.ofNat 8 es.length)
      (body := dictPairs es ++ vectorFrame (pack (es.flatMap Prod.snd)))
      (by rw [hcount, List.length_append, dictPairs_length]; omega)
    rw [hcount, readPairs_dictPairs hfit] at hr
    have := congrArg (List.map Prod.fst) hr
    rw [List.map_map, List.map_map] at this
    exact this.symm

/-- The entries a frame spells are those the table read from it holds. -/
theorem mem_frameEntries {f : List Byte} (h : DictFrameWf f) {table : Lut} (hp : parseDictFrame f = some table)
    (sym : Byte) (code : Bits) : (sym, code) ∈ frameEntries f ↔ table.get sym = some code := by
  rw [(parseDictFrame_eq f).1 h] at hp
  obtain rfl := Option.some.inj hp
  exact (Lut.get_ofEntries (frameEntries_keys_nodup h) sym code).symm

end Sys2Proof.Machine
end

