-- ==== Sys2Proof/Laws/PerInstr.lean ====
section
/-! SUPPORT. What holds of every command as syntax, one lemma per constructor: its word passes the two checks of
R91 and R92, carries the command's opcode, and that opcode's format is the command's. -/

namespace Sys2Proof.Laws

/-- The word of a command is well formed, its opcode field is the command's opcode, and the opcode's format is the
command's format (R80, R81, R91, R92). -/
def WordShape.Statement (i : Instr) : Prop :=
  wordWellFormed (encode i) = true ∧ fieldOp (encode i) = i.opcode ∧ formatOfOpcode i.opcode = some i.format ∧
    encode i &&& i.format.zeroBits = 0

theorem WordShape.accClr : WordShape.Statement .accClr := by
  unfold WordShape.Statement; decide
theorem WordShape.accAppb (b : Bool) : WordShape.Statement (.accAppb b) := by
  unfold WordShape.Statement; revert b; decide
theorem WordShape.accParse : WordShape.Statement .accParse := by
  unfold WordShape.Statement; decide
theorem WordShape.accText : WordShape.Statement .accText := by
  unfold WordShape.Statement; decide
theorem WordShape.bvClr (v : VReg) : WordShape.Statement (.bvClr v) := by
  unfold WordShape.Statement; revert v; decide
theorem WordShape.bvAppb (vd : VReg) (b : Bool) : WordShape.Statement (.bvAppb vd b) := by
  unfold WordShape.Statement; revert vd b; decide
theorem WordShape.bvAppa (vd : VReg) : WordShape.Statement (.bvAppa vd) := by
  unfold WordShape.Statement; revert vd; decide
theorem WordShape.bvAppv (vd vs : VReg) : WordShape.Statement (.bvAppv vd vs) := by
  unfold WordShape.Statement; revert vd vs; decide
theorem WordShape.bvLen (v : VReg) : WordShape.Statement (.bvLen v) := by
  unfold WordShape.Statement; revert v; decide
theorem WordShape.bvParse (vd : VReg) : WordShape.Statement (.bvParse vd) := by
  unfold WordShape.Statement; revert vd; decide
theorem WordShape.bvIter (v : VReg) : WordShape.Statement (.bvIter v) := by
  unfold WordShape.Statement; revert v; decide
theorem WordShape.bvNext : WordShape.Statement .bvNext := by
  unfold WordShape.Statement; decide
theorem WordShape.hufBuild : WordShape.Statement .hufBuild := by
  unfold WordShape.Statement; decide
theorem WordShape.hufMap (vd : VReg) : WordShape.Statement (.hufMap vd) := by
  unfold WordShape.Statement; revert vd; decide
theorem WordShape.hufEncode (vd : VReg) : WordShape.Statement (.hufEncode vd) := by
  unfold WordShape.Statement; revert vd; decide
theorem WordShape.hufDecode (vs : VReg) : WordShape.Statement (.hufDecode vs) := by
  unfold WordShape.Statement; revert vs; decide
theorem WordShape.serBv (v : VReg) : WordShape.Statement (.serBv v) := by
  unfold WordShape.Statement; revert v; decide
theorem WordShape.desBv (vd : VReg) : WordShape.Statement (.desBv vd) := by
  unfold WordShape.Statement; revert vd; decide
theorem WordShape.serDict : WordShape.Statement .serDict := by
  unfold WordShape.Statement; decide
theorem WordShape.desDict : WordShape.Statement .desDict := by
  unfold WordShape.Statement; decide
theorem WordShape.inClr : WordShape.Statement .inClr := by
  unfold WordShape.Statement; decide
theorem WordShape.inPush (imm8 : Byte) : WordShape.Statement (.inPush imm8) := by
  unfold WordShape.Statement; revert imm8; decide +kernel
theorem WordShape.ioXfer : WordShape.Statement .ioXfer := by
  unfold WordShape.Statement; decide

end Sys2Proof.Laws
end

