-- ==== Sys2Proof/Tests/Slice0.lean ====
section
/-! SUPPORT. Tests: the WellFormed smoke test, words written out from the encodings of 30_encoding.md, single steps
with the results of 95_test_vectors.md and R137, and a witness for the hypotheses of every statement. -/

namespace Sys2Proof.Tests

open Sys2Proof Sys2Proof.Machine

/-! ### Small states -/

/-- Whether an outcome is a next state with a property. -/
def nextIs (o : Host.Outcome State Fault Refusal) (p : State → Bool) : Bool :=
  match o with
  | .next t => p t
  | .fault _ => false
  | .refused _ => false

theorem next_with {o : Host.Outcome State Fault Refusal} (q : State → Prop) [DecidablePred q]
    (h : nextIs o (fun t => decide (q t)) = true) : ∃ t, o = .next t ∧ q t := by
  cases o with
  | next t => exact ⟨t, rfl, of_decide_eq_true h⟩
  | fault r => cases r
  | refused r => cases h

/-- The reset state with an accumulator. -/
def accState (value : Byte) (length : Fin 9) : State := { State.reset with acc := ⟨value, length⟩ }

/-- A Bit Vector in the notation of 95_test_vectors.md: complete bytes, tail value, tail length. -/
def vec (bytes : List Byte) (value : Byte) (length : Fin 9) : BitVector := ⟨bytes, ⟨value, length⟩⟩

/-- The reset state with one bit-vector register set. -/
def vecState (r : VReg) (x : BitVector) : State := State.reset.setV r x

/-- The reset state with a content of IN. -/
def inState (bs : List Byte) : State := State.reset.setIn (Memory.ofBytes bs)

/-- The reset state with a table. -/
def lutState (es : List (Byte × Bits)) : State := State.reset.setLut (Lut.ofEntries es)

/-- The entries of the table of `AABAC` (R170): A `1`, B `00`, C `01`. -/
def scenario : List (Byte × Bits) := [(0x41, [true]), (0x42, [false, false]), (0x43, [false, true])]

/-- The bytes of `AABAC`. -/
def scenarioText : List Byte := [0x41, 0x41, 0x42, 0x41, 0x43]

/-- The state with the table that HUF.BUILD makes of `AABAC`, and a register v0. -/
def builtState (x : BitVector) : State := (State.reset.setLut (buildTable scenarioText)).setV 0 x

/-- R170: the table HUF.BUILD makes of `AABAC`. -/
theorem builtState_entries (x : BitVector) : (builtState x).lut.entries = scenario :=
  (by decide +kernel : (buildTable scenarioText).entries = scenario)

theorem builtState_codes (x : BitVector) :
    (builtState x).lut.get 0x41 = some [true] ∧ (builtState x).lut.get 0x42 = some [false, false] := by
  rw [← Lut.mem_entries, ← Lut.mem_entries, builtState_entries]; decide

/-- Halted as R256 says. -/
def isHalted (t : State) : Bool := t.res == 2 && t.halt && t.hcause == 2

/-- Whether a table has exactly the given entries, as many and each with its code. -/
def hasEntries (t : Lut) (es : List (Byte × Bits)) : Bool :=
  t.toList.countP Option.isSome == es.length && es.all (fun e => t.get e.1 == some e.2)

/-! ### WellFormed smoke (R91, R92) -/

/-- Check 1 refuses 0x5300 (unassigned opcode), and with it the whole check. -/
theorem test_unassigned_opcode_is_ill_formed : opcodeAssigned 0x5300 = false ∧ wordWellFormed 0x5300 = false := by
  decide

/-- Check 2 refuses 0x1101 (bit 0 of ACC.APPB must be zero) although check 1 passes. -/
theorem test_unused_bit_is_ill_formed :
    opcodeAssigned 0x1101 = true ∧ unusedBitsZero 0x1101 = false ∧ wordWellFormed 0x1101 = false := by decide

/-- A word with every operand bit of its format set passes both checks (R81). -/
theorem test_operand_bits_are_well_formed :
    wordWellFormed 0x1110 = true ∧ wordWellFormed 0x2113 = true ∧ wordWellFormed 0x230F = true ∧
      wordWellFormed 0x2003 = true ∧ wordWellFormed 0x51FF = true := by decide

/-! ### Decoding (R80 to R93; the words from the Encoding lines of R110 to R242 and 95_test_vectors.md) -/

theorem test_decode_accumulator :
    decode 0b0001000000000000 = .ok .accClr ∧ decode 0b0001000100010000 = .ok (.accAppb true) ∧
    decode 0b0001000100000000 = .ok (.accAppb false) ∧ decode 0b0001001000000000 = .ok .accParse ∧
    decode 0b0001001100000000 = .ok .accText := by decide

theorem test_decode_vector :
    decode 0b0010000000000001 = .ok (.bvClr 1) ∧ decode 0b0010000100010010 = .ok (.bvAppb 2 true) ∧
    decode 0b0010001000000011 = .ok (.bvAppa 3) ∧ decode 0b0010001100001101 = .ok (.bvAppv 1 3) ∧
    decode 0b0010001100000001 = .ok (.bvAppv 1 0) ∧ decode 0b0010001100000100 = .ok (.bvAppv 0 1) ∧
    decode 0b0010010000000001 = .ok (.bvLen 1) ∧ decode 0b0010010100000010 = .ok (.bvParse 2) ∧
    decode 0b0010011000000000 = .ok (.bvIter 0) ∧ decode 0b0010011100000000 = .ok .bvNext := by decide

theorem test_decode_huffman :
    decode 0b0011000000000000 = .ok .hufBuild ∧ decode 0b0011000100000011 = .ok (.hufMap 3) ∧
    decode 0b0011001000000010 = .ok (.hufEncode 2) ∧ decode 0b0011001100000001 = .ok (.hufDecode 1) := by decide

theorem test_decode_serializer :
    decode 0b0100000000000010 = .ok (.serBv 2) ∧ decode 0b0100000100000001 = .ok (.desBv 1) ∧
    decode 0b0100001000000000 = .ok .serDict ∧ decode 0b0100001100000000 = .ok .desDict := by decide

theorem test_decode_data_movement :
    decode 0b0101000000000000 = .ok .inClr ∧ decode 0b0101000101000001 = .ok (.inPush 0x41) ∧
    decode 0b0101001000000000 = .ok .ioXfer := by decide

/-- The rows of R88 agree with the formats of R81: each mask is the complement of the operand bits, and each match
holds only the opcode. -/
theorem test_rows_agree_with_formats :
    commandRows.all (fun r => formatOfOpcode (fieldOp r.matchBits) == some r.format &&
      r.mask == (0xFF00 ||| r.format.zeroBits) && r.matchBits &&& 0x00FF == 0) = true := by decide

/-- No two rows accept the same word: their matches differ in a bit both masks test (R88). -/
theorem test_rows_are_disjoint :
    commandRows.Pairwise (fun r q => (r.matchBits ^^^ q.matchBits) &&& r.mask &&& q.mask ≠ 0) := by decide

/-- A table word runs as the first command after reset. -/
theorem test_fetch_word_runs :
    nextIs (step (State.reset.withFetchWord 16 0x51FF)) (fun t => t.inBytes == [0xFF] && t.pending == []) = true := by
  decide

/-! ### Single steps: accumulator (95_test_vectors.md 2.1) -/

theorem test_acc_clr : nextIs (exec .accClr (accState 0xCA 8)) (fun t => t.acc == ⟨0x00, 0⟩) = true := by decide
theorem test_acc_appb : nextIs (exec (.accAppb true) (accState 0xA0 3)) (fun t => t.acc == ⟨0xB0, 4⟩) = true := by
  decide
theorem test_acc_appb_full :
    nextIs (exec (.accAppb true) (accState 0xCA 8)) (fun t => isHalted t && t.acc == ⟨0xCA, 8⟩) = true := by decide
theorem test_acc_parse :
    nextIs (exec .accParse (inState [0x31, 0x30, 0x31, 0x31])) (fun t => t.acc == ⟨0xB0, 4⟩) = true := by decide
/-- The character is tested before the capacity: a ninth bad character is FormatError (D19). -/
theorem test_acc_parse_bad_ninth :
    nextIs (exec .accParse (inState [0x30, 0x30, 0x30, 0x30, 0x30, 0x30, 0x30, 0x30, 0x78]))
      (fun t => t.res == 1 && !t.halt) = true := by decide
theorem test_acc_text :
    nextIs (exec .accText (accState 0xCA 7))
      (fun t => t.outBytes == [0x31, 0x31, 0x30, 0x30, 0x31, 0x30, 0x31]) = true := by decide

/-! ### Single steps: Bit Vectors (R137; 95_test_vectors.md 2.2) -/

/-- The ten rows of R137. -/
theorem test_append_acc_table :
    (vec [] 0x00 0).appendAcc ⟨0x00, 0⟩ = vec [] 0x00 0 ∧ (vec [] 0x00 0).appendAcc ⟨0xE0, 3⟩ = vec [] 0xE0 3 ∧
    (vec [] 0x00 0).appendAcc ⟨0xA5, 8⟩ = vec [0xA5] 0x00 0 ∧ (vec [] 0xA0 3).appendAcc ⟨0xC0, 2⟩ = vec [] 0xB8 5 ∧
    (vec [] 0xA0 3).appendAcc ⟨0xF8, 5⟩ = vec [0xBF] 0x00 0 ∧ (vec [] 0xA0 3).appendAcc ⟨0xFF, 8⟩ = vec [0xBF] 0xE0 3 ∧
    (vec [] 0xFE 7).appendAcc ⟨0x80, 1⟩ = vec [0xFF] 0x00 0 ∧ (vec [] 0xFE 7).appendAcc ⟨0xFF, 8⟩ = vec [0xFF] 0xFE 7 ∧
    (vec [] 0xFE 7).appendAcc ⟨0x00, 0⟩ = vec [] 0xFE 7 ∧ (vec [] 0x80 1).appendAcc ⟨0x00, 7⟩ = vec [0x80] 0x00 0 := by
  decide

theorem test_bv_clr :
    nextIs (exec (.bvClr 1) (vecState 1 (vec [0xA5] 0x80 1))) (fun t => t.getV 1 == vec [] 0x00 0) = true := by
  decide
theorem test_bv_appb :
    nextIs (exec (.bvAppb 0 true) (vecState 0 (vec [0xA5] 0x00 0))) (fun t => t.getV 0 == vec [0xA5] 0x80 1) = true := by
  decide
theorem test_bv_appb_flushes :
    nextIs (exec (.bvAppb 0 false) (vecState 0 (vec [] 0xFE 7))) (fun t => t.getV 0 == vec [0xFE] 0x00 0) = true := by
  decide
theorem test_bv_appa :
    nextIs (exec (.bvAppa 0) ((accState 0xFF 8).setV 0 (vec [] 0xA0 3)))
      (fun t => t.getV 0 == vec [0xBF] 0xE0 3 && t.acc == ⟨0xFF, 8⟩) = true := by decide
theorem test_bv_appv :
    nextIs (exec (.bvAppv 0 1) ((vecState 0 (vec [] 0xA0 3)).setV 1 (vec [0xFF] 0x80 1)))
      (fun t => t.getV 0 == vec [0xBF] 0xF0 4 && t.getV 1 == vec [0xFF] 0x80 1) = true := by decide
/-- Self-append doubles the register (D17). -/
theorem test_bv_appv_self :
    nextIs (exec (.bvAppv 0 0) (vecState 0 (vec [0xA5] 0x80 1))) (fun t => t.getV 0 == vec [0xA5, 0xD2] 0xC0 2) = true := by
  decide
theorem test_bv_len : nextIs (exec (.bvLen 1) (vecState 1 (vec [0xA5] 0x80 1))) (fun t => t.len == 9) = true := by
  decide
theorem test_bv_parse :
    nextIs (exec (.bvParse 0) (inState [0x31, 0x30, 0x31, 0x30, 0x30, 0x31, 0x30, 0x31, 0x31]))
      (fun t => t.getV 0 == vec [0xA5] 0x80 1) = true := by decide
theorem test_bv_parse_bad :
    nextIs (exec (.bvParse 0) (inState [0x31, 0x30, 0x61])) (fun t => t.res == 1 && t.getV 0 == vec [] 0x00 0) = true := by
  decide
theorem test_bv_iter :
    nextIs (exec (.bvIter 0) (vecState 0 (vec [] 0xA0 3)))
      (fun t => t.itRem == [true, false, true] && t.getV 0 == vec [] 0x00 0) = true := by decide
theorem test_bv_next :
    nextIs (exec .bvNext { State.reset with itRem := [true, false, true] })
      (fun t => t.bit && t.bitv && t.itRem == [false, true]) = true := by decide
theorem test_bv_next_at_the_end :
    nextIs (exec .bvNext State.reset) (fun t => !t.bit && !t.bitv && t.res == 0) = true := by decide

/-! ### Single steps: tree, encoder, decoder (95_test_vectors.md 2.3, 2.4) -/

/-- `AABBC`: A `11`, B `0`, C `10`. -/
theorem test_huf_build :
    nextIs (exec .hufBuild (inState [0x41, 0x41, 0x42, 0x42, 0x43]))
      (fun t => hasEntries t.lut [(0x41, [true, true]), (0x42, [false]), (0x43, [true, false])]) = true := by decide +kernel
/-- `ABCD`, where two internal nodes tie (D11): A `00`, B `01`, C `10`, D `11`. -/
theorem test_huf_build_ties :
    nextIs (exec .hufBuild (inState [0x41, 0x42, 0x43, 0x44]))
      (fun t => hasEntries t.lut [(0x41, [false, false]), (0x42, [false, true]), (0x43, [true, false]),
        (0x44, [true, true])]) = true := by decide +kernel
theorem test_huf_map :
    nextIs (exec (.hufMap 0) ((lutState scenario).setIn (Memory.ofBytes scenarioText)))
      (fun t => t.getV 0 == vec [] 0xCA 7) = true := by decide
theorem test_huf_map_miss :
    nextIs (exec (.hufMap 0) ((lutState scenario).setIn (Memory.ofBytes [0x41, 0x44])))
      (fun t => isHalted t && t.getV 0 == vec [] 0x00 0) = true := by decide
/-- `AABC`: `001011` (D11). -/
theorem test_huf_encode :
    nextIs (exec (.hufEncode 0) (inState [0x41, 0x41, 0x42, 0x43])) (fun t => t.getV 0 == vec [] 0x2C 6) = true := by
  decide
theorem test_huf_decode :
    nextIs (exec (.hufDecode 0) (builtState (vec [] 0xCA 7)))
      (fun t => t.outBytes == scenarioText && t.getV 0 == vec [] 0x00 0) = true := by
  rw [exec_hufDecode_ok rfl (out := scenarioText) (by rw [decodeBits, builtState_entries]; decide)]; decide
theorem test_huf_decode_truncated :
    nextIs (exec (.hufDecode 0) (builtState (vec [] 0xC8 6)))
      (fun t => t.res == 3 && t.outBytes == [] && t.getV 0 == vec [] 0x00 0) = true := by
  rw [exec_hufDecode_error rfl (e := .trunc) (by rw [decodeBits, builtState_entries]; decide)]; decide

/-! ### Single steps: serializer, data movement (95_test_vectors.md 2.5; R240 to R242) -/

theorem test_ser_bv :
    nextIs (exec (.serBv 0) (vecState 0 (vec [0x6E, 0x8A] 0xDC 7)))
      (fun t => t.outBytes == [0x07, 0xDC, 0x6E, 0x8A]) = true := by decide
theorem test_des_bv :
    nextIs (exec (.desBv 1) (inState [0x01, 0x80, 0xA5])) (fun t => t.getV 1 == vec [0xA5] 0x80 1) = true := by
  decide
theorem test_des_bv_malformed :
    nextIs (exec (.desBv 1) (inState [0x01, 0xC0])) (fun t => t.res == 6 && t.getV 1 == vec [] 0x00 0) = true := by
  decide
theorem test_ser_dict :
    nextIs (exec .serDict (builtState BitVector.empty))
      (fun t => t.outBytes == [0x03, 0x41, 0x01, 0x42, 0x02, 0x43, 0x02, 0x05, 0x88]) = true := by
  rw [exec_eq_runCommand, runCommand, commandWork, serDictWork, State.nLut, builtState_entries]; decide
/-- Pairs in descending order are accepted: B `1`, A `0`. -/
theorem test_des_dict :
    nextIs (exec .desDict (inState [0x02, 0x42, 0x01, 0x41, 0x01, 0x02, 0x80]))
      (fun t => hasEntries t.lut [(0x41, [false]), (0x42, [true])]) = true := by decide +kernel
theorem test_des_dict_malformed :
    nextIs (exec .desDict (inState [0x02, 0x41, 0x01, 0x41, 0x01, 0x02, 0x00])) (fun t => t.res == 6) = true := by
  decide
theorem test_in_clr : nextIs (exec .inClr (inState [0x41])) (fun t => t.inBytes == [] && t.inLen == 0) = true := by
  decide
theorem test_in_push :
    nextIs (exec (.inPush 0x43) (inState [0x41])) (fun t => t.inBytes == [0x41, 0x43] && t.inLen == 2) = true := by
  decide
theorem test_io_xfer :
    nextIs (exec .ioXfer (State.reset.replaceOut [0x07, 0xCA]))
      (fun t => t.inBytes == [0x07, 0xCA] && t.outLen == 0) = true := by decide

/-- An illegal word reports ILLEGAL and changes nothing else (95_test_vectors.md 2.6). -/
theorem test_illegal_word :
    nextIs (step { accState 0xCA 7 with pending := [.issue 0x2321] }) (fun t => t.res == 7 && !t.halt && t.acc == ⟨0xCA, 7⟩ && t.pending == []) =
      true := by decide

/-- The assembler reads a line with a comment and the pseudo-instruction `bv.copy` (R95, R96). -/
theorem test_assemble :
    assemble ["bv.appb v2, 1 ; x".toList, "".toList, "bv.copy v1, v0".toList] = some [0x2112, 0x2001, 0x2301] := by
  decide

/-! ### Witnesses: for every statement with hypotheses, a state and operands that meet them -/

theorem witness_EncodeGivesBackTheDecodedWord : decode 0x230D = .ok (.bvAppv 1 3) := by decide

theorem witness_CommandTableIsReadByMatchAndMask :
    ∃ r ∈ commandRows, (0x51FF : Word) &&& r.mask = r.matchBits := by decide

theorem witness_StepExecutesTheIssuedCommand :
    (inState [0x41]).pending = [] ∧ ({ accState 0xCA 8 with pending := [.reset] } : State).pending = .reset :: [] ∧
    (State.reset.issueNext 0x2112).pending = .issue 0x2112 :: [] ∧ decode 0x2112 = .ok (.bvAppb 2 true) := by decide

/-- A core whose registers hold 8 bits, whose buffers hold 2 bytes, with frequencies and LEN below 4. -/
def smallCore : Capacities := ⟨some 8, some 2, some 2, some 2⟩

/-- A state within the small core's capacities, and a step from it; the eighth bit fits, the ninth is refused. -/
theorem witness_boundedStep :
    (vecState 0 (vec [] 0xFE 7)).withinCapacity smallCore = true ∧
    (∃ t, stepWith smallCore ((vecState 0 (vec [] 0xFE 7)).issueNext 0x2110) = .next t ∧ t.getV 0 = vec [0xFF] 0x00 0) ∧
    (∃ t, exec (.bvAppb 0 true) (vecState 0 (vec [0xFF] 0x00 0)) = .next t ∧ t.res = 0 ∧
      t.withinCapacity smallCore = false) ∧
    execWith smallCore (.bvAppb 0 true) (vecState 0 (vec [0xFF] 0x00 0)) = .refused .capacityExceeded :=
  ⟨by decide, next_with _ (by decide), next_with _ (by decide), rfl⟩

/-- Frequencies beyond COUNT_W: 3 fits below 4, 4 does not. -/
theorem witness_boundedCount :
    fitsWidth smallCore.countW (inState [0x41, 0x41, 0x41]).inLen = true ∧
    fitsWidth smallCore.countW (inState [0x41, 0x41, 0x41, 0x41]).inLen = false ∧
    execWith smallCore .hufBuild (inState [0x41, 0x41, 0x41, 0x41]) = .refused .capacityExceeded := ⟨rfl, rfl, rfl⟩

theorem witness_IllegalWordReportsIllegalOnly :
    (accState 0xCA 8).halt = false ∧ ({ accState 0xCA 8 with halt := true } : State).halt = true ∧
    ∀ r ∈ commandRows, (0x2321 : Word) &&& r.mask ≠ r.matchBits := by decide

/-- A running and a halted state; a word of each kind. -/
theorem witness_StepIsTotal :
    (accState 0xCA 8).halt = false ∧ ({ accState 0xCA 8 with halt := true } : State).halt = true ∧
    decode 0x1000 = .ok .accClr ∧ decode 0x2321 = .error .mustBeZero := by decide

/-- A halted state with a word pending. -/
def haltedState : State :=
  { accState 0xCA 8 with res := 2, halt := true, hcause := 2, pending := [.issue 0x1000] }

theorem witness_HaltedCoreExecutesNothing :
    haltedState.halt = true ∧ haltedState.pending = .issue 0x1000 :: [] := by decide

/-- The reset input clears HALT and HCAUSE. -/
theorem witness_OnlyResetLeavesTheHaltedState :
    ∃ t, step { haltedState with pending := [.reset] } = .next t ∧ haltedState.halt = true ∧ t.halt = false ∧
      haltedState.hcause ≠ 0 ∧ t.hcause = 0 ∧ (haltedState.hcause = 0 ∨ haltedState.hcause = 2) :=
  next_with _ (by decide)

/-- A state with the invariant in which the next step appends a ninth bit, so that it halts. -/
theorem witness_EveryStepKeepsTheCanonicalState :
    State.Inv { accState 0xCA 8 with pending := [.issue 0x1110] } ∧
    ∃ t, step { accState 0xCA 8 with pending := [.issue 0x1110] } = .next t ∧ t.halt = true := by
  refine ⟨⟨⟨by decide, by decide⟩, ?_, ⟨rfl, rfl⟩, by unfold State.StatusLegal; decide⟩, next_with _ (by decide)⟩
  intro sym c h
  exact absurd (h.symm.trans (Lut.get_empty sym)) (by simp)

theorem witness_ResIsWrittenAndNeverRead : (accState 0xCA 7).halt = false := rfl

/-- Each of the six codes is reported by some command. -/
theorem witness_EachErrorComesFromItsCommands :
    (∃ t, exec .accParse (inState [0x78]) = .next t ∧ t.res = 1) ∧
    (∃ t, exec (.bvParse 3) (inState [0x78]) = .next t ∧ t.res = 1) ∧
    (∃ t, exec (.accAppb true) (accState 0xCA 8) = .next t ∧ t.res = 2) ∧
    (∃ t, exec (.hufMap 0) (inState [0x41]) = .next t ∧ t.res = 2) ∧
    (∃ t, exec (.hufDecode 0) (builtState (vec [] 0xC8 6)) = .next t ∧ t.res = 3) ∧
    (∃ t, exec (.hufDecode 0) (lutState [(0x41, [false]), (0x42, [false])]) = .next t ∧ t.res = 4) ∧
    (∃ t, exec (.desBv 0) (inState [0x01]) = .next t ∧ t.res = 6) ∧
    (∃ t, exec .desDict (inState []) = .next t ∧ t.res = 6) :=
  ⟨next_with _ (by decide), next_with _ (by decide), next_with _ (by decide), next_with _ (by decide),
    ⟨_, exec_hufDecode_error rfl (e := .trunc) (by rw [decodeBits, builtState_entries]; decide), rfl⟩,
    next_with _ (by decide +kernel), next_with _ (by decide), next_with _ (by decide)⟩

/-- ALPHA, the seventh: a table with an entry for every symbol. -/
theorem witness_fullTable : (lutState (allSymbols.map (fun sym => (sym, byteBits sym)))).nLut = 256 := by
  have hn : ((allSymbols.map (fun sym => (sym, byteBits sym))).map Prod.fst).Nodup := by
    rw [List.map_map, show Prod.fst ∘ (fun sym => (sym, byteBits sym)) = id from rfl, List.map_id]
    exact allSymbols_nodup
  have h : ∀ sym, (Lut.ofEntries (allSymbols.map (fun sym => (sym, byteBits sym)))).get sym = some (byteBits sym) :=
    fun sym => (Lut.get_ofEntries hn sym _).2 (List.mem_map.2 ⟨sym, mem_allSymbols sym, rfl⟩)
  rw [State.nLut, lutState, State.setLut_lut, Lut.entries_length,
    List.countP_eq_length.2 (fun sym _ => by rw [h, Option.isSome_some]), allSymbols_length]

theorem witness_RecoverableErrorChangesOnlyRes :
    (∃ t, exec (.desBv 1) (inState [0x01, 0xC0]) = .next t ∧ t.res ≠ 0 ∧ t.res ≠ 2) ∧
    (∃ t, exec (.hufDecode 0) (builtState (vec [] 0xC8 6)) = .next t ∧ t.res ≠ 0 ∧ t.res ≠ 2) ∧
    (accState 0xCA 7).halt = false :=
  ⟨next_with _ (by decide),
    ⟨_, exec_hufDecode_error rfl (e := .trunc) (by rw [decodeBits, builtState_entries]; decide), by decide, by decide⟩,
    rfl⟩

theorem witness_HaltEntryIsPrecise :
    ∃ t, exec (.accAppb true) (accState 0xCA 8) = .next t ∧ t.res = 2 ∧ t.halt = true :=
  next_with _ (by decide)

theorem witness_CommandsWriteOnlyTheirTargets :
    ∃ t, exec (.bvIter 0) (vecState 0 (vec [] 0xA0 3)) = .next t ∧ Piece.acc ∉ commandTargets (.bvIter 0) ∧
      Piece.v 1 ∉ commandTargets (.bvIter 0) ∧ Piece.lut ∉ commandTargets (.bvIter 0) ∧
      Piece.inBuf ∉ commandTargets (.bvIter 0) ∧ Piece.outBuf ∉ commandTargets (.bvIter 0) ∧
      Piece.len ∉ commandTargets (.bvIter 0) ∧ Piece.halt ∉ commandTargets (.bvIter 0) ∧
      Piece.it ∉ commandTargets .ioXfer ∧ Piece.flags ∉ commandTargets .ioXfer := next_with _ (by decide)

/-- BV.LEN's sources agree in two states that differ in ACC. -/
theorem witness_CommandsReadOnlyTheirSources :
    (accState 0xCA 8).halt = false ∧ (accState 0x00 0).halt = false ∧ accState 0xCA 8 ≠ accState 0x00 0 ∧
    ∀ p ∈ commandSources (.bvLen 2), agreeOn (accState 0xCA 8) (accState 0x00 0) p := by
  refine ⟨rfl, rfl, fun h => absurd (congrArg State.acc h) (by decide), fun p hp => ?_⟩
  simp only [commandSources, List.mem_singleton] at hp
  subst hp; rfl

/-- The lengths 0 and 8 of `acc(L)`, and a canonical vector with given bits. -/
theorem witness_PackIsTheOnlyCanonicalVector :
    ([] : Bits).length ≤ 8 ∧ (byteBits 0xA5).length ≤ 8 ∧ (vec [0xA5] 0x80 1).Canonical ∧
    (vec [0xA5] 0x80 1).bits = byteBits 0xA5 ++ [true] := by decide

theorem witness_BitVectorCommandsConcatenateBits :
    (inState [0x31, 0x30]).halt = false ∧ (inState [0x31, 0x30]).RegistersCanonical ∧
    textBits (inState [0x31, 0x30]).inBytes = some [true, false] := ⟨rfl, ⟨by decide, by decide⟩, by decide⟩

/-- Tail lengths 7 and 0, distinct and equal registers. -/
theorem witness_AppendedLengthsAdd :
    (vecState 0 (vec [] 0xFE 7)).halt = false ∧ ((vecState 0 (vec [] 0xFE 7)).getV 0).Canonical ∧
    ((vecState 0 (vec [] 0xFE 7)).getV 1).Canonical ∧ (0 : VReg) ≠ 1 := by decide

theorem witness_AccClrEmptiesTheAccumulator : (accState 0xCA 8).halt = false := rfl

/-- Lengths 0, 7 (the last that appends) and 8 (the one that halts). -/
theorem witness_AccAppbAppendsOneBit :
    (accState 0x00 0).halt = false ∧ (accState 0x00 0).acc.Canonical ∧ (accState 0x00 0).acc.length.val < 8 ∧
    (accState 0xCA 7).acc.Canonical ∧ (accState 0xCA 7).acc.length.val < 8 ∧
    (accState 0xCA 8).acc.length.val = 8 := by decide

/-- Texts of 0 and 8 characters; a bad character first and ninth; a ninth good character. -/
theorem witness_AccParseReadsTheText :
    textBits (inState []).inBytes = some [] ∧
    textBits (inState [0x31, 0x31, 0x31, 0x31, 0x31, 0x31, 0x31, 0x31]).inBytes = some (List.replicate 8 true) ∧
    (inState [0x78]).inBytes = [] ++ 0x78 :: [] ∧ textBits [] = some [] ∧ bitOfChar 0x78 = none ∧
    (inState [0x30, 0x30, 0x30, 0x30, 0x30, 0x30, 0x30, 0x30, 0x78]).inBytes = List.replicate 8 0x30 ++ 0x78 :: [] ∧
    textBits (List.replicate 8 0x30) = some (List.replicate 8 false) ∧
    (inState [0x30, 0x30, 0x30, 0x30, 0x30, 0x30, 0x30, 0x30, 0x30]).inBytes = List.replicate 9 0x30 ++ [] ∧
    textBits (List.replicate 9 0x30) = some (List.replicate 9 false) := by decide

theorem witness_AccTextWritesTheBits : (accState 0xCA 7).halt = false ∧ 6 < (accState 0xCA 7).acc.length.val := by decide

theorem witness_AccumulatorTextRoundTrip :
    (inState [0x31, 0x30]).halt = false ∧ (inState [0x31, 0x30]).inBytes.length ≤ 8 ∧
    (∀ c ∈ (inState [0x31, 0x30]).inBytes, c = 0x30 ∨ c = 0x31) ∧ (accState 0xFF 8).halt = false ∧
    (accState 0xFF 8).acc.Canonical := by decide

theorem witness_BvClrEmptiesTheRegister : (vecState 1 (vec [0xA5] 0x80 1)).halt = false := rfl

/-- Tail lengths 0, 6 and 7. -/
theorem witness_BvAppbFlushesTheEighthBit :
    (vecState 0 (vec [] 0xFC 6)).halt = false ∧ ((vecState 0 (vec [] 0xFC 6)).getV 0).Canonical ∧
    ((vecState 0 (vec [] 0xFC 6)).getV 0).tail.length.val < 7 ∧ ((vecState 0 (vec [] 0xFE 7)).getV 0).Canonical ∧
    ((vecState 0 (vec [] 0xFE 7)).getV 0).tail.length.val = 7 ∧
    ((vecState 0 (vec [] 0x00 0)).getV 0).tail.length.val < 7 := by decide

/-- `j + k = 7`; `j = 0, k = 8`; `j + k = 8` with `j = 1`; `j = 7, k = 8`. -/
theorem witness_BvAppaMergesTheAccumulator :
    (3 : Nat) + 4 < 8 ∧ ((accState 0xF0 4).setV 0 (vec [] 0xA0 3)).acc.Canonical ∧
    (((accState 0xF0 4).setV 0 (vec [] 0xA0 3)).getV 0).Canonical ∧
    ((accState 0xA5 8).setV 0 (vec [] 0x00 0)).acc.Canonical ∧
    (((accState 0xA5 8).setV 0 (vec [] 0x00 0)).getV 0).tail.length.val = 0 ∧
    ((accState 0x00 7).setV 0 (vec [] 0x80 1)).acc.Canonical ∧
    (((accState 0x00 7).setV 0 (vec [] 0x80 1)).getV 0).Canonical ∧
    ((accState 0xFF 8).setV 0 (vec [] 0xFE 7)).acc.Canonical ∧
    (((accState 0xFF 8).setV 0 (vec [] 0xFE 7)).getV 0).Canonical ∧
    ((accState 0xFF 8).setV 0 (vec [] 0xFE 7)).halt = false := by decide

theorem witness_BvLenCountsTheBits : (vecState 1 (vec [0xA5] 0x80 1)).halt = false := rfl

theorem witness_BvParseReadsTheText :
    textBits (inState []).inBytes = some [] ∧ textBits (inState [0x31, 0x30]).inBytes = some [true, false] ∧
    (∃ c ∈ (inState [0x31, 0x2F]).inBytes, c ≠ 0x30 ∧ c ≠ 0x31) ∧
    (∃ c ∈ (inState [0x32]).inBytes, c ≠ 0x30 ∧ c ≠ 0x31) := by decide

theorem witness_BvIterConsumesTheRegister : (vecState 0 (vec [] 0xA0 3)).halt = false := rfl

theorem witness_BvNextDeliversOneBit :
    ({ State.reset with itRem := [true] } : State).itRem = true :: [] ∧ State.reset.itRem = [] := by decide

/-- The last bit and the first position past the end. -/
theorem witness_IterationDeliversEveryBitInOrder :
    (vecState 0 (vec [] 0xA0 3)).halt = false ∧ ((vecState 0 (vec [] 0xA0 3)).getV 0).bits[2]? = some true ∧
    ((vecState 0 (vec [] 0xA0 3)).getV 0).bits[3]? = none := by decide

theorem witness_HufBuildMakesAPrefixFreeTable : (inState scenarioText).halt = false := rfl

theorem witness_HufBuildDependsOnlyOnTheCounts :
    (inState [0x41, 0x42]).halt = false ∧ (inState [0x42, 0x41]).halt = false ∧
    (inState [0x41, 0x42]).inBytes.Perm (inState [0x42, 0x41]).inBytes := by decide

theorem witness_HufBuildOnOneSymbolOrNone :
    (inState [0x41, 0x41]).inBytes = List.replicate (1 + 1) 0x41 ∧ (inState [0x41]).inBytes = List.replicate (0 + 1) 0x41 ∧
    (inState []).inBytes = [] ∧ (0x42 : Byte) ≠ 0x41 := by decide

theorem witness_HufBuildOfTheWorkedScenario :
    (inState scenarioText).halt = false ∧ (inState scenarioText).inBytes = [0x41, 0x41, 0x42, 0x41, 0x43] := by decide

theorem witness_HufMapConcatenatesTheCodes :
    ((lutState scenario).setIn (Memory.ofBytes [0x41, 0x42])).halt = false ∧
    ((lutState scenario).setIn (Memory.ofBytes [0x41, 0x42])).inBytes.map (lutState scenario).lut.get =
      [[true], [false, false]].map some ∧
    ∃ sym ∈ ((lutState scenario).setIn (Memory.ofBytes [0x41, 0x44])).inBytes,
      (lutState scenario).lut.get sym = none := by decide +kernel

theorem witness_HufEncodeIsBuildThenMap : (inState scenarioText).halt = false := rfl

theorem witness_PackedLengthIsCountTimesCodeLength :
    (inState scenarioText).halt = false ∧ (∃ t, exec (.hufEncode 0) (inState scenarioText) = .next t) ∧
    (∃ t, exec (.hufMap 0) (inState []) = .next t ∧ t.res = 0) :=
  ⟨rfl, ⟨_, rfl⟩, next_with _ (by decide)⟩

theorem witness_EncodeThenDecodeRestoresTheInput : (inState scenarioText).halt = false ∧ (inState []).halt = false :=
  ⟨rfl, rfl⟩

theorem witness_HufDecodeRecoversTheSymbols :
    (builtState (vec [] 0xC0 4)).halt = false ∧ (builtState (vec [] 0xC0 4)).lut.PrefixFree ∧
    (builtState (vec [] 0xC0 4)).lut.NoEmptyCode ∧
    [0x41, 0x41, 0x42].map (builtState (vec [] 0xC0 4)).lut.get = [[true], [true], [false, false]].map some ∧
    ((builtState (vec [] 0xC0 4)).getV 0).bits = [[true], [true], [false, false]].flatten :=
  ⟨rfl, buildTable_prefixFree _, buildTable_noEmptyCode _,
    by simp only [List.map_cons, List.map_nil, builtState_codes _], by decide⟩

theorem witness_DuplicateCodeIsCorrupt :
    ¬ (lutState [(0x41, [false]), (0x42, [false])]).lut.CodesDistinct ∧ (builtState (vec [] 0xC0 4)).lut.CodesDistinct ∧
    (lutState [(0x41, [false]), (0x42, [false])]).halt = false ∧ (builtState (vec [] 0xC0 4)).halt = false := by
  refine ⟨fun h => ?_, (buildTable_prefixFree _).codesDistinct, rfl, rfl⟩
  exact absurd (h 0x41 0x42 [false] (by decide) (by decide)) (by decide)

/-- A last code of 2 bits (`00` of B, one bit left) and of 1 bit (`1` of A, none left). -/
theorem witness_TruncationIsDetectedInsideACode :
    (builtState (vec [] 0xC0 3)).halt = false ∧ (builtState (vec [] 0xC0 3)).lut.PrefixFree ∧
    (builtState (vec [] 0xC0 3)).lut.NoEmptyCode ∧
    [0x41, 0x41].map (builtState (vec [] 0xC0 3)).lut.get = [[true], [true]].map some ∧
    (builtState (vec [] 0xC0 3)).lut.get 0x42 = some [false, false] ∧
    ((builtState (vec [] 0xC0 3)).getV 0).bits = ([[true], [true]].flatten ++ [false, false]).dropLast ∧
    (builtState (vec [] 0xC0 2)).lut.get 0x41 = some [true] ∧
    ((builtState (vec [] 0xC0 2)).getV 0).bits = ([[true], [true]].flatten ++ [true]).dropLast :=
  ⟨rfl, buildTable_prefixFree _, buildTable_noEmptyCode _, by simp only [List.map_cons, List.map_nil, builtState_codes _],
    (builtState_codes _).2, by decide, (builtState_codes _).1, by decide⟩

theorem witness_HufDecodeRunsThePhaseMachine :
    (builtState (vec [] 0xC0 4)).halt = false ∧ ((builtState (vec [] 0xC0 4)).getV 0).bits.length + 3 ≤ 7 := by decide

theorem witness_HufDecodeIsATreeWalk :
    (builtState (vec [] 0xC0 4)).halt = false ∧ (builtState (vec [] 0xC0 4)).lut.CodesDistinct ∧
    walkBits (builtState (vec [] 0xC0 4)).lut ((builtState (vec [] 0xC0 4)).getV 0).bits = .ok [0x41, 0x41, 0x42] ∧
    walkBits (builtState (vec [] 0xC0 4)).lut ((builtState (vec [] 0xC0 3)).getV 0).bits = .error .trunc := by
  refine ⟨rfl, (buildTable_prefixFree _).codesDistinct, ?_, ?_⟩ <;>
    rw [walkBits, codeTrie, builtState_entries] <;> decide

theorem witness_EmptyCodeIsNeverMatched :
    (lutState [(0x41, []), (0x42, [true])]).halt = false ∧ (lutState [(0x41, []), (0x42, [true])]).lut.get 0x41 = some [] ∧
    ∃ t, exec (.hufDecode 0) ((lutState [(0x41, []), (0x42, [true])]).setV 0 (vec [] 0x80 1)) = .next t ∧ t.res = 0 ∧
      t.outBytes = [0x42] := ⟨rfl, by decide, next_with _ (by decide +kernel)⟩

theorem witness_SerBvWritesTheFrame : (vecState 0 (vec [0x6E, 0x8A] 0xDC 7)).halt = false := rfl

/-- Tail lengths 7 and 8; one byte; a tail value with a bit too many. -/
theorem witness_DesBvReadsTheFrame :
    (inState [0x07, 0xCA]).inBytes = 0x07 :: 0xCA :: [] ∧ (0x07 : Byte).toNat ≤ 7 ∧
    (0xCA : Byte) <<< (0x07 : Byte).toNat = 0 ∧ (inState [0x07]).inLen < 2 ∧
    (inState [0x08, 0x00]).inBytes = 0x08 :: 0x00 :: [] ∧ 7 < (0x08 : Byte).toNat ∧
    (inState [0x01, 0xC0]).inBytes = 0x01 :: 0xC0 :: [] ∧ (0xC0 : Byte) <<< (0x01 : Byte).toNat ≠ 0 := by decide

theorem witness_VectorFrameRoundTrips :
    (vecState 0 (vec [0xA5] 0x80 1)).halt = false ∧ ((vecState 0 (vec [0xA5] 0x80 1)).getV 0).Canonical ∧
    ∃ t, exec (.desBv 1) (inState [0x01, 0x80, 0xA5]) = .next t ∧ t.res = 0 := ⟨rfl, by decide, next_with _ (by decide)⟩

/-- A built table of 3 entries, and the table of all 256 symbols (`witness_fullTable`). -/
theorem witness_SerDictWritesTheFrame :
    (builtState (vec [] 0x00 0)).halt = false ∧ (builtState (vec [] 0x00 0)).nLut ≤ 255 ∧
    (builtState (vec [] 0x00 0)).lut.CodesFit ∧
    (lutState (allSymbols.map (fun sym => (sym, byteBits sym)))).nLut = 256 :=
  ⟨rfl, by rw [State.nLut, builtState_entries]; decide, buildTable_codesFit _, witness_fullTable⟩

/-- A well-formed frame of one entry; the empty frame; an empty IN and a wrong tail length, which are not. -/
theorem witness_DesDictReadsTheFrame :
    DictFrameWf (inState [0x01, 0x41, 0x01, 0x01, 0x00]).inBytes ∧ DictFrameWf (inState [0x00, 0x00, 0x00]).inBytes ∧
    ¬ DictFrameWf (inState []).inBytes ∧ ¬ DictFrameWf (inState [0x01, 0x41, 0x01, 0x00, 0x00]).inBytes ∧
    frameCode [0x01, 0x41, 0x01, 0x01, 0x00] 0 = [false] ∧ frameSym [0x01, 0x41, 0x01, 0x01, 0x00] 0 = 0x41 := by
  refine ⟨⟨by decide, by decide, fun i k hi hk hne => ?_, by decide, by decide⟩,
    ⟨by decide, by decide, fun i k hi => ?_, by decide, by decide⟩, fun h => absurd h.1 (by decide),
    fun h => absurd h.2.2.2.1 (by decide), by decide, by decide⟩
  · have h1 : frameCount (inState [0x01, 0x41, 0x01, 0x01, 0x00]).inBytes = 1 := by decide
    omega
  · have h1 : frameCount (inState [0x00, 0x00, 0x00]).inBytes = 0 := by decide
    omega

/-- The frame of A `0`, B `1`, its pairs ascending, and the same Dictionary with its pairs descending (D13, D14). -/
def twoPairs : List Byte := [0x02, 0x41, 0x01, 0x42, 0x01, 0x02, 0x40]
def twoPairsDescending : List Byte := [0x02, 0x42, 0x01, 0x41, 0x01, 0x02, 0x80]

theorem twoPairs_wf : DictFrameWf (inState twoPairs).inBytes ∧ DictFrameWf (inState twoPairsDescending).inBytes := by
  have h : ∀ f ∈ [twoPairs, twoPairsDescending], ∀ i < 2, ∀ k < 2, i ≠ k → frameSym f i ≠ frameSym f k := by decide
  exact ⟨⟨by decide, by decide, fun i k hi hk => h twoPairs (by decide) i hi k hk, by decide, by decide⟩,
    ⟨by decide, by decide, fun i k hi hk => h twoPairsDescending (by decide) i hi k hk, by decide, by decide⟩⟩

/-- A built table; ascending pairs; descending pairs, for which the ascending frame comes back. -/
theorem witness_DictionaryFrameRoundTrips :
    (builtState (vec [] 0x00 0)).halt = false ∧ (builtState (vec [] 0x00 0)).nLut ≤ 255 ∧
    (builtState (vec [] 0x00 0)).lut.CodesFit ∧ DictFrameWf (inState twoPairs).inBytes ∧
    (∀ i k, i < k → k < frameCount (inState twoPairs).inBytes →
      (frameSym (inState twoPairs).inBytes i).toNat < (frameSym (inState twoPairs).inBytes k).toNat) ∧
    DictFrameWf (inState twoPairsDescending).inBytes := by
  refine ⟨rfl, by rw [State.nLut, builtState_entries]; decide, buildTable_codesFit _, twoPairs_wf.1, ?_, twoPairs_wf.2⟩
  intro i k hik hk
  have hc : frameCount (inState twoPairs).inBytes = 2 := by decide
  obtain ⟨rfl, rfl⟩ : i = 0 ∧ k = 1 := by omega
  decide

/-- Descending pairs are written back in ascending order (95_test_vectors.md 2.5). -/
theorem test_dict_frame_reordered :
    dictFrame (Lut.ofEntries (frameEntries twoPairsDescending)).entries = twoPairs := by decide +kernel

theorem witness_InClrEmptiesTheInput : (inState [0x41]).halt = false := rfl

theorem witness_InPushAppendsOneByte :
    (inState [0x41]).halt = false ∧ (inState [0x41]).inBuf.wf ∧ 0 ≠ (inState [0x41]).inLen ∧ State.reset.inBuf.wf := by
  decide

theorem witness_IoXferMovesTheOutput : (State.reset.replaceOut [0x07, 0xCA]).halt = false := rfl

theorem witness_PortsShowTheRegisters : (State.reset.replaceOut [0x07, 0xCA]).outBuf.wf := by decide

/-- A text with ASCII codes, texts of 0 and 8 bits; two different registers, the source canonical. -/
theorem witness_PseudoInstructionsExpand :
    State.reset.halt = false ∧ ['A', 'B'].mapM asciiCode = some [0x41, 0x42] ∧ ([] : Bits).length ≤ 8 ∧
    (byteBits 0xCA).length ≤ 8 ∧ (1 : VReg) ≠ 0 ∧ ((vecState 0 (vec [0xA5] 0x80 1)).getV 0).Canonical := by decide

end Sys2Proof.Tests
end

section
/-! What a word, a command and a step can do, in this core and in a core with given capacities (00_scope.md R6, R8, R9,
R280, R281; 93_implementation_defined.md U8), and the statements of the scope family settled from it. -/

namespace Sys2Proof.Machine

/-! ### A word: a command, or illegal -/

theorem stepWord_of_decode_ok {w : Word} {i : Instr} (h : decode w = .ok i) (s : State) : stepWord w s = exec i s := by
  simp only [stepWord, h]

theorem stepWord_of_decode_error {w : Word} {e : Illegal} (h : decode w = .error e) (s : State) :
    stepWord w s = execIllegal e s := by
  simp only [stepWord, h]

theorem execIllegal_halted (e : Illegal) {s : State} (h : s.halt = true) : execIllegal e s = .next s :=
  runCommand_halted h

theorem execIllegal_running (e : Illegal) {s : State} (h : s.halt = false) :
    execIllegal e s = .next { s with res := 7 } :=
  runCommand_raised h rfl

theorem exec_halted (i : Instr) {s : State} (h : s.halt = true) : exec i s = .next s := by
  rw [exec_eq_runCommand, runCommand_halted h]

/-- A running core's command answers a next state, with RES written (R9, R38). -/
theorem exec_running (i : Instr) {s : State} (h : s.halt = false) :
    ∃ t, exec i s = .next t ∧ (t.res = 0 ∨ ∃ e : Err, t.res = e.code) := by
  rcases exec_cases i s with ⟨hh, -⟩ | ⟨-, t, -, hx⟩ | ⟨-, e, t, -, hx⟩
  · rw [h] at hh; cases hh
  · exact ⟨_, hx, .inl rfl⟩
  · exact ⟨_, hx, .inr ⟨e, t.raise_res e⟩⟩

theorem stepWord_halted (w : Word) {s : State} (h : s.halt = true) : stepWord w s = .next s := by
  cases hd : decode w with
  | ok i => rw [stepWord_of_decode_ok hd, exec_halted i h]
  | error e => rw [stepWord_of_decode_error hd, execIllegal_halted e h]

/-- The two ways a running core executes a word (R9): as the command it decodes to, or as an illegal word. -/
theorem stepWord_running (w : Word) {s : State} (h : s.halt = false) :
    (∃ i t, decode w = .ok i ∧ stepWord w s = exec i s ∧ exec i s = .next t ∧
      (t.res = 0 ∨ ∃ e : Err, t.res = e.code)) ∨
    ((∀ i, decode w ≠ .ok i) ∧ stepWord w s = .next { s with res := 7 }) := by
  cases hd : decode w with
  | ok i =>
    obtain ⟨t, hx, hres⟩ := exec_running i h
    exact .inl ⟨i, t, rfl, stepWord_of_decode_ok hd s, hx, hres⟩
  | error e =>
    refine .inr ⟨fun _ => nofun, ?_⟩
    rw [stepWord_of_decode_error hd, execIllegal_running e h]

theorem stepWord_total (w : Word) (s : State) : ∃ t, stepWord w s = .next t := by
  cases hh : s.halt
  · rcases stepWord_running w hh with ⟨i, t, -, hw, hx, -⟩ | ⟨-, hw⟩
    · exact ⟨t, hw.trans hx⟩
    · exact ⟨_, hw⟩
  · exact ⟨s, stepWord_halted w hh⟩

theorem step_total (s : State) : ∃ t, step s = .next t := by
  match h : s.pending with
  | [] => exact ⟨s, step_waits h⟩
  | .reset :: _ => exact ⟨_, step_reset h⟩
  | .issue w :: rest => rw [step_issue h]; exact stepWord_total w _

/-! ### A core with given capacities -/

section Bounded

variable {c : Capacities}

/-- A command of a bounded core does what it does in the unbounded core, or is refused (R6, U8). -/
theorem execWith_eq_exec_or_refused (c : Capacities) (i : Instr) (s : State) :
    execWith c i s = exec i s ∨ execWith c i s = .refused .capacityExceeded := by
  rcases execWith_cases c i s with ⟨hh, hx⟩ | ⟨-, -, -, hx⟩ | ⟨hh, -, ⟨e, t, hw, hx⟩ | ⟨t, hw, hx⟩⟩
  · exact .inl (hx.trans (exec_halted i hh).symm)
  · exact .inr hx
  · exact .inl (hx.trans (exec_raised hh hw).symm)
  · split at hx
    · exact .inl (hx.trans (exec_done hh hw).symm)
    · exact .inr hx

/-- A command ends well beyond a capacity exactly when the state its work leaves is beyond it: an error has a RES other
than 0. -/
theorem exec_beyond_iff {i : Instr} {s : State} (h : s.halt = false) :
    (∃ t, exec i s = .next t ∧ t.res = 0 ∧ t.withinCapacity c = false) ↔
      ∃ t, commandWork Config.capacities i s = .done t ∧ t.withinCapacity c = false := by
  constructor
  · rintro ⟨t, hx, hres, hcap⟩
    rcases exec_cases i s with ⟨hh, -⟩ | ⟨-, u, hw, hu⟩ | ⟨-, e, u, -, hu⟩
    · rw [h] at hh; cases hh
    · rw [hu] at hx; cases hx
      exact ⟨u, hw, hcap⟩
    · rw [hu] at hx; cases hx
      exact absurd ((u.raise_res e).symm.trans hres) e.code_ne_zero
  · rintro ⟨t, hw, hcap⟩
    exact ⟨_, exec_done h hw, rfl, hcap⟩

/-- The refusal of a bounded core, exactly: the command would end beyond BV_CAP, BUF_CAP or LEN_W, or would count
frequencies beyond COUNT_W (U8). -/
theorem execWith_refused_iff (c : Capacities) (i : Instr) (s : State) :
    execWith c i s = .refused .capacityExceeded ↔
      s.halt = false ∧ ((∃ t, exec i s = .next t ∧ t.res = 0 ∧ t.withinCapacity c = false) ∨
        (buildsTree i ∧ fitsWidth c.countW s.inLen = false)) := by
  rcases execWith_cases c i s with ⟨hh, hx⟩ | ⟨hh, hb, hf, hx⟩ | ⟨hh, hb, hend⟩
  · simp [hx, hh]
  · exact ⟨fun _ => ⟨hh, .inr ⟨hb, hf⟩⟩, fun _ => hx⟩
  · have hcount : ¬ (buildsTree i ∧ fitsWidth c.countW s.inLen = false) := fun ⟨hi, hf⟩ => by
      rw [hb hi] at hf; cases hf
    rw [exec_beyond_iff hh]
    rcases hend with ⟨e, t, hw, hx⟩ | ⟨t, hw, hx⟩
    · simp [hx, hw, hcount]
    · cases hcap : t.withinCapacity c <;> simp [hx, hw, hcap, hcount, hh]

@[simp] theorem State.withinCapacity_pending (c : Capacities) (s : State) (rest : List HostAction) :
    ({ s with pending := rest } : State).withinCapacity c = s.withinCapacity c := rfl

/-- The empty state after reset is within every capacity. -/
theorem State.withinCapacity_hostReset (c : Capacities) (s : State) : s.hostReset.withinCapacity c = true := by
  have hcap : ∀ o, fitsCap o 0 = true := fun o => by cases o <;> simp [fitsCap]
  have hwidth : ∀ o, fitsWidth o 0 = true := fun o => by cases o <;> simp [fitsWidth]
  simp [State.hostReset, State.reset, State.withinCapacity, State.inLen, State.outLen, BitVector.bitLength,
    BitVector.empty, Acc.empty, hcap, hwidth]

/-- An illegal word changes no sized piece. -/
theorem execIllegal_withinCapacity {e : Illegal} {s t : State} (h : execIllegal e s = .next t)
    (hs : s.withinCapacity c = true) : t.withinCapacity c = true := by
  cases hh : s.halt
  · rw [execIllegal_running e hh] at h; cases h; exact hs
  · rw [execIllegal_halted e hh] at h; cases h; exact hs

theorem stepWordWith_withinCapacity {w : Word} {s t : State} (h : stepWordWith c w s = .next t)
    (hs : s.withinCapacity c = true) : t.withinCapacity c = true := by
  rw [stepWordWith] at h
  split at h
  · exact execWith_withinCapacity h hs
  · exact execIllegal_withinCapacity h hs

/-- A step of a bounded core keeps within its capacities, whatever the host does next. -/
theorem stepWith_withinCapacity {s t : State} (h : stepWith c s = .next t) (hs : s.withinCapacity c = true) :
    t.withinCapacity c = true := by
  rw [stepWith, runAction] at h
  split at h
  · cases h; exact hs
  · cases h; exact State.withinCapacity_hostReset c _
  · next w u hu =>
    refine stepWordWith_withinCapacity h ?_
    rw [State.takeAction] at hu
    split at hu <;> cases hu
    rwa [State.withinCapacity_pending]

end Bounded

/-! ### The statements -/

/-- Settles O8: a word is executed as its command or as illegal, and a step waits, resets or executes a word. -/
theorem stepIsTotal : Obligations.StepIsTotal :=
  ⟨fun _ w => ⟨stepWord_halted w, stepWord_running w⟩, step_total⟩

/-- Settles O20, from the specifications of `acc(L)` and `pack(L)` and the injectivity of the bits of a canonical
vector. -/
theorem packIsTheOnlyCanonicalVector : Obligations.PackIsTheOnlyCanonicalVector :=
  ⟨fun _ => accOfBits_spec, pack_spec, fun _ _ hx hl => BitVector.eq_pack hx hl⟩

/-- Settles O6: the step by the host's next action, and the refusals and the bounds of a core with given capacities. -/
theorem stepExecutesTheIssuedCommand : Obligations.StepExecutesTheIssuedCommand := by
  refine ⟨fun s w rest h => ⟨step_issue h, fun i hi => ?_⟩, fun _ _ => step_reset, fun _ => step_waits,
    stepWith_default, fun c i s => ⟨execWith_eq_exec_or_refused c i s, execWith_refused_iff c i s⟩,
    fun _ _ _ hs ht => stepWith_withinCapacity ht hs⟩
  rw [step_issue h, stepWord_of_decode_ok hi]

end Sys2Proof.Machine
end

section
/-! What every command does, said once: the same canonical writes to its targets, and the same end, from any two
running states that agree on its sources (10_state.md R41). The statements of the state family are settled from it. -/

namespace Sys2Proof.Machine

/-! ### Writes: the pieces of state one by one -/

/-- A write of one piece of state, HALT apart, which only the end of a command writes (R15). -/
inductive Write where
  | acc (a : Acc)
  | v (r : VReg) (x : BitVector)
  | lut (t : Lut)
  | inBuf (m : Memory)
  | outBuf (m : Memory)
  | len (n : Nat)
  | it (l : Bits)
  | flags (o : Option Bool)

/-- The piece a write writes. -/
def Write.piece : Write → Piece
  | .acc _ => .acc
  | .v r _ => .v r
  | .lut _ => .lut
  | .inBuf _ => .inBuf
  | .outBuf _ => .outBuf
  | .len _ => .len
  | .it _ => .it
  | .flags _ => .flags

/-- The model's operation that a write stands for. -/
def Write.apply (s : State) : Write → State
  | .acc a => s.setAcc a
  | .v r x => s.setV r x
  | .lut t => s.setLut t
  | .inBuf m => s.setIn m
  | .outBuf m => s.setOut m
  | .len n => s.setLen n
  | .it l => s.setIt l
  | .flags o => s.setIterFlags o

/-- A list of writes, in order. -/
def applyWrites (s : State) (ws : List Write) : State := ws.foldl Write.apply s

@[simp] theorem applyWrites_nil (s : State) : applyWrites s [] = s := rfl

@[simp] theorem applyWrites_cons (s : State) (w : Write) (ws : List Write) :
    applyWrites s (w :: ws) = applyWrites (w.apply s) ws := rfl

theorem agreeOn_refl (s : State) (p : Piece) : agreeOn s s p := by cases p <;> simp [agreeOn]

theorem agreeOn_symm {s t : State} {p : Piece} (h : agreeOn s t p) : agreeOn t s p := by
  cases p
  case flags => exact ⟨h.1.symm, h.2.symm⟩
  case halt => exact ⟨h.1.symm, h.2.symm⟩
  all_goals exact Eq.symm h

theorem agreeOn_trans {s t u : State} {p : Piece} (h : agreeOn s t p) (h' : agreeOn t u p) : agreeOn s u p := by
  cases p
  case flags => exact ⟨h.1.trans h'.1, h.2.trans h'.2⟩
  case halt => exact ⟨h.1.trans h'.1, h.2.trans h'.2⟩
  all_goals exact Eq.trans h h'

/-- A write leaves every other piece as it was. -/
theorem Write.apply_agreeOn_other (s : State) (w : Write) {p : Piece} (h : p ≠ w.piece) : agreeOn (w.apply s) s p := by
  cases w with
  | v r x =>
    cases p
    case v q => exact s.getV_setV_other (fun e => h (congrArg Piece.v e)) x
    all_goals simp [agreeOn, Write.apply]
  | _ => cases p <;> simp_all [agreeOn, Write.apply, Write.piece]

/-- What a piece holds after it is written does not depend on the state before. -/
theorem Write.apply_agreeOn_piece (s s' : State) (w : Write) : agreeOn (w.apply s) (w.apply s') w.piece := by
  cases w <;> simp [agreeOn, Write.apply, Write.piece]

@[simp] theorem Write.apply_pending (s : State) (w : Write) : (w.apply s).pending = s.pending := by
  cases w <;> simp [Write.apply]

/-- RES is no part of a write. -/
theorem Write.apply_setRes (s : State) (r : BitVec 4) (w : Write) : w.apply (s.setRes r) = (w.apply s).setRes r := by
  cases w with
  | flags o => cases o <;> rfl
  | _ => rfl

/-- A piece that no write of a list writes keeps its value. -/
theorem applyWrites_agreeOn_other {s : State} {ws : List Write} {p : Piece} (h : ∀ w ∈ ws, p ≠ w.piece) :
    agreeOn (applyWrites s ws) s p := by
  induction ws generalizing s with
  | nil => exact agreeOn_refl s p
  | cons w ws ih =>
    rw [List.forall_mem_cons] at h
    exact agreeOn_trans (ih h.2) (w.apply_agreeOn_other s h.1)

/-- A piece that some write of a list writes holds the same after the list, whatever the state before. -/
theorem applyWrites_agreeOn_piece {s s' : State} {ws : List Write} {p : Piece} (h : ∃ w ∈ ws, p = w.piece) :
    agreeOn (applyWrites s ws) (applyWrites s' ws) p := by
  induction ws generalizing s s' with
  | nil => simp at h
  | cons w ws ih =>
    by_cases hrest : ∃ w ∈ ws, p = w.piece
    · exact ih hrest
    · obtain rfl : p = w.piece := by simpa [hrest] using h
      have hkeep : ∀ u ∈ ws, w.piece ≠ u.piece := fun u hu he => hrest ⟨u, hu, he⟩
      rw [applyWrites_cons, applyWrites_cons]
      exact agreeOn_trans (applyWrites_agreeOn_other hkeep)
        (agreeOn_trans (w.apply_agreeOn_piece s s') (agreeOn_symm (applyWrites_agreeOn_other hkeep)))

@[simp] theorem applyWrites_pending (s : State) (ws : List Write) : (applyWrites s ws).pending = s.pending := by
  induction ws generalizing s with
  | nil => rfl
  | cons w ws ih => simp [ih]

theorem applyWrites_setRes (s : State) (r : BitVec 4) (ws : List Write) :
    applyWrites (s.setRes r) ws = (applyWrites s ws).setRes r := by
  induction ws generalizing s with
  | nil => rfl
  | cons w ws ih => rw [applyWrites_cons, w.apply_setRes, ih, applyWrites_cons]

/-! ### Canonical writes -/

/-- The part of the invariant that speaks of one piece of state each (R21, R23, R27, R33, R60). -/
structure State.DataCanonical (s : State) : Prop where
  acc : s.acc.Canonical
  v (r : VReg) : (s.getV r).Canonical
  lut : s.lut.CodesFit
  inBuf : s.inBuf.wf
  outBuf : s.outBuf.wf
  flags : s.bitv = false → s.bit = false

/-- The part of the invariant that speaks of RES, HALT and HCAUSE (R250, R260). -/
def State.ResLegal (s : State) : Prop :=
  (s.halt = true → s.hcause = 2 ∧ s.res = 2) ∧ (s.halt = false → s.hcause = 0 ∧ s.res ≠ 2) ∧ s.res.toNat ≤ 7

theorem State.inv_iff (s : State) : s.Inv ↔ s.DataCanonical ∧ s.ResLegal := by
  constructor
  · rintro ⟨⟨hacc, hv⟩, hlut, ⟨hin, hout⟩, hhalt, hrun, hres, hflags⟩
    exact ⟨⟨hacc, hv, hlut, hin, hout, hflags⟩, hhalt, hrun, hres⟩
  · rintro ⟨⟨hacc, hv, hlut, hin, hout, hflags⟩, hhalt, hrun, hres⟩
    exact ⟨⟨hacc, hv⟩, hlut, ⟨hin, hout⟩, hhalt, hrun, hres, hflags⟩

/-- What a write must carry to keep the invariant. -/
def Write.Canonical : Write → Prop
  | .acc a => a.Canonical
  | .v _ x => x.Canonical
  | .lut t => t.CodesFit
  | .inBuf m => m.wf
  | .outBuf m => m.wf
  | .len _ => True
  | .it _ => True
  | .flags _ => True

theorem Write.apply_dataCanonical {s : State} (hs : s.DataCanonical) {w : Write} (hw : w.Canonical) :
    (w.apply s).DataCanonical := by
  cases w with
  | acc a => exact { hs with acc := hw }
  | v r x =>
    have hv (q : VReg) : ((s.setV r x).getV q).Canonical := by
      rw [State.getV_setV]
      split
      · exact hw
      · exact hs.v q
    exact { hs with v := hv }
  | lut t => exact { hs with lut := hw }
  | inBuf m => exact { hs with inBuf := hw }
  | outBuf m => exact { hs with outBuf := hw }
  | len n => exact { hs with }
  | it l => exact { hs with }
  | flags o =>
    cases o with
    | none => exact { hs with flags := fun _ => rfl }
    | some b => exact { hs with flags := nofun }

theorem applyWrites_dataCanonical {s : State} (hs : s.DataCanonical) {ws : List Write} (hw : ∀ w ∈ ws, w.Canonical) :
    (applyWrites s ws).DataCanonical := by
  induction ws generalizing s with
  | nil => exact hs
  | cons w ws ih =>
    rw [List.forall_mem_cons] at hw
    exact ih (Write.apply_dataCanonical hs hw.1) hw.2

/-! ### Effects: writes, then the end of the command -/

/-- What a running command does: its writes, and the error it then raises, if any (R15, R66). -/
structure Effect where
  writes : List Write
  error : Option Err

/-- The end of a command: RES 0, or the error raised (R15). -/
def State.finish (s : State) : Option Err → State
  | none => s.setRes 0
  | some e => s.raise e

/-- The state an effect leaves. -/
def Effect.run (f : Effect) (s : State) : State := (applyWrites s f.writes).finish f.error

/-- An effect as the way a command's work ends. -/
def Effect.result (f : Effect) (s : State) : Result :=
  match f.error with
  | none => .done (applyWrites s f.writes)
  | some e => .raised e (applyWrites s f.writes)

theorem exec_of_result {i : Instr} {s : State} {f : Effect} (h : s.halt = false)
    (hw : commandWork Config.capacities i s = f.result s) : exec i s = .next (f.run s) := by
  obtain ⟨ws, _ | e⟩ := f
  · exact exec_done h hw
  · exact exec_raised h hw

/-- An effect keeps to the given pieces, and halts only if HALT is one of them. -/
structure Effect.Within (f : Effect) (ps : List Piece) : Prop where
  writes : ∀ w ∈ f.writes, w.piece ∈ ps
  halts : f.error = some .logic → .halt ∈ ps

@[simp] theorem State.finish_pending (s : State) (o : Option Err) : (s.finish o).pending = s.pending := by
  cases o <;> simp [State.finish]

/-- The end of a command writes RES, and HALT with HCAUSE exactly for the fatal error (R256, R259). -/
theorem State.finish_agreeOn_other (s : State) {o : Option Err} {p : Piece} (h : o = some .logic → p ≠ .halt) :
    agreeOn (s.finish o) s p := by
  cases o with
  | none => exact agreeOn_refl s p
  | some e =>
    by_cases he : e = .logic
    · subst he
      cases p
      case halt => exact absurd rfl (h rfl)
      all_goals simp [agreeOn, State.finish]
    · rw [State.finish, State.raise_recoverable s he]
      exact agreeOn_refl s p

theorem Write.piece_ne_halt (w : Write) : w.piece ≠ .halt := by cases w <;> simp [Write.piece]

/-- What an effect neither writes nor halts, it keeps. -/
theorem Effect.run_agreeOn_kept {f : Effect} {p : Piece} (hw : ∀ w ∈ f.writes, p ≠ w.piece)
    (hl : f.error = some .logic → p ≠ .halt) (s : State) : agreeOn (f.run s) s p :=
  agreeOn_trans (State.finish_agreeOn_other _ hl) (applyWrites_agreeOn_other hw)

theorem Effect.run_agreeOn_outside {f : Effect} {ps : List Piece} (hf : f.Within ps) {p : Piece} (hp : p ∉ ps)
    (s : State) : agreeOn (f.run s) s p :=
  Effect.run_agreeOn_kept (p := p) (fun w hw he => hp (he ▸ hf.writes w hw)) (fun he hh => hp (hh ▸ hf.halts he)) s

/-- An effect gives each piece a value that does not depend on the state before, or keeps it. -/
theorem Effect.run_agreeOn_or_kept (f : Effect) (s s' : State) (p : Piece) :
    agreeOn (f.run s) (f.run s') p ∨ (agreeOn (f.run s) s p ∧ agreeOn (f.run s') s' p) := by
  by_cases hw : ∃ w ∈ f.writes, p = w.piece
  · have hend (t : State) : agreeOn (t.finish f.error) t p := by
      obtain ⟨w, -, rfl⟩ := hw
      exact State.finish_agreeOn_other t (fun _ => w.piece_ne_halt)
    exact .inl (agreeOn_trans (hend _) (agreeOn_trans (applyWrites_agreeOn_piece hw) (agreeOn_symm (hend _))))
  · by_cases hl : f.error = some .logic ∧ p = .halt
    · obtain ⟨he, rfl⟩ := hl
      exact .inl (by simp [agreeOn, Effect.run, State.finish, he, Err.fatal])
    · have hkept := Effect.run_agreeOn_kept (fun w hm he => hw ⟨w, hm, he⟩) (fun he hp => hl ⟨he, hp⟩)
      exact .inr ⟨hkept s, hkept s'⟩

@[simp] theorem Effect.run_pending (f : Effect) (s : State) : (f.run s).pending = s.pending := by simp [Effect.run]

theorem Effect.run_res (f : Effect) (s : State) : (f.run s).res = (f.error.map Err.code).getD 0 := by
  cases he : f.error <;> simp [Effect.run, State.finish, he]

/-- An effect overwrites RES. -/
theorem Effect.run_setRes (f : Effect) (s : State) (r : BitVec 4) : f.run (s.setRes r) = f.run s := by
  rw [Effect.run, applyWrites_setRes, Effect.run]
  match f.error with
  | none => rfl
  | some e => cases e <;> rfl

theorem State.finish_dataCanonical {s : State} (hs : s.DataCanonical) (o : Option Err) :
    (s.finish o).DataCanonical := by
  match o with
  | none => exact { hs with }
  | some e => cases e <;> exact { hs with }

/-- The end of a command of a running core leaves RES, HALT and HCAUSE legal (R250, R256). -/
theorem State.finish_resLegal {s : State} (hh : s.halt = false) (hc : s.hcause = 0) (o : Option Err) :
    (s.finish o).ResLegal := by
  match o with
  | none => simp [State.ResLegal, State.finish, hh, hc]
  | some e => cases e <;> simp [State.ResLegal, State.finish, hh, hc, Err.fatal, Err.code]

/-- An effect with canonical writes keeps the invariant of a running core. -/
theorem Effect.run_inv {f : Effect} {s : State} (hs : s.Inv) (hh : s.halt = false) (hw : ∀ w ∈ f.writes, w.Canonical) :
    (f.run s).Inv := by
  obtain ⟨hdata, -, hrun, -⟩ := s.inv_iff.1 hs
  obtain ⟨hhalt, hcause⟩ : agreeOn (applyWrites s f.writes) s .halt :=
    applyWrites_agreeOn_other (fun w _ => w.piece_ne_halt.symm)
  exact (State.inv_iff _).2 ⟨State.finish_dataCanonical (applyWrites_dataCanonical hdata hw) _,
    State.finish_resLegal (hhalt.trans hh) (hcause.trans (hrun hh).1) _⟩

/-! ### The values commands write are canonical -/

/-- The accumulator's parse loop keeps the accumulator canonical (R113). -/
theorem parseAccFrom_canonical {a a' : Acc} {text : List Byte} (ha : a.Canonical) (h : parseAccFrom a text = .ok a') :
    a'.Canonical := by
  induction text generalizing a with
  | nil => cases h; exact ha
  | cons c cs ih =>
    rw [parseAccFrom] at h
    split at h
    · cases h
    · split at h
      · cases h
      · next hb => exact ih (Acc.appendBit_bits ha hb).2.1 h

/-- A text that the vector's parse loop accepts gives a canonical vector (R144). -/
theorem parseVectorFrom_canonical {x x' : BitVector} {text : List Byte} (hx : x.Canonical)
    (h : parseVectorFrom x text = .ok x') : x'.Canonical := by
  rw [parseVectorFrom_spec text hx] at h
  split at h
  · cases h; exact pack_canonical _
  · cases h

/-- A Dictionary frame records code lengths in bytes, so every code it spells fits (R27, R225). -/
theorem parseDictFrame_codesFit {f : List Byte} {t : Lut} (h : parseDictFrame f = some t) : t.CodesFit := by
  have hwf : DictFrameWf f := by
    by_contra hn
    rw [(parseDictFrame_eq f).2 hn] at h
    cases h
  intro sym c hc
  obtain ⟨i, hi, he⟩ := List.mem_map.1 ((mem_frameEntries hwf h sym c).2 hc)
  obtain rfl : frameCode f i = c := congrArg Prod.snd he
  rw [frameCode_length hwf (List.mem_range.1 hi), Config.codeLenMax, frameLen]
  omega

/-! ### The effect of every command -/

/-- Two results of a command's work are one effect on two states: it keeps to the command's targets, and from a
canonical state it writes canonical values. -/
def SameEffect (i : Instr) (s s' : State) (r r' : Result) : Prop :=
  ∃ f : Effect, f.Within (commandTargets i) ∧ (s.DataCanonical → ∀ w ∈ f.writes, w.Canonical) ∧
    r = f.result s ∧ r' = f.result s'

section

variable {i : Instr} {s s' : State}

theorem SameEffect.done (ws : List Write) (ht : ws.Forall (·.piece ∈ commandTargets i))
    (hc : s.DataCanonical → ws.Forall Write.Canonical) :
    SameEffect i s s' (.done (applyWrites s ws)) (.done (applyWrites s' ws)) :=
  ⟨⟨ws, none⟩, ⟨List.forall_iff_forall_mem.1 ht, nofun⟩, fun hs => List.forall_iff_forall_mem.1 (hc hs), rfl, rfl⟩

/-- The usual case: one write. -/
theorem SameEffect.write (w : Write) (hc : s.DataCanonical → w.Canonical)
    (ht : w.piece ∈ commandTargets i := by simp [Write.piece, commandTargets]) :
    SameEffect i s s' (.done (w.apply s)) (.done (w.apply s')) :=
  .done [w] ht hc

theorem SameEffect.raised (ws : List Write) (ht : ws.Forall (·.piece ∈ commandTargets i))
    (hc : s.DataCanonical → ws.Forall Write.Canonical) {e : Err} (hl : e = .logic → .halt ∈ commandTargets i) :
    SameEffect i s s' (.raised e (applyWrites s ws)) (.raised e (applyWrites s' ws)) :=
  ⟨⟨ws, some e⟩, ⟨List.forall_iff_forall_mem.1 ht, fun he => hl (Option.some.inj he)⟩,
    fun hs => List.forall_iff_forall_mem.1 (hc hs), rfl, rfl⟩

/-- The usual error: nothing written. -/
theorem SameEffect.raise {e : Err} (hl : e = .logic → .halt ∈ commandTargets i) :
    SameEffect i s s' (.raised e s) (.raised e s') :=
  .raised [] trivial (fun _ => trivial) hl

/-- What a command does, said once (R41): from any two states that agree on its sources its work has one effect. -/
theorem commandWork_sameEffect (h : ∀ p ∈ commandSources i, agreeOn s s' p) :
    SameEffect i s s' (commandWork Config.capacities i s) (commandWork Config.capacities i s') := by
  replace h := List.forall_iff_forall_mem.2 h
  cases i
  case accClr => exact .write (.acc .empty) fun _ => Acc.canonical_empty
  case accAppb b =>
    have hacc : s.acc = s'.acc := h
    simp only [commandWork, accAppbWork, ← hacc]
    cases ha : s.acc.appendBit b with
    | none => exact .raise fun _ => by simp [commandTargets]
    | some a => exact .write (.acc a) fun hs => (Acc.appendBit_bits hs.acc ha).2.1
  case accParse =>
    have hin : s.inBuf = s'.inBuf := h
    simp only [commandWork, accParseWork, State.inBytes, ← hin]
    cases ha : parseAccFrom Acc.empty s.inBuf.bytes with
    | error e => exact .raise fun _ => by simp [commandTargets]
    | ok a => exact .write (.acc a) fun _ => parseAccFrom_canonical Acc.canonical_empty ha
  case accText =>
    have hacc : s.acc = s'.acc := h
    simp only [commandWork, accTextWork, ← hacc]
    exact .write (.outBuf _) fun _ => Memory.wf_ofBytes _
  case bvClr v => exact .write (.v v .empty) fun _ => BitVector.canonical_empty
  case bvAppb vd b =>
    have hvd : s.getV vd = s'.getV vd := h
    simp only [commandWork, bvAppbWork, ← hvd]
    exact .write (.v vd _) fun hs => (BitVector.appendBit_bits (hs.v vd) b).2
  case bvAppa vd =>
    obtain ⟨hvd, hacc⟩ : s.getV vd = s'.getV vd ∧ s.acc = s'.acc := h
    simp only [commandWork, bvAppaWork, ← hvd, ← hacc]
    exact .write (.v vd _) fun hs => (BitVector.appendAcc_bits (hs.v vd) hs.acc).2
  case bvAppv vd vs =>
    obtain ⟨hvd, hvs⟩ : s.getV vd = s'.getV vd ∧ s.getV vs = s'.getV vs := h
    simp only [commandWork, bvAppvWork, ← hvd, ← hvs]
    exact .write (.v vd _) fun hs => (BitVector.appendVector_bits (hs.v vd) (hs.v vs)).2
  case bvLen v =>
    have hv : s.getV v = s'.getV v := h
    simp only [commandWork, bvLenWork, ← hv]
    exact .write (.len _) fun _ => trivial
  case bvParse vd =>
    have hin : s.inBuf = s'.inBuf := h
    simp only [commandWork, bvParseWork, State.inBytes, ← hin]
    cases hx : parseVectorFrom BitVector.empty s.inBuf.bytes with
    | error e =>
      obtain rfl := parseVectorFrom_error hx
      exact .raise nofun
    | ok x => exact .write (.v vd x) fun _ => parseVectorFrom_canonical BitVector.canonical_empty hx
  case bvIter v =>
    have hv : s.getV v = s'.getV v := h
    simp only [commandWork, bvIterWork, ← hv]
    exact .done [.it _, .v v .empty, .flags none] (by simp [Write.piece, commandTargets])
      fun _ => ⟨trivial, BitVector.canonical_empty, trivial⟩
  case bvNext =>
    have hit : s.itRem = s'.itRem := h
    simp only [commandWork, bvNextWork, ← hit]
    cases s.itRem with
    | nil => exact .write (.flags none) fun _ => trivial
    | cons b rest =>
      exact .done [.it rest, .flags (some b)] (by simp [Write.piece, commandTargets]) fun _ => ⟨trivial, trivial⟩
  case hufBuild =>
    have hin : s.inBuf = s'.inBuf := h
    simp only [commandWork, buildWork_eq, State.inBytes, ← hin]
    exact .write (.lut _) fun _ => buildTable_codesFit _
  case hufMap vd =>
    obtain ⟨hin, hlut⟩ : s.inBuf = s'.inBuf ∧ s.lut = s'.lut := h
    simp only [commandWork, mapWork, State.inBytes, ← hin, ← hlut]
    cases mapSymbols s.lut s.inBuf.bytes with
    | none => exact .raise fun _ => by simp [commandTargets]
    | some out => exact .write (.v vd _) fun _ => pack_canonical out
  case hufEncode vd =>
    have hin : s.inBytes = s'.inBytes := congrArg Memory.bytes h
    obtain ⟨codes, hc, he⟩ := encodeWork_eq s vd
    obtain ⟨codes', hc', he'⟩ := encodeWork_eq s' vd
    rw [← hin] at hc' he'
    obtain rfl : codes = codes' := (Option.some_injective Bits).list_map (hc.symm.trans hc')
    rw [commandWork, he, he']
    exact .done [.lut _, .v vd _] (by simp [Write.piece, commandTargets])
      fun _ => ⟨buildTable_codesFit _, pack_canonical _⟩
  case hufDecode vs =>
    obtain ⟨hvs, hlut⟩ : s.getV vs = s'.getV vs ∧ s.lut = s'.lut := h
    simp only [commandWork, hufDecodeWork, ← hvs, ← hlut]
    cases hd : decodeBits s.lut (s.getV vs).bits with
    | error e =>
      have he : e ≠ .logic := by rcases decodeBits_error hd with ⟨rfl, -⟩ | ⟨rfl, -⟩ <;> decide
      exact .raised [.v vs .empty] (by simp [Write.piece, commandTargets])
        (fun _ => BitVector.canonical_empty) (fun hl => absurd hl he)
    | ok out =>
      exact .done [.v vs .empty, .outBuf _] (by simp [Write.piece, commandTargets])
        fun _ => ⟨BitVector.canonical_empty, Memory.wf_ofBytes _⟩
  case serBv v =>
    have hv : s.getV v = s'.getV v := h
    simp only [commandWork, serBvWork, ← hv]
    exact .write (.outBuf _) fun _ => Memory.wf_ofBytes _
  case desBv vd =>
    have hin : s.inBuf = s'.inBuf := h
    simp only [commandWork, desBvWork, State.inBytes, ← hin]
    cases hx : parseVectorFrame s.inBuf.bytes with
    | none => exact .raise nofun
    | some x => exact .write (.v vd x) fun _ => (vectorFrame_of_parse hx).1
  case serDict =>
    have hlut : s.lut = s'.lut := h
    have hcount : s.nLut = s'.nLut := congrArg (fun t : Lut => t.entries.length) hlut
    simp only [commandWork, serDictWork, ← hlut, ← hcount]
    split
    · exact .raise nofun
    · exact .write (.outBuf _) fun _ => Memory.wf_ofBytes _
  case desDict =>
    have hin : s.inBuf = s'.inBuf := h
    simp only [commandWork, desDictWork, State.inBytes, ← hin]
    cases ht : parseDictFrame s.inBuf.bytes with
    | none => exact .raise nofun
    | some t => exact .write (.lut t) fun _ => parseDictFrame_codesFit ht
  case inClr => exact .write (.inBuf []) fun _ => Memory.wf_nil
  case inPush imm8 =>
    have hin : s.inBuf = s'.inBuf := h
    simp only [commandWork, inPushWork, ← hin]
    exact .write (.inBuf _) fun hs => Memory.wf_push hs.inBuf imm8
  case ioXfer =>
    have hout : s.outBuf = s'.outBuf := h
    simp only [commandWork, ioXferWork, ← hout]
    exact .done [.inBuf _, .outBuf []] (by simp [Write.piece, commandTargets]) fun hs => ⟨hs.outBuf, Memory.wf_nil⟩

/-- Executing a command from two running states that agree on its sources: one effect on both. -/
theorem exec_effect (hh : s.halt = false) (hh' : s'.halt = false) (h : ∀ p ∈ commandSources i, agreeOn s s' p) :
    ∃ f : Effect, f.Within (commandTargets i) ∧ (s.DataCanonical → ∀ w ∈ f.writes, w.Canonical) ∧
      exec i s = .next (f.run s) ∧ exec i s' = .next (f.run s') := by
  obtain ⟨f, hf, hc, hw, hw'⟩ := commandWork_sameEffect h
  exact ⟨f, hf, hc, exec_of_result hh hw, exec_of_result hh' hw'⟩

end

/-! ### The invariant along every step -/

theorem exec_inv {i : Instr} {s t : State} (hs : s.Inv) (hx : exec i s = .next t) : t.Inv := by
  cases hh : s.halt
  · obtain ⟨f, -, hc, hrun, -⟩ := exec_effect (i := i) hh hh (fun p _ => agreeOn_refl s p)
    obtain rfl := Host.Outcome.next.inj (hrun.symm.trans hx)
    exact Effect.run_inv hs hh (hc (s.inv_iff.1 hs).1)
  · obtain rfl := Host.Outcome.next.inj ((exec_halted i hh).symm.trans hx)
    exact hs

theorem execIllegal_inv {e : Illegal} {s t : State} (hs : s.Inv) (hx : execIllegal e s = .next t) : t.Inv := by
  cases hh : s.halt
  · obtain rfl := Host.Outcome.next.inj ((execIllegal_running e hh).symm.trans hx)
    exact Effect.run_inv (f := ⟨[], some .illegal⟩) hs hh nofun
  · obtain rfl := Host.Outcome.next.inj ((execIllegal_halted e hh).symm.trans hx)
    exact hs

theorem stepWord_inv {w : Word} {s t : State} (hs : s.Inv) (hx : stepWord w s = .next t) : t.Inv := by
  cases hd : decode w with
  | ok i => exact exec_inv hs ((stepWord_of_decode_ok hd s).symm.trans hx)
  | error e => exact execIllegal_inv hs ((stepWord_of_decode_error hd s).symm.trans hx)

theorem State.reset_lut : State.reset.lut = Lut.empty := rfl

theorem State.reset_getV (r : VReg) : State.reset.getV r = BitVector.empty := by
  simp [State.getV, State.reset]

theorem State.reset_inv : State.reset.Inv := by
  refine (State.inv_iff _).2 ⟨⟨Acc.canonical_empty, fun r => ?_, fun sym c h => ?_, Memory.wf_nil, Memory.wf_nil,
    fun _ => rfl⟩, by unfold State.ResLegal; decide⟩
  · rw [State.reset_getV]
    exact BitVector.canonical_empty
  · rw [State.reset_lut, Lut.get_empty] at h
    cases h

/-! ### The statements -/

/-- Settles O12: a word's execution is an effect with canonical writes, and the other steps reset or wait. -/
theorem everyStepKeepsTheCanonicalState : Obligations.EveryStepKeepsTheCanonicalState := by
  intro s t hs hx
  match hp : s.pending with
  | [] =>
    obtain rfl := Host.Outcome.next.inj ((step_waits hp).symm.trans hx)
    exact hs
  | .reset :: rest =>
    obtain rfl := Host.Outcome.next.inj ((step_reset hp).symm.trans hx)
    exact State.reset_inv
  | .issue w :: rest => exact stepWord_inv (s := { s with pending := rest }) hs ((step_issue hp).symm.trans hx)

/-- Settles O13: the reset registers are empty, its LUT has no code, and no error is recorded. -/
theorem resetStateIsCanonical : Obligations.ResetStateIsCanonical := State.reset_inv

/-- Settles O14: states that differ in RES agree on every source, and an effect overwrites RES. -/
theorem resIsWrittenAndNeverRead : Obligations.ResIsWrittenAndNeverRead := by
  intro i s r hh
  obtain ⟨f, -, -, hrun, hrun'⟩ :=
    exec_effect (i := i) (s' := s.setRes r) hh hh (fun p _ => by cases p <;> simp [agreeOn])
  exact ⟨by rw [hrun, ← f.run_setRes s r]; exact hrun', exec_running i hh⟩

/-- Settles O18: an effect keeps every piece outside the command's targets. -/
theorem commandsWriteOnlyTheirTargets : Obligations.CommandsWriteOnlyTheirTargets := by
  intro i s t hx
  obtain ⟨hkeep, hpending⟩ : (∀ p ∉ commandTargets i, agreeOn t s p) ∧ t.pending = s.pending := by
    cases hh : s.halt
    · obtain ⟨f, hf, -, hrun, -⟩ := exec_effect (i := i) hh hh (fun p _ => agreeOn_refl s p)
      obtain rfl := Host.Outcome.next.inj (hrun.symm.trans hx)
      exact ⟨fun p hp => Effect.run_agreeOn_outside hf hp s, f.run_pending s⟩
    · obtain rfl := Host.Outcome.next.inj ((exec_halted i hh).symm.trans hx)
      exact ⟨fun p _ => agreeOn_refl s p, rfl⟩
  have hbuffer {m m' : Memory} (h : m = m') : m.length = m'.length ∧ ∀ addr, m.readByte addr = m'.readByte addr :=
    h ▸ ⟨rfl, fun _ => rfl⟩
  exact ⟨hkeep .acc, fun r => hkeep (.v r), hkeep .lut, fun h => hbuffer (hkeep .inBuf h),
    fun h => hbuffer (hkeep .outBuf h), hkeep .len, hkeep .it, hkeep .flags, hkeep .halt, hpending⟩

/-- Settles O19: from both states the command has one effect, which fixes or keeps each piece. -/
theorem commandsReadOnlyTheirSources : Obligations.CommandsReadOnlyTheirSources := by
  intro i s s' hh hh' h
  obtain ⟨f, -, -, hrun, hrun'⟩ := exec_effect hh hh' h
  exact ⟨f.run s, f.run s', hrun, hrun', by rw [f.run_res, f.run_res], fun p _ => f.run_agreeOn_or_kept s s' p⟩

/-- Settles O9: the fields of the reset state, and no symbol with a code to count. -/
theorem resetLeavesTheResetValues : Obligations.ResetLeavesTheResetValues := by
  have hlut (sym : Byte) : State.reset.lut.get sym = none := by rw [State.reset_lut, Lut.get_empty]
  have hcount : State.reset.nLut = 0 := by simp [State.nLut, Lut.entries_length, hlut]
  exact ⟨rfl, State.reset_getV, hlut, hcount, rfl, rfl, rfl, rfl, rfl, rfl, rfl, rfl, rfl, rfl, rfl⟩

/-- Settles O59: N_LUT counts the entries of the LUT, and a gapless OUT reads as its content. -/
theorem portsShowTheRegisters : Obligations.PortsShowTheRegisters := fun s =>
  ⟨rfl, rfl, rfl, rfl, rfl, rfl, congrArg some s.inBytes_length.symm, congrArg some s.outBytes_length.symm, rfl, rfl,
    congrArg some s.lut.entries_length, fun h => Memory.readByte_of_wf h⟩

end Sys2Proof.Machine
end

section
/-! The decoder and the encoder, said once: a word decodes by the one row that accepts it, a row accepts exactly the
well-formed words of its opcode, and the encoder writes back the fields that a row reads (30_encoding.md R80 to R93).
The encoding family's statements about words are settled from these. -/

namespace Sys2Proof

/-! ### The rows -/

/-- No two rows have the same opcode. -/
theorem rowOpcodes_nodup : (commandRows.map (fun r => fieldOp r.matchBits)).Nodup := by decide

theorem Row.eq_of_opcode {r q : Row} (hr : r ∈ commandRows) (hq : q ∈ commandRows)
    (h : fieldOp r.matchBits = fieldOp q.matchBits) : r = q :=
  List.inj_on_of_nodup_map rowOpcodes_nodup hr hq h

/-- R88: the rows are disjoint. -/
theorem Row.eq_of_accepts {r q : Row} (hr : r ∈ commandRows) (hq : q ∈ commandRows) {w : Word}
    (hrw : r.accepts w = true) (hqw : q.accepts w = true) : r = q :=
  Row.eq_of_opcode hr hq (((Row.accepts_iff hr w).1 hrw).1.symm.trans ((Row.accepts_iff hq w).1 hqw).1)

theorem Row.accepts_eq_true_iff {r : Row} {w : Word} : r.accepts w = true ↔ w &&& r.mask = r.matchBits := beq_iff_eq

/-- The two word checks as one: the opcode has a format, and the bits that format does not use are zero. -/
theorem wordWellFormed_iff (w : Word) :
    wordWellFormed w = true ↔ ∃ f, formatOfOpcode (fieldOp w) = some f ∧ w &&& f.zeroBits = 0 := by
  rw [wordWellFormed, opcodeAssigned, unusedBitsZero, ← fieldOp]
  cases formatOfOpcode (fieldOp w) <;> simp

/-- Some row accepts a word exactly when the word passes the two checks (R88, R91, R92). -/
theorem exists_row_accepts_iff (w : Word) :
    (∃ r ∈ commandRows, r.accepts w = true) ↔ wordWellFormed w = true := by
  rw [wordWellFormed_iff]
  constructor
  · rintro ⟨r, hr, h⟩
    obtain ⟨hop, hz⟩ := (Row.accepts_iff hr w).1 h
    exact ⟨r.format, (formatOfOpcode_eq_some_iff _ _).2 ⟨r, hr, hop.symm, rfl⟩, hz⟩
  · rintro ⟨f, hf, hz⟩
    obtain ⟨r, hr, hop, rfl⟩ := (formatOfOpcode_eq_some_iff _ _).1 hf
    exact ⟨r, hr, (Row.accepts_iff hr w).2 ⟨hop.symm, hz⟩⟩

theorem no_row_matches_iff (w : Word) :
    (∀ r ∈ commandRows, w &&& r.mask ≠ r.matchBits) ↔ wordWellFormed w = false := by
  rw [← Bool.not_eq_true, ← exists_row_accepts_iff]
  simp only [Row.accepts_eq_true_iff, not_exists, not_and, ne_eq]

/-! ### The decoder -/

/-- A word that a row accepts decodes to the command the row builds. -/
theorem decode_of_accepts {r : Row} (hr : r ∈ commandRows) {w : Word} (h : r.accepts w = true) :
    decode w = .ok (r.build w) := by
  have hfound : (commandRows.find? (fun q => q.accepts w)).isSome := List.find?_isSome.2 ⟨r, hr, h⟩
  obtain ⟨q, hf⟩ := Option.isSome_iff_exists.1 hfound
  have hq : q.accepts w = true := List.find?_some (p := fun q : Row => q.accepts w) hf
  obtain rfl := Row.eq_of_accepts (List.mem_of_find?_eq_some hf) hr hq h
  simp only [decode, hf]

/-- A word that no row accepts is rejected, by the first check that fails (R91, R92; log entry 11). -/
theorem decode_of_ill_formed {w : Word} (h : wordWellFormed w = false) :
    decode w = .error (if opcodeAssigned w then .mustBeZero else .unassignedOpcode) := by
  have hf : commandRows.find? (fun r => r.accepts w) = none := by
    simpa only [List.find?_eq_none, Row.accepts_eq_true_iff] using (no_row_matches_iff w).2 h
  simp only [decode, hf]
  split <;> rfl

theorem decode_eq_ok_iff (w : Word) (i : Instr) :
    decode w = .ok i ↔ ∃ r ∈ commandRows, r.accepts w = true ∧ i = r.build w := by
  constructor
  · intro h
    cases hwf : wordWellFormed w with
    | false => rw [decode_of_ill_formed hwf] at h; cases h
    | true =>
      obtain ⟨r, hr, hw⟩ := (exists_row_accepts_iff w).2 hwf
      rw [decode_of_accepts hr hw] at h
      cases h
      exact ⟨r, hr, hw, rfl⟩
  · rintro ⟨r, hr, hw, rfl⟩
    exact decode_of_accepts hr hw

theorem exists_decode_eq_ok_iff (w : Word) : (∃ i, decode w = .ok i) ↔ wordWellFormed w = true := by
  rw [← exists_row_accepts_iff]
  constructor
  · rintro ⟨i, h⟩
    obtain ⟨r, hr, hw, -⟩ := (decode_eq_ok_iff w i).1 h
    exact ⟨r, hr, hw⟩
  · rintro ⟨r, hr, hw⟩
    exact ⟨_, decode_of_accepts hr hw⟩

/-- A rejection is that of an ill-formed word, with the reason the first check gives. -/
theorem decode_eq_error_iff (w : Word) (e : Illegal) :
    decode w = .error e ↔
      wordWellFormed w = false ∧ e = if opcodeAssigned w then .mustBeZero else .unassignedOpcode := by
  cases hwf : wordWellFormed w with
  | false =>
    rw [decode_of_ill_formed hwf]
    exact ⟨fun h => ⟨rfl, (Except.error.inj h).symm⟩, fun ⟨_, h⟩ => congrArg _ h.symm⟩
  | true =>
    obtain ⟨i, hi⟩ := (exists_decode_eq_ok_iff w).2 hwf
    simp [hi]

/-! ### Writing back the fields that were read (R82) -/

/-- The bits `k` to `k + n - 1` of a word, put back where they stood, are the word under the mask of these bits. -/
theorem setWidth_extractLsb'_shiftLeft (w m : Word) {k n : Nat}
    (hm : ∀ i < 16, m.getLsbD i = (decide (k ≤ i) && decide (i < k + n))) :
    ((w.extractLsb' k n).setWidth 16) <<< k = w &&& m := by
  refine BitVec.eq_of_getLsbD_eq fun i hi => ?_
  simp only [BitVec.getLsbD_shiftLeft, BitVec.getLsbD_setWidth, BitVec.getLsbD_extractLsb', BitVec.getLsbD_and, hm i hi]
  by_cases hk : k ≤ i
  · simp [hi, hk, show i - k < 16 by omega, show k + (i - k) = i by omega, show i - k < n ↔ i < k + n by omega,
      Bool.and_comm]
  · simp [hk]

theorem encReg_toFin (x : BitVec 2) : encReg x.toFin = x.setWidth 16 := by revert x; decide

theorem encBit_getLsbD (w : Word) (k : Nat) : encBit (w.getLsbD k) = (w.extractLsb' k 1).setWidth 16 := by
  refine BitVec.eq_of_getLsbD_eq fun i hi => ?_
  rw [BitVec.getLsbD_setWidth, BitVec.getLsbD_extractLsb']
  rcases i with _ | i <;> cases w.getLsbD k <;> simp [encBit, *]

theorem encReg_fieldVd (w : Word) : encReg (fieldVd w) = w &&& 0x0003 := by
  rw [fieldVd, encReg_toFin, ← setWidth_extractLsb'_shiftLeft w 0x0003 (k := 0) (n := 2) (by decide),
    BitVec.shiftLeft_zero]

theorem encReg_fieldVs (w : Word) : encReg (fieldVs w) <<< 2 = w &&& 0x000C := by
  rw [fieldVs, encReg_toFin, setWidth_extractLsb'_shiftLeft w 0x000C (by decide)]

theorem encBit_fieldB (w : Word) : encBit (fieldB w) <<< 4 = w &&& 0x0010 := by
  rw [fieldB, encBit_getLsbD, setWidth_extractLsb'_shiftLeft w 0x0010 (by decide)]

theorem setWidth_fieldImm8 (w : Word) : (fieldImm8 w).setWidth 16 = w &&& 0x00FF := by
  rw [fieldImm8, ← setWidth_extractLsb'_shiftLeft w 0x00FF (k := 0) (n := 8) (by decide), BitVec.shiftLeft_zero]

/-- The word of the command a row builds from any word: the row's match, and the bits the row's mask does not test. -/
theorem encode_build {r : Row} (hr : r ∈ commandRows) (w : Word) :
    encode (r.build w) = r.matchBits ||| (w &&& ~~~r.mask) := by
  revert r
  simp [commandRows, accRows, bvRows, hufRows, serRows, ioRows, encode, encReg_fieldVd, encReg_fieldVs, encBit_fieldB,
    setWidth_fieldImm8, BitVec.or_assoc, ← BitVec.and_or_distrib_left]

theorem encode_of_decode {w : Word} {i : Instr} (h : decode w = .ok i) : encode i = w := by
  obtain ⟨r, hr, hw, rfl⟩ := (decode_eq_ok_iff w i).1 h
  calc encode (r.build w) = r.matchBits ||| (w &&& ~~~r.mask) := encode_build hr w
    _ = (w &&& r.mask) ||| (w &&& ~~~r.mask) := by rw [Row.accepts_eq_true_iff.1 hw]
    _ = w := by rw [← BitVec.and_or_distrib_left, BitVec.or_not_self, BitVec.and_allOnes]

/-! ### Reading back the fields that were written (R82) -/

theorem fieldVd_or_encReg {x : Word} (hx : fieldVd x = 0) (v : VReg) : fieldVd (x ||| encReg v) = v := by
  have hv : fieldVd (encReg v) = v := by revert v; decide
  rw [fieldVd] at hx hv ⊢
  rw [BitVec.extractLsb'_or, BitVec.toFin_or, hx, hv, show 0 ||| v = v by revert v; decide]

theorem fieldImm8_or_setWidth {x : Word} (hx : fieldImm8 x = 0) (imm8 : Byte) :
    fieldImm8 (x ||| imm8.setWidth 16) = imm8 := by
  rw [fieldImm8] at hx ⊢
  rw [BitVec.extractLsb'_or, hx, BitVec.extractLsb'_setWidth_of_le (by decide)]
  simp

/-- A command whose row, the row of its opcode, reads its operands back from its word is decoded from that word. -/
theorem decode_encode_of_row {i : Instr} (hi : Laws.WordShape.Statement i) {r : Row}
    (hr : commandRows.find? (fun q => fieldOp q.matchBits == i.opcode) = some r) (hb : r.build (encode i) = i) :
    decode (encode i) = .ok i := by
  obtain ⟨hwf, hop, -, -⟩ := hi
  have hmem : r ∈ commandRows := List.mem_of_find?_eq_some hr
  have hrop : fieldOp r.matchBits = i.opcode := by simpa using List.find?_some hr
  obtain ⟨q, hq, hw⟩ := (exists_row_accepts_iff (encode i)).2 hwf
  obtain rfl := Row.eq_of_opcode hmem hq (hrop.trans (hop.symm.trans ((Row.accepts_iff hq _).1 hw).1))
  rw [decode_of_accepts hq hw, hb]

open Laws in
/-- The round trip, command by command: the row of the command's opcode, and the operands that row reads. -/
theorem decode_encode (i : Instr) : decode (encode i) = .ok i := by
  cases i with
  | accClr => exact decode_encode_of_row WordShape.accClr rfl rfl
  | accAppb b => exact decode_encode_of_row (WordShape.accAppb b) rfl (by revert b; decide)
  | accParse => exact decode_encode_of_row WordShape.accParse rfl rfl
  | accText => exact decode_encode_of_row WordShape.accText rfl rfl
  | bvClr v => exact decode_encode_of_row (WordShape.bvClr v) rfl (congrArg Instr.bvClr (fieldVd_or_encReg rfl v))
  | bvAppb vd b => exact decode_encode_of_row (WordShape.bvAppb vd b) rfl (by revert vd b; decide)
  | bvAppa vd => exact decode_encode_of_row (WordShape.bvAppa vd) rfl (congrArg Instr.bvAppa (fieldVd_or_encReg rfl vd))
  | bvAppv vd vs => exact decode_encode_of_row (WordShape.bvAppv vd vs) rfl (by revert vd vs; decide)
  | bvLen v => exact decode_encode_of_row (WordShape.bvLen v) rfl (congrArg Instr.bvLen (fieldVd_or_encReg rfl v))
  | bvParse vd =>
    exact decode_encode_of_row (WordShape.bvParse vd) rfl (congrArg Instr.bvParse (fieldVd_or_encReg rfl vd))
  | bvIter v => exact decode_encode_of_row (WordShape.bvIter v) rfl (congrArg Instr.bvIter (fieldVd_or_encReg rfl v))
  | bvNext => exact decode_encode_of_row WordShape.bvNext rfl rfl
  | hufBuild => exact decode_encode_of_row WordShape.hufBuild rfl rfl
  | hufMap vd => exact decode_encode_of_row (WordShape.hufMap vd) rfl (congrArg Instr.hufMap (fieldVd_or_encReg rfl vd))
  | hufEncode vd =>
    exact decode_encode_of_row (WordShape.hufEncode vd) rfl (congrArg Instr.hufEncode (fieldVd_or_encReg rfl vd))
  | hufDecode vs =>
    exact decode_encode_of_row (WordShape.hufDecode vs) rfl (congrArg Instr.hufDecode (fieldVd_or_encReg rfl vs))
  | serBv v => exact decode_encode_of_row (WordShape.serBv v) rfl (congrArg Instr.serBv (fieldVd_or_encReg rfl v))
  | desBv vd => exact decode_encode_of_row (WordShape.desBv vd) rfl (congrArg Instr.desBv (fieldVd_or_encReg rfl vd))
  | serDict => exact decode_encode_of_row WordShape.serDict rfl rfl
  | desDict => exact decode_encode_of_row WordShape.desDict rfl rfl
  | inClr => exact decode_encode_of_row WordShape.inClr rfl rfl
  | inPush imm8 =>
    exact decode_encode_of_row (WordShape.inPush imm8) rfl (congrArg Instr.inPush (fieldImm8_or_setWidth rfl imm8))
  | ioXfer => exact decode_encode_of_row WordShape.ioXfer rfl rfl

/-! ### The assigned opcodes (R92) -/

/-- The opcodes with a format are those of the five listed ranges. -/
theorem formatOfOpcode_isSome_iff (op : Byte) :
    (formatOfOpcode op).isSome = true ↔
      (0x10 ≤ op.toNat ∧ op.toNat ≤ 0x13) ∨ (0x20 ≤ op.toNat ∧ op.toNat ≤ 0x27) ∨
      (0x30 ≤ op.toNat ∧ op.toNat ≤ 0x33) ∨ (0x40 ≤ op.toNat ∧ op.toNat ≤ 0x43) ∨
      (0x50 ≤ op.toNat ∧ op.toNat ≤ 0x52) := by
  unfold formatOfOpcode
  split <;> simp_all only [Option.isSome_some, Option.isSome_none, Bool.false_eq_true, true_iff, false_iff, imp_false] <;>
    omega

end Sys2Proof

namespace Sys2Proof.Machine

theorem stepWord_of_ill_formed {w : Word} (h : wordWellFormed w = false) (s : State) :
    (s.halt = false → stepWord w s = .next { s with res := 7 }) ∧ (s.halt = true → stepWord w s = .next s) := by
  refine ⟨fun hh => ?_, stepWord_halted w⟩
  rw [stepWord_of_decode_error (decode_of_ill_formed h), execIllegal_running _ hh]

/-! ### The statements about words -/

/-- Settles O2: the row of a command's opcode reads the command's operands back from its word. -/
theorem decodeGivesBackTheEncodedCommand : Obligations.DecodeGivesBackTheEncodedCommand := decode_encode

/-- Settles O3: a row's command has the word made of the row's match and of the bits its mask leaves. -/
theorem encodeGivesBackTheDecodedWord : Obligations.EncodeGivesBackTheDecodedWord := fun _ _ => encode_of_decode

/-- Settles O4, from the decoder's row and the disjointness of the rows. -/
theorem commandTableIsReadByMatchAndMask : Obligations.CommandTableIsReadByMatchAndMask := by
  refine ⟨rfl, fun w i => ?_, fun w r q hr hq hrw hqw => ?_⟩
  · simpa only [Row.accepts_eq_true_iff] using decode_eq_ok_iff w i
  · exact Row.eq_of_accepts hr hq (Row.accepts_eq_true_iff.2 hrw) (Row.accepts_eq_true_iff.2 hqw)

/-- Settles O5: a word no row accepts is rejected by the first check that fails. -/
theorem decodeRejectsByTheTwoWordChecks : Obligations.DecodeRejectsByTheTwoWordChecks := by
  intro w
  refine ⟨exists_decode_eq_ok_iff w, ?_, ?_⟩
  · rw [decode_eq_error_iff, wordWellFormed]
    cases opcodeAssigned w <;> simp
  · rw [decode_eq_error_iff, wordWellFormed]
    cases opcodeAssigned w <;> simp

/-- Settles O7: an ill-formed word is one that no row matches, and it is executed as illegal. -/
theorem illegalWordReportsIllegalOnly : Obligations.IllegalWordReportsIllegalOnly := by
  refine ⟨fun s w h => stepWord_of_ill_formed ((no_row_matches_iff w).1 h) s, fun w => ?_,
    fun w => formatOfOpcode_isSome_iff (fieldOp w), by decide, by decide⟩
  rw [no_row_matches_iff, wordWellFormed, Bool.and_eq_false_iff]

/-- Settles O1, by decoding each word. -/
theorem writtenWordsDecode : Obligations.WrittenWordsDecode := by
  unfold Obligations.WrittenWordsDecode
  decide

end Sys2Proof.Machine
end

section
/-! What the five pseudo-instructions leave when executed (30_encoding.md R96): a clear, then one command per element
of a list, each appending its element. -/

namespace Sys2Proof.Machine

/-! ### Appending one element to what a list makes -/

theorem Memory.push_ofBytes (bs : List Byte) (b : Byte) : (Memory.ofBytes bs).push b = Memory.ofBytes (bs ++ [b]) := by
  rw [Memory.eq_ofBytes_of_wf (Memory.wf_push (Memory.wf_ofBytes bs) b), Memory.bytes_push, Memory.bytes_ofBytes]

theorem accOfBits_appendBit {l : Bits} {b : Bool} (h : (l ++ [b]).length ≤ 8) :
    (accOfBits l).appendBit b = some (accOfBits (l ++ [b])) := by
  have hlt : l.length < 8 := by simpa using h
  obtain ⟨hbits, hcanon⟩ := accOfBits_spec hlt.le
  have happ := Acc.appendBit_of_lt (accOfBits l) b (by rwa [accOfBits_length hlt.le])
  obtain ⟨hbits', hcanon', -⟩ := Acc.appendBit_bits hcanon happ
  obtain ⟨hspec, hcanonSpec⟩ := accOfBits_spec h
  rw [happ, Acc.eq_of_bits hcanon' hcanonSpec (by rw [hbits', hbits, hspec])]

theorem pack_appendBit (l : Bits) (b : Bool) : (pack l).appendBit b = pack (l ++ [b]) := by
  obtain ⟨hbits, hcanon⟩ := BitVector.appendBit_bits (pack_canonical l) b
  exact BitVector.eq_pack hcanon (by rw [hbits, pack_bits])

theorem BitVector.empty_appendVector {x : BitVector} (hx : x.Canonical) : BitVector.empty.appendVector x = x := by
  obtain ⟨hbits, hcanon⟩ := BitVector.appendVector_bits BitVector.canonical_empty hx
  exact BitVector.eq_of_bits hcanon hx (by rw [hbits, BitVector.bits_empty, List.nil_append])

/-- A second write to a register, after RES was written in between. -/
theorem State.setV_setRes_setV (s : State) (r : VReg) (x y : BitVector) (n : BitVec 4) :
    ((s.setV r x).setRes n).setV r y = (s.setV r y).setRes n :=
  congrArg (State.setRes · n) (s.setV_setV r x y)

/-! ### A run of commands -/

theorem execMany_cons {i : Instr} {is : List Instr} {s t : State} (h : exec i s = .next t) :
    execMany (i :: is) s = execMany is t := by
  simp only [execMany, h]

/-- A command per element, each turning the state after the elements so far into the state after one more, leaves the
state after the whole list. -/
theorem execMany_map {α : Type} {cmd : α → Instr} {after : List α → State} {l pre rest : List α}
    (hl : pre ++ rest = l)
    (hcmd : ∀ done a, done ++ [a] <+: l → exec (cmd a) (after done) = .next (after (done ++ [a]))) :
    execMany (rest.map cmd) (after pre) = some (after l) := by
  induction rest generalizing pre with
  | nil => rw [← hl, List.append_nil]; rfl
  | cons a rest ih =>
    have hsplit : (pre ++ [a]) ++ rest = l := by rw [← hl, List.append_assoc]; rfl
    rw [List.map_cons, execMany_cons (hcmd pre a ⟨rest, hsplit⟩), ih hsplit]

/-- The shape of four of the five expansions: a clear, then a command per element, each of which is done. -/
theorem execMany_clear_map {α : Type} {clear : Instr} {cmd : α → Instr} {after : List α → State} {l : List α}
    {s : State} (hs : s.halt = false) (ha : ∀ done, (after done).halt = false)
    (hclear : commandWork Config.capacities clear s = .done (after []))
    (hcmd : ∀ done a, done ++ [a] <+: l →
      commandWork Config.capacities (cmd a) ((after done).setRes 0) = .done ((after (done ++ [a])).setRes 0)) :
    execMany (clear :: l.map cmd) s = some ((after l).setRes 0) := by
  rw [execMany_cons (exec_done hs hclear)]
  exact execMany_map (after := fun done => (after done).setRes 0) (List.nil_append l)
    fun done a hpre => exec_done (t := (after (done ++ [a])).setRes 0) (ha done) (hcmd done a hpre)

/-! ### The expansions -/

section

variable {s : State} (h : s.halt = false)
include h

theorem execMany_inBytes (bytes : List Byte) :
    execMany (.inClr :: bytes.map .inPush) s = some ((s.setIn (Memory.ofBytes bytes)).setRes 0) := by
  refine execMany_clear_map (after := fun bs => s.setIn (Memory.ofBytes bs)) h (fun _ => h) rfl fun done b _ => ?_
  rw [← Memory.push_ofBytes]
  rfl

theorem execMany_accBits {bits : Bits} (hb : bits.length ≤ 8) :
    execMany (.accClr :: bits.map .accAppb) s = some ((s.setAcc (accOfBits bits)).setRes 0) := by
  refine execMany_clear_map (after := fun l => s.setAcc (accOfBits l)) h (fun _ => h) rfl fun done b hpre => ?_
  have happ := accOfBits_appendBit (hpre.length_le.trans hb)
  simp only [commandWork, accAppbWork, State.setRes_acc, State.setAcc_acc, happ]
  rfl

theorem execMany_bvBits (vd : VReg) (bits : Bits) :
    execMany (.bvClr vd :: bits.map (.bvAppb vd)) s = some ((s.setV vd (pack bits)).setRes 0) := by
  refine execMany_clear_map (after := fun l => s.setV vd (pack l)) h (fun _ => h) rfl fun done b _ => ?_
  simp only [commandWork, bvAppbWork, State.getV_setRes, State.getV_setV_self, pack_appendBit, State.setV_setRes_setV]

theorem execMany_bvCopy {vd vs : VReg} (hne : vd ≠ vs) (hc : (s.getV vs).Canonical) :
    execMany [.bvClr vd, .bvAppv vd vs] s = some ((s.setV vd (s.getV vs)).setRes 0) := by
  have happ : commandWork Config.capacities (.bvAppv vd vs) ((s.setV vd BitVector.empty).setRes 0) =
      .done ((s.setV vd (s.getV vs)).setRes 0) := by
    simp only [commandWork, bvAppvWork, State.getV_setRes, State.getV_setV_self, State.getV_setV_other s hne.symm,
      BitVector.empty_appendVector hc, State.setV_setRes_setV]
  rw [execMany_cons (exec_done (i := .bvClr vd) h rfl),
    execMany_cons (exec_done (s := (s.setV vd BitVector.empty).setRes 0) h happ)]
  rfl

end

/-! ### The statement -/

/-- Settles O60: every expansion is a clear and appends, and what each append leaves is what the longer list makes. -/
theorem pseudoInstructionsExpand : Obligations.PseudoInstructionsExpand := by
  intro s h
  exact ⟨fun bytes => ⟨rfl, _, execMany_inBytes h bytes, Memory.holds_ofBytes bytes⟩,
    fun text bytes ht => ⟨by rw [Pseudo.expand, ht]; rfl, _, execMany_inBytes h bytes, Memory.holds_ofBytes bytes⟩,
    fun bits hb => ⟨if_pos hb, execMany_accBits h hb⟩, fun vd bits => ⟨rfl, execMany_bvBits h vd bits⟩,
    fun vd vs hne => ⟨if_neg hne, execMany_bvCopy h hne⟩⟩

end Sys2Proof.Machine
end

section
/-! The Bit Accumulator commands (40_accumulator.md): the text form of bits both ways (R99), what each of the four
commands and IO.XFER leave in a running core, and the statements of the accumulator family settled from that. -/

namespace Sys2Proof.Machine

/-! ### The text form of bits -/

theorem bitOfChar_eq_some_iff {c : Byte} {b : Bool} : bitOfChar c = some b ↔ charOfBit b = c :=
  ⟨charOfBit_of_bitOfChar, fun h => by rw [← h, bitOfChar_charOfBit]⟩

/-- The character of a bit as the sum that R99 and R115 write. -/
theorem charOfBit_eq_add (b : Bool) : charOfBit b = 0x30 + (if b then 1 else 0) := by cases b <;> decide

@[simp] theorem textOfBits_length (l : Bits) : (textOfBits l).length = l.length := List.length_map _

/-- Reading a text as bits inverts writing bits as a text, and only the binary texts are read (R99). -/
theorem textBits_eq_some_iff {text : List Byte} {l : Bits} : textBits text = some l ↔ textOfBits l = text := by
  simp only [textBits, textOfBits]
  induction text generalizing l with
  | nil => simp [eq_comm]
  | cons c cs ih => cases l <;> simp [List.mapM_cons, Option.bind_eq_some_iff, bitOfChar_eq_some_iff, ih]

/-- A text of binary characters is the text of some bits. -/
theorem exists_textOfBits_eq {text : List Byte} (h : ∀ c ∈ text, c = 0x30 ∨ c = 0x31) : ∃ l, textOfBits l = text :=
  (Set.range_list_map charOfBit).ge fun c hc => (h c hc).elim (⟨false, ·.symm⟩) (⟨true, ·.symm⟩)

/-! ### The accumulator's append, bit by bit -/

/-- The appended bit lands at position `7 - length`, which the canonical form keeps free; the other bits stay (R111). -/
theorem Acc.appendBit_getLsbD {a a' : Acc} {b : Bool} (hc : a.Canonical) (hlt : a.length.val < 8)
    (h : a.appendBit b = some a') (k : Nat) :
    a'.value.getLsbD k = if k = 7 - a.length.val then b else a.value.getLsbD k := by
  have hfree : a.value.getLsbD (7 - a.length.val) = false := (lowBitsZero_iff _ _).1 hc _ (by omega)
  rw [Acc.appendBit_of_lt a b hlt] at h
  cases h
  rw [BitVec.getLsbD_or, bitShifted_getLsbD b (by omega)]
  by_cases hk : k = 7 - a.length.val
  · simp [hk, hfree]
  · simp [hk]

/-- A canonical accumulator is `acc(L)` of its own bits (R13). -/
theorem accOfBits_bits {a : Acc} (ha : a.Canonical) : accOfBits a.bits = a := by
  obtain ⟨hbits, hcanon⟩ := accOfBits_spec (l := a.bits) (by rw [Acc.bits_length]; omega)
  exact Acc.eq_of_bits hcanon ha hbits

/-! ### Parsing a whole text from the empty accumulator -/

theorem parseAccFrom_empty_of_textBits {text : List Byte} {l : Bits} (h : textBits text = some l) (hl : l.length ≤ 8) :
    parseAccFrom Acc.empty text = .ok (accOfBits l) :=
  (parseAccFrom_spec text Acc.canonical_empty).1 l h ((Nat.zero_add l.length).trans_le hl)

/-- A character that is not binary, among the first nine, is the first offence (R114). -/
theorem parseAccFrom_empty_of_bad_char {good rest : List Byte} {l : Bits} {c : Byte} (h : textBits good = some l)
    (hl : l.length ≤ 8) (hc : bitOfChar c = none) : parseAccFrom Acc.empty (good ++ c :: rest) = .error .format :=
  (parseAccFrom_spec _ Acc.canonical_empty).2.1 good l c rest rfl h ((Nat.zero_add l.length).trans_le hl) hc

/-- Nine binary characters are one too many, whatever follows (R113, R114). -/
theorem parseAccFrom_empty_of_nine {nine rest : List Byte} {l : Bits} (h : textBits nine = some l)
    (hl : l.length = 9) : parseAccFrom Acc.empty (nine ++ rest) = .error .logic :=
  (parseAccFrom_spec _ Acc.canonical_empty).2.2 nine l rest rfl h ((Nat.zero_add l.length).trans hl)

/-! ### The commands in a running core -/

section

variable {s : State} (h : s.halt = false)
include h

theorem exec_accClr : exec .accClr s = .next ((s.setAcc Acc.empty).setRes 0) := exec_done h rfl

theorem exec_accAppb_of_some {b : Bool} {a : Acc} (ha : s.acc.appendBit b = some a) :
    exec (.accAppb b) s = .next ((s.setAcc a).setRes 0) :=
  exec_done h (by simp only [commandWork, accAppbWork, ha])

theorem exec_accAppb_of_none {b : Bool} (ha : s.acc.appendBit b = none) :
    exec (.accAppb b) s = .next (s.raise .logic) :=
  exec_raised h (by simp only [commandWork, accAppbWork, ha])

theorem exec_accParse_of_ok {a : Acc} (hp : parseAccFrom Acc.empty s.inBytes = .ok a) :
    exec .accParse s = .next ((s.setAcc a).setRes 0) :=
  exec_done h (by simp only [commandWork, accParseWork, hp])

theorem exec_accParse_of_error {e : Err} (hp : parseAccFrom Acc.empty s.inBytes = .error e) :
    exec .accParse s = .next (s.raise e) :=
  exec_raised h (by simp only [commandWork, accParseWork, hp])

theorem exec_accText : exec .accText s = .next ((s.replaceOut (textOfBits s.acc.bits)).setRes 0) := exec_done h rfl

theorem exec_ioXfer : exec .ioXfer s = .next (((s.setIn s.outBuf).setOut []).setRes 0) := exec_done h rfl

/-! ### The text round trip -/

/-- ACC.PARSE of an accepted text, as the head of a run. -/
theorem execMany_accParse {l : Bits} (ht : textBits s.inBytes = some l) (hl : l.length ≤ 8) (rest : List Instr) :
    execMany (.accParse :: rest) s = execMany rest ((s.setAcc (accOfBits l)).setRes 0) :=
  execMany_cons (exec_accParse_of_ok h (parseAccFrom_empty_of_textBits ht hl))

theorem execMany_accParse_accText {l : Bits} (ht : textBits s.inBytes = some l) (hl : l.length ≤ 8) :
    execMany [.accParse, .accText] s =
      some ((((s.setAcc (accOfBits l)).setRes 0).replaceOut (textOfBits l)).setRes 0) := by
  rw [execMany_accParse h ht hl, execMany_cons (exec_accText (s := (s.setAcc (accOfBits l)).setRes 0) h),
    State.setRes_acc, State.setAcc_acc, (accOfBits_spec hl).1]
  rfl

/-- ACC.TEXT and IO.XFER leave the text of ACC's bits in IN and OUT empty (R115, R242). -/
theorem execMany_accText_ioXfer (rest : List Instr) :
    execMany (.accText :: .ioXfer :: rest) s =
      execMany rest (((s.setIn (Memory.ofBytes (textOfBits s.acc.bits))).setOut []).setRes 0) := by
  rw [execMany_cons (exec_accText h),
    execMany_cons (exec_ioXfer (s := (s.replaceOut (textOfBits s.acc.bits)).setRes 0) h)]
  rfl

/-- ACC.PARSE then writes back the ACC the text came from, so the run leaves only IN, OUT and RES changed (R116). -/
theorem execMany_accText_ioXfer_accParse (hc : s.acc.Canonical) :
    execMany [.accText, .ioXfer, .accParse] s =
      some (((s.setIn (Memory.ofBytes (textOfBits s.acc.bits))).setOut []).setRes 0) := by
  have htext : textBits (Memory.ofBytes (textOfBits s.acc.bits)).bytes = some s.acc.bits :=
    textBits_eq_some_iff.2 (Memory.bytes_ofBytes _).symm
  have hlen : s.acc.bits.length ≤ 8 := by rw [Acc.bits_length]; omega
  rw [execMany_accText_ioXfer h,
    execMany_accParse (s := ((s.setIn (Memory.ofBytes (textOfBits s.acc.bits))).setOut []).setRes 0) h htext hlen,
    accOfBits_bits hc]
  rfl

end

/-! ### The statements -/

/-- Settles O27: the text of the bits read from a text is that text, and the bits read from ACC's text are ACC's. -/
theorem accumulatorTextRoundTrip : Obligations.AccumulatorTextRoundTrip := by
  refine ⟨fun s h hlen hbin => ?_, fun s h hc => ?_⟩
  · obtain ⟨l, hl⟩ := exists_textOfBits_eq hbin
    have hl8 : l.length ≤ 8 := by rwa [← hl, textOfBits_length] at hlen
    exact ⟨_, execMany_accParse_accText h (textBits_eq_some_iff.2 hl) hl8, rfl,
      (State.outBytes_replaceOut _ _).trans hl⟩
  · exact ⟨_, execMany_accText_ioXfer_accParse h hc, rfl, rfl⟩

/-- Settles O24, by the two ends of the append: a free position below length 8, none at length 8. -/
theorem accAppbAppendsOneBit : Obligations.AccAppbAppendsOneBit := by
  refine fun s b h => ⟨fun hc hlt => ?_, fun hfull => exec_accAppb_of_none h (Acc.appendBit_of_full _ b hfull)⟩
  obtain ⟨a, ha⟩ : ∃ a, s.acc.appendBit b = some a := ⟨_, Acc.appendBit_of_lt s.acc b hlt⟩
  obtain ⟨hbits, hcanon, hlen⟩ := Acc.appendBit_bits hc ha
  exact ⟨a, exec_accAppb_of_some h ha, hlen, fun k _ => Acc.appendBit_getLsbD hc hlt ha k, hbits, hcanon⟩

/-- Settles O25, by what the parse loop answers in each of the three cases. -/
theorem accParseReadsTheText : Obligations.AccParseReadsTheText := by
  refine fun s h => ⟨fun l ht hl => exec_accParse_of_ok h (parseAccFrom_empty_of_textBits ht hl),
    fun good l c rest hin ht hl hc => ?_, fun nine l rest hin ht hl => ?_⟩
  · exact exec_accParse_of_error h (hin ▸ parseAccFrom_empty_of_bad_char ht hl hc)
  · exact exec_accParse_of_error h (hin ▸ parseAccFrom_empty_of_nine ht hl)

/-- Settles O23: the empty accumulator is written, and RES. -/
theorem accClrEmptiesTheAccumulator : Obligations.AccClrEmptiesTheAccumulator := fun _ h => exec_accClr h

/-- Settles O26: OUT becomes the text of ACC's bits, read back byte by byte. -/
theorem accTextWritesTheBits : Obligations.AccTextWritesTheBits := by
  refine fun s h => ⟨_, exec_accText h, Memory.wf_ofBytes _, by simp, fun i hi => ?_⟩
  rw [State.replaceOut_outBuf, Memory.readByte_ofBytes, textOfBits, List.getElem?_map, Acc.bits_getElem?, if_pos hi,
    ← charOfBit_eq_add]
  rfl

end Sys2Proof.Machine
end

section
/-! The Bit Vector commands (41_bitvector.md): the branches of the appends, each append as `pack` of the concatenated
bits (R130), parsing a whole text (R144), what each command leaves in a running core, and the statements of the
bit-vector family settled from that. -/

namespace Sys2Proof.Machine

/-! ### The branches of the appends -/

/-- A bit moved to its position, as the number that R134 writes. -/
theorem bitShifted_eq_natCast (b : Bool) (k : Nat) :
    bitShifted b k = (((if b then 1 else 0 : Nat) <<< k : Nat) : Byte) := by
  cases b
  · simp [bitShifted]
  · exact BitVec.eq_of_toNat_eq (BitVec.toNat_shiftLeft (x := 1#8) (n := k))

theorem bitShifted_zero (b : Bool) : bitShifted b 0 = if b then 1 else 0 := by cases b <;> rfl

/-- An accumulator of no bits holds 0 in its canonical form (R21). -/
theorem Acc.value_eq_zero_of_length_zero {a : Acc} (hc : a.Canonical) (h0 : a.length.val = 0) : a.value = 0#8 := by
  rw [Acc.Canonical, lowBitsZero, h0, BitVec.shiftLeft_zero] at hc
  exact beq_iff_eq.1 hc

section

variable {x : BitVector}

/-- Below 7 bits the tail takes the bit (R134). -/
theorem BitVector.appendBit_of_lt (b : Bool) (h : x.tail.length.val < 7) :
    x.appendBit b = ⟨x.completeBytes,
      ⟨x.tail.value ||| bitShifted b (7 - x.tail.length.val), ⟨x.tail.length.val + 1, by omega⟩⟩⟩ := dif_pos h

/-- The eighth bit flushes the tail (R134). -/
theorem BitVector.appendBit_of_seven (b : Bool) (h : x.tail.length.val = 7) :
    x.appendBit b = ⟨x.completeBytes ++ [x.tail.value ||| bitShifted b 0], Acc.empty⟩ := by
  rw [BitVector.appendBit, dif_neg (by omega), h]

variable {a : Acc}

/-- While tail and accumulator do not fill a byte, nothing is flushed (R136). -/
theorem BitVector.appendAcc_of_lt (h : x.tail.length.val + a.length.val < 8) :
    x.appendAcc a = ⟨x.completeBytes,
      ⟨x.tail.value ||| (a.value >>> x.tail.length.val), ⟨x.tail.length.val + a.length.val, by omega⟩⟩⟩ := dif_pos h

/-- A full accumulator after an empty tail is flushed whole (R136). -/
theorem BitVector.appendAcc_of_empty_tail (hc : x.tail.Canonical) (h0 : x.tail.length.val = 0)
    (h8 : 8 ≤ x.tail.length.val + a.length.val) :
    x.appendAcc a = ⟨x.completeBytes ++ [a.value], Acc.empty⟩ := by
  rw [BitVector.appendAcc, dif_neg (by omega), if_pos h0, Acc.value_eq_zero_of_length_zero hc h0, h0,
    BitVec.ushiftRight_zero, BitVec.zero_or]

/-- One byte is flushed, and what did not fit is the new tail (R136). -/
theorem BitVector.appendAcc_of_ge (h1 : 1 ≤ x.tail.length.val) (h8 : 8 ≤ x.tail.length.val + a.length.val)
    (hlt : x.tail.length.val < 8) :
    x.appendAcc a = ⟨x.completeBytes ++ [x.tail.value ||| (a.value >>> x.tail.length.val)],
      ⟨a.value <<< (8 - x.tail.length.val), ⟨x.tail.length.val + a.length.val - 8, by omega⟩⟩⟩ := by
  rw [BitVector.appendAcc, dif_neg (by omega), if_neg (by omega)]

/-! ### Each append as `pack` of the concatenated bits -/

theorem pack_nil : pack [] = BitVector.empty := (BitVector.eq_pack BitVector.canonical_empty rfl).symm

theorem BitVector.appendBit_eq_pack (hx : x.Canonical) (b : Bool) : x.appendBit b = pack (x.bits ++ [b]) :=
  have ⟨hbits, hcanon⟩ := BitVector.appendBit_bits hx b
  BitVector.eq_pack hcanon hbits

theorem BitVector.appendAcc_eq_pack (hx : x.Canonical) (ha : a.Canonical) :
    x.appendAcc a = pack (x.bits ++ a.bits) :=
  have ⟨hbits, hcanon⟩ := BitVector.appendAcc_bits hx ha
  BitVector.eq_pack hcanon hbits

theorem BitVector.appendVector_eq_pack {o : BitVector} (hx : x.Canonical) (ho : o.Canonical) :
    x.appendVector o = pack (x.bits ++ o.bits) :=
  have ⟨hbits, hcanon⟩ := BitVector.appendVector_bits hx ho
  BitVector.eq_pack hcanon hbits

end

/-! ### Parsing a whole text from the empty vector -/

theorem textBits_eq_none_of_mem {text : List Byte} {c : Byte} (hmem : c ∈ text) (hc : bitOfChar c = none) :
    textBits text = none := by
  refine Option.eq_none_iff_forall_ne_some.2 fun l hl => ?_
  rw [← textBits_eq_some_iff.1 hl] at hmem
  obtain ⟨b, -, rfl⟩ := List.mem_map.1 hmem
  rw [bitOfChar_charOfBit] at hc
  cases hc

theorem parseVectorFrom_empty_of_textBits {text : List Byte} {l : Bits} (h : textBits text = some l) :
    parseVectorFrom BitVector.empty text = .ok (pack l) := by
  rw [textBits] at h
  rw [parseVectorFrom_spec text BitVector.canonical_empty, h]
  rfl

theorem parseVectorFrom_empty_of_not_binary {text : List Byte} (h : textBits text = none) :
    parseVectorFrom BitVector.empty text = .error .format := by
  rw [textBits] at h
  rw [parseVectorFrom_spec text BitVector.canonical_empty, h]

/-! ### The bit iterator -/

/-- The state after `k + 1` times BV.NEXT: the bits up to number k are gone from IT and the flags tell of bit k. -/
def State.delivered (s : State) (k : Nat) : State :=
  ((s.setIt (s.itRem.drop (k + 1))).setIterFlags s.itRem[k]?).setRes 0

theorem State.setIterFlags_eq (s : State) (o : Option Bool) :
    s.setIterFlags o = { s with bit := o.getD false, bitv := o.isSome } := by cases o <;> rfl

@[simp] theorem State.delivered_itRem (s : State) (k : Nat) : (s.delivered k).itRem = s.itRem.drop (k + 1) := by
  simp [State.delivered]

@[simp] theorem State.delivered_halt (s : State) (k : Nat) : (s.delivered k).halt = s.halt := by
  simp [State.delivered]

@[simp] theorem State.delivered_bit (s : State) (k : Nat) : (s.delivered k).bit = s.itRem[k]?.getD false := by
  simp [State.delivered]

@[simp] theorem State.delivered_bitv (s : State) (k : Nat) : (s.delivered k).bitv = s.itRem[k]?.isSome := by
  simp [State.delivered]

/-- Of two deliveries only the second shows in the flags. -/
theorem State.delivered_delivered (s : State) (k : Nat) : (s.delivered 0).delivered k = s.delivered (k + 1) := by
  have hrem : (s.delivered 0).itRem.drop (k + 1) = s.itRem.drop (k + 1 + 1) := by
    rw [State.delivered_itRem, List.drop_drop, Nat.add_comm 1]
  have hbit : (s.delivered 0).itRem[k]? = s.itRem[k + 1]? := by
    rw [State.delivered_itRem, List.getElem?_drop, Nat.add_comm 1]
  rw [State.delivered, hrem, hbit]
  simp only [State.delivered, State.setIterFlags_eq]
  rfl

/-! ### The commands in a running core -/

section

variable {s : State} (h : s.halt = false)
include h

theorem exec_bvClr (v : VReg) : exec (.bvClr v) s = .next ((s.setV v BitVector.empty).setRes 0) := exec_done h rfl

theorem exec_bvAppb (vd : VReg) (b : Bool) :
    exec (.bvAppb vd b) s = .next ((s.setV vd ((s.getV vd).appendBit b)).setRes 0) := exec_done h rfl

theorem exec_bvAppa (vd : VReg) :
    exec (.bvAppa vd) s = .next ((s.setV vd ((s.getV vd).appendAcc s.acc)).setRes 0) := exec_done h rfl

theorem exec_bvAppv (vd vs : VReg) :
    exec (.bvAppv vd vs) s = .next ((s.setV vd ((s.getV vd).appendVector (s.getV vs))).setRes 0) := exec_done h rfl

theorem exec_bvLen (v : VReg) : exec (.bvLen v) s = .next ((s.setLen (s.getV v).bitLength).setRes 0) :=
  exec_done h rfl

theorem exec_bvParse_of_textBits (vd : VReg) {l : Bits} (ht : textBits s.inBytes = some l) :
    exec (.bvParse vd) s = .next ((s.setV vd (pack l)).setRes 0) :=
  exec_done h (by simp only [commandWork, bvParseWork, parseVectorFrom_empty_of_textBits ht])

theorem exec_bvParse_of_not_binary (vd : VReg) (ht : textBits s.inBytes = none) :
    exec (.bvParse vd) s = .next (s.raise .format) :=
  exec_raised h (by simp only [commandWork, bvParseWork, parseVectorFrom_empty_of_not_binary ht])

theorem exec_bvIter (v : VReg) :
    exec (.bvIter v) s =
      .next ((((s.setIt (s.getV v).bits).setV v BitVector.empty).clearIterFlags).setRes 0) := exec_done h rfl

theorem exec_bvNext_of_cons {b : Bool} {rest : Bits} (hr : s.itRem = b :: rest) :
    exec .bvNext s = .next (((s.setIt rest).setIterFlags (some b)).setRes 0) :=
  exec_done h (by simp only [commandWork, bvNextWork, hr])

theorem exec_bvNext_of_nil (hr : s.itRem = []) : exec .bvNext s = .next ((s.setIterFlags none).setRes 0) :=
  exec_done h (by simp only [commandWork, bvNextWork, hr])

/-- Both cases of BV.NEXT as the delivery of bit 0, if there is one (R152). -/
theorem exec_bvNext : exec .bvNext s = .next (s.delivered 0) := by
  cases hr : s.itRem with
  | nil =>
    have hstay : s.setIt [] = s := by rw [← hr]; rfl
    simp [exec_bvNext_of_nil h hr, State.delivered, hr, hstay]
  | cons b rest => simp [exec_bvNext_of_cons h hr, State.delivered, hr]

end

/-- A run of BV.NEXT, by induction on its length: the first delivers bit 0, the others go on from there (R153). -/
theorem execMany_bvNext (k : Nat) {s : State} (h : s.halt = false) :
    execMany (List.replicate (k + 1) .bvNext) s = some (s.delivered k) := by
  induction k generalizing s with
  | zero => exact execMany_cons (exec_bvNext h)
  | succ k ih =>
    have hrun : (s.delivered 0).halt = false := (s.delivered_halt 0).trans h
    rw [List.replicate_succ, execMany_cons (exec_bvNext h), ih hrun, State.delivered_delivered]

/-! ### The statements -/

/-- Settles O21: every append answers a canonical vector that spells the concatenated bits, so `pack` of them. -/
theorem bitVectorCommandsConcatenateBits : Obligations.BitVectorCommandsConcatenateBits := by
  rintro s d h ⟨hacc, hv⟩
  refine ⟨?clr, fun b => ?appb, ?appa, fun v => ?appv, fun l ht => exec_bvParse_of_textBits h d ht,
    fun l => ⟨pack_canonical l, pack_bits l⟩⟩
  case clr => rw [pack_nil]; exact exec_bvClr h d
  case appb => rw [← BitVector.appendBit_eq_pack (hv d)]; exact exec_bvAppb h d b
  case appa => rw [← BitVector.appendAcc_eq_pack (hv d) hacc]; exact exec_bvAppa h d
  case appv => rw [← BitVector.appendVector_eq_pack (hv d) (hv v)]; exact exec_bvAppv h d v

/-- Settles O22, from the law of the vector append; the lengths are the numbers of bits. -/
theorem appendedLengthsAdd : Obligations.AppendedLengthsAdd := by
  intro s vd vs h hd hs
  obtain ⟨hbits, -⟩ := BitVector.appendVector_bits hd hs
  refine ⟨_, exec_bvAppv h vd vs, rfl, ?_, ?_, ?_, ?_⟩
  · rw [State.getV_setRes, State.getV_setV_self, hbits]
  · rw [State.getV_setRes, State.getV_setV_self, ← BitVector.bits_length, hbits, List.length_append,
      BitVector.bits_length, BitVector.bits_length]
  · rintro rfl
    rw [State.getV_setRes, State.getV_setV_self, hbits]
  · intro hne
    rw [State.getV_setRes, State.getV_setV_other s hne.symm]

/-- Settles O29, by the two branches of the append. -/
theorem bvAppbFlushesTheEighthBit : Obligations.BvAppbFlushesTheEighthBit := by
  refine fun s vd b h _ => ⟨_, exec_bvAppb h vd b, fun hlt => ?_, fun h7 => ?_⟩
  · rw [BitVector.appendBit_of_lt b hlt, bitShifted_eq_natCast]
    exact ⟨rfl, rfl, rfl⟩
  · rw [BitVector.appendBit_of_seven b h7, bitShifted_zero]
    exact ⟨rfl, rfl⟩

/-- Settles O30, by the three branches of the append. -/
theorem bvAppaMergesTheAccumulator : Obligations.BvAppaMergesTheAccumulator := by
  rintro s vd h ⟨hc, hlt8⟩ -
  refine ⟨_, exec_bvAppa h vd, fun hlt => ?_, fun h8 h0 => ?_, fun h8 h1 => ?_⟩
  · rw [BitVector.appendAcc_of_lt hlt]
    exact ⟨rfl, rfl, rfl⟩
  · rw [BitVector.appendAcc_of_empty_tail hc h0 h8]
    exact ⟨rfl, rfl⟩
  · rw [BitVector.appendAcc_of_ge h1 h8 hlt8]
    exact ⟨rfl, rfl, rfl⟩

/-- Settles O32: the text's bits are packed, and one character that is not binary makes the text no bits. -/
theorem bvParseReadsTheText : Obligations.BvParseReadsTheText := by
  refine fun s vd h => ⟨fun l ht => exec_bvParse_of_textBits h vd ht, ?_⟩
  rintro ⟨c, hmem, hc⟩
  exact exec_bvParse_of_not_binary h vd (textBits_eq_none_of_mem hmem ((bitOfChar_eq_none_iff c).2 hc))

/-- Settles O35: BV.ITER puts the register's bits in IT, and the run of BV.NEXT delivers from there. -/
theorem iterationDeliversEveryBitInOrder : Obligations.IterationDeliversEveryBitInOrder := by
  intro s v k h
  rw [execMany_cons (exec_bvIter h v)]
  exact ⟨_, execMany_bvNext k h, fun b hb => by simp [hb], fun hb => by simp [hb]⟩

/-- Settles O28: the empty vector is written, and RES. -/
theorem bvClrEmptiesTheRegister : Obligations.BvClrEmptiesTheRegister := fun _ v h => exec_bvClr h v

/-- Settles O31: LEN gets the logical length, which is the number of bits. -/
theorem bvLenCountsTheBits : Obligations.BvLenCountsTheBits := fun s v h =>
  ⟨exec_bvLen h v, (s.getV v).bits_length.symm⟩

/-- Settles O33: the bits move to IT, the register is empty and the flags are clear. -/
theorem bvIterConsumesTheRegister : Obligations.BvIterConsumesTheRegister := fun _ v h => exec_bvIter h v

/-- Settles O34, by whether IT is empty. -/
theorem bvNextDeliversOneBit : Obligations.BvNextDeliversOneBit := fun _ h =>
  ⟨fun _ _ hr => exec_bvNext_of_cons h hr, fun hr => exec_bvNext_of_nil h hr⟩

end Sys2Proof.Machine
end

section
/-! The statements of the tree family (42_tree_dictionary.md R160, R165, R168, R170): what HUF.BUILD leaves in a running
core, the number of entries and the code space of the table it makes, the table of an input with one distinct symbol,
and the document's worked scenario. -/

namespace Sys2Proof.Machine

/-- HUF.BUILD in a running core always ends well (R160). -/
theorem exec_hufBuild {s : State} (h : s.halt = false) :
    exec .hufBuild s = .next ((s.setLut (buildTable s.inBytes)).setRes 0) := exec_done h (buildWork_eq s)

/-! ### The size and the code space of the built table -/

theorem builtPairs_length (input : List Byte) : (builtPairs input).length = input.dedup.length := by
  rw [← (presentSymbols_perm_dedup input).length_eq, ← (builtPairs_spec input).1.length_eq, List.length_map]

/-- The built table has one entry per distinct byte of the input (R168 a). -/
theorem buildTable_entries_length (input : List Byte) : (buildTable input).entries.length = input.dedup.length :=
  (buildTable_entries_perm input).length_eq.trans (builtPairs_length input)

/-- From two distinct bytes on, no code is longer than their number less one (R168 d). -/
theorem buildTable_code_length_lt {input : List Byte} (h2 : 2 ≤ input.dedup.length) {sym : Byte} {c : Bits}
    (hc : (buildTable input).get sym = some c) : c.length < input.dedup.length := by
  obtain ⟨-, -, -, -, hfull⟩ := builtPairs_spec input
  rw [builtPairs_length] at hfull
  exact (hfull h2).1 _ ((buildTable_get input sym c).1 hc)

/-- From two distinct bytes on, the codes fill the code space (R168 e). -/
theorem buildTable_kraft {input : List Byte} (h2 : 2 ≤ input.dedup.length) :
    ((buildTable input).entries.map (fun e => 2 ^ (255 - e.2.length))).sum = 2 ^ 255 := by
  obtain ⟨-, -, -, -, hfull⟩ := builtPairs_spec input
  rw [builtPairs_length] at hfull
  exact ((buildTable_entries_perm input).map _).sum_eq.trans (hfull h2).2

/-! ### One distinct symbol -/

/-- A tree of one symbol is a leaf: an inner node has a symbol on either side. -/
theorem Node.exists_leaf_of_symbols_singleton {n : Node} {sym : Byte} (h : n.symbols = [sym]) :
    ∃ f k, n = .leaf sym f k := by
  cases n with
  | leaf b f k =>
    obtain rfl : b = sym := List.singleton_injective h
    exact ⟨f, k, rfl⟩
  | internal left right f k =>
    have hlen := congrArg List.length h
    have hl := left.symbols_length_pos
    have hr := right.symbols_length_pos
    simp only [Node.symbols, List.length_append, List.length_singleton] at hlen
    omega

/-- The only symbol of an input gets SINGLE_CODE (R165). -/
theorem builtPairs_of_dedup_singleton {input : List Byte} {sym : Byte} (h : input.dedup = [sym]) :
    builtPairs input = [(sym, Config.singleCode)] := by
  have hne : input ≠ [] := by rintro rfl; cases h
  obtain ⟨root, hroot, hsyms⟩ := treeRoot_spec hne
  have hone : root.symbols = [sym] :=
    List.perm_singleton.1 (h ▸ hsyms.trans (presentSymbols_perm_dedup input))
  obtain ⟨f, k, rfl⟩ := Node.exists_leaf_of_symbols_singleton hone
  rw [builtPairs, hroot]

/-- A byte that does not occur has no code (R168 a). -/
theorem buildTable_get_eq_none {input : List Byte} {sym : Byte} (h : sym ∉ input) :
    (buildTable input).get sym = none :=
  Option.not_isSome_iff_eq_none.1 (mt (buildTable_isSome_iff input sym).1 h)

/-! ### The worked scenario -/

/-- The tree of `AABAC`: B and C, of one occurrence each, are merged first, and their node, of frequency 2, comes before
A, of frequency 3 (R163, R170). -/
theorem treeRoot_workedScenario :
    treeRoot [0x41, 0x41, 0x42, 0x41, 0x43] =
      some (.internal (.internal (.leaf 0x42 1 1) (.leaf 0x43 1 2) 2 3) (.leaf 0x41 3 0) 5 4) := by
  decide

theorem builtPairs_workedScenario :
    builtPairs [0x41, 0x41, 0x42, 0x41, 0x43] =
      [(0x42, [false, false]), (0x43, [false, true]), (0x41, [true])] := by
  rw [builtPairs, treeRoot_workedScenario]
  rfl

/-! ### The statements -/

/-- Settles O36: every part is a law of the table that HUF.BUILD makes, read off the frequency tree's paths. -/
theorem hufBuildMakesAPrefixFreeTable : Obligations.HufBuildMakesAPrefixFreeTable := by
  intro s h
  have hcount : (s.setLut (buildTable s.inBytes)).nLut = s.inBytes.dedup.length := buildTable_entries_length s.inBytes
  refine ⟨_, exec_hufBuild h, rfl, fun sym => (buildTable_isSome_iff s.inBytes sym).symm, hcount, State.nLut_le _,
    buildTable_prefixFree _, buildTable_noEmptyCode _, fun h2 sym c hc => ?depth, fun h2 => ?codeSpace⟩
  case depth =>
    exact ⟨Nat.le_sub_one_of_lt (hcount.symm ▸ buildTable_code_length_lt (hcount ▸ h2) hc),
      buildTable_codesFit s.inBytes sym c hc⟩
  case codeSpace => exact buildTable_kraft (hcount ▸ h2)

/-- Settles O37: the table is made from the counts alone. -/
theorem hufBuildDependsOnlyOnTheCounts : Obligations.HufBuildDependsOnlyOnTheCounts := fun _ _ h h' hperm =>
  ⟨_, _, exec_hufBuild h, exec_hufBuild h', buildTable_perm hperm⟩

/-- Settles O38: a tree of one leaf gives SINGLE_CODE, and a byte that does not occur has no code. -/
theorem hufBuildOnOneSymbolOrNone : Obligations.HufBuildOnOneSymbolOrNone := by
  refine ⟨fun s sym n h hin => ⟨_, exec_hufBuild h, ?code, fun other hne => ?others⟩,
    fun s h hin => ⟨_, exec_hufBuild h, fun sym => ?none⟩⟩
  case code =>
    have hone : s.inBytes.dedup = [sym] := hin ▸ List.replicate_dedup n.succ_ne_zero
    exact (buildTable_get s.inBytes sym _).2 (builtPairs_of_dedup_singleton hone ▸ List.mem_singleton_self _)
  case others => exact buildTable_get_eq_none fun hmem => hne (List.eq_of_mem_replicate (hin ▸ hmem))
  case none => exact buildTable_get_eq_none fun hmem => List.not_mem_nil (hin ▸ hmem)

/-- Settles O39: the codes are the paths of the scenario's tree. -/
theorem hufBuildOfTheWorkedScenario : Obligations.HufBuildOfTheWorkedScenario := by
  intro s h hin
  have hget : ∀ sym c, (buildTable s.inBytes).get sym = some c ↔
      (sym, c) ∈ [((0x42 : Byte), [false, false]), (0x43, [false, true]), (0x41, [true])] := fun sym c => by
    rw [buildTable_get, hin, builtPairs_workedScenario]
  refine ⟨_, exec_hufBuild h, (hget _ _).2 (by decide), (hget _ _).2 (by decide), (hget _ _).2 (by decide), ?count⟩
  case count => exact (buildTable_entries_length s.inBytes).trans (by rw [hin]; decide)

end Sys2Proof.Machine
end

section
/-! The statements of the encoder family (43_encoder.md R180 to R183): what HUF.MAP and HUF.ENCODE leave in a running
core, the length of the packed data, and the round trip through HUF.DECODE. -/

namespace Sys2Proof.Machine

/-! ### What the two commands leave -/

section

variable {s : State} (h : s.halt = false)
include h

/-- HUF.MAP where every byte of IN has a code (R180). -/
theorem exec_hufMap_of_codes (vd : VReg) {codes : List Bits} (hc : s.inBytes.map s.lut.get = codes.map some) :
    exec (.hufMap vd) s = .next ((s.setV vd (pack codes.flatten)).setRes 0) :=
  exec_done (i := .hufMap vd) h (by simp only [commandWork, mapWork, mapSymbols_of_codes hc])

/-- HUF.MAP where some byte of IN has no code (R180). -/
theorem exec_hufMap_of_missing (vd : VReg) (hm : ∃ sym ∈ s.inBytes, s.lut.get sym = none) :
    exec (.hufMap vd) s = .next (s.raise .logic) :=
  exec_raised (i := .hufMap vd) h (by simp only [commandWork, mapWork, (mapSymbols_eq_none_iff _ _).2 hm])

/-- HUF.MAP ends with RES = 0 only where every byte of IN has a code, since LogicError leaves RES = 2 (R180, R256). -/
theorem exists_codes_of_hufMap_res_zero {vd : VReg} {t : State} (hx : exec (.hufMap vd) s = .next t) (hr : t.res = 0) :
    ∃ codes : List Bits, s.inBytes.map s.lut.get = codes.map some := by
  refine exists_codes fun sym hsym => Option.isSome_iff_ne_none.2 fun hnone => ?_
  rw [exec_hufMap_of_missing h vd ⟨sym, hsym, hnone⟩] at hx
  cases hx
  exact absurd hr (by rw [State.raise_res]; decide)

/-- HUF.ENCODE in a running core always ends well, with the new table and the codes it gives the bytes of IN (R181). -/
theorem exec_hufEncode (vd : VReg) :
    ∃ codes : List Bits, s.inBytes.map (buildTable s.inBytes).get = codes.map some ∧
      exec (.hufEncode vd) s = .next (((s.setLut (buildTable s.inBytes)).setV vd (pack codes.flatten)).setRes 0) := by
  obtain ⟨codes, hc, hw⟩ := encodeWork_eq s vd
  exact ⟨codes, hc, exec_done (i := .hufEncode vd) h hw⟩

end

/-! ### The length of the packed data -/

/-- A sum over a text is the sum over all byte values, each weighted with its number of occurrences. -/
theorem sum_map_eq_sum_count_mul (syms : List Byte) (f : Byte → Nat) :
    (syms.map f).sum = (allSymbols.map (fun sym => syms.count sym * f sym)).sum := by
  have hsub : syms.toFinset ⊆ allSymbols.toFinset := fun sym _ => List.mem_toFinset.2 (mem_allSymbols sym)
  have habsent : ∀ sym ∈ allSymbols.toFinset, sym ∉ syms.toFinset → syms.count sym * f sym = 0 := fun sym _ hnot => by
    rw [List.count_eq_zero_of_not_mem (mt List.mem_toFinset.2 hnot), Nat.zero_mul]
  calc (syms.map f).sum
      = ∑ sym ∈ syms.toFinset, syms.count sym * f sym := Finset.sum_list_map_count syms f
    _ = ∑ sym ∈ allSymbols.toFinset, syms.count sym * f sym := Finset.sum_subset hsub habsent
    _ = (allSymbols.map (fun sym => syms.count sym * f sym)).sum := List.sum_toFinset _ allSymbols_nodup

/-- The lengths of a text's codes, read off the table. -/
theorem map_length_of_codes {t : Lut} {syms : List Byte} {codes : List Bits} (hc : syms.map t.get = codes.map some) :
    codes.map List.length = syms.map (fun sym => ((t.get sym).getD []).length) := by
  simpa [Function.comp_def] using congrArg (List.map (fun o : Option Bits => (o.getD []).length)) hc.symm

/-- The packed codes of a text have as many bits as its counts times the code lengths (R182). -/
theorem pack_codes_bitLength {t : Lut} {syms : List Byte} {codes : List Bits} (hc : syms.map t.get = codes.map some) :
    (pack codes.flatten).bitLength =
      (allSymbols.map (fun sym => syms.count sym * ((t.get sym).getD []).length)).sum := by
  rw [← BitVector.bits_length, pack_bits, List.length_flatten, map_length_of_codes hc, sum_map_eq_sum_count_mul]

/-! ### The statements -/

/-- Settles O40: the two cases of HUF.MAP, as the mapping of IN succeeds or fails. -/
theorem hufMapConcatenatesTheCodes : Obligations.HufMapConcatenatesTheCodes := fun _ vd h =>
  ⟨fun _ hc => exec_hufMap_of_codes h vd hc, fun hm => exec_hufMap_of_missing h vd hm⟩

/-- Settles O41: after HUF.BUILD every byte of IN has a code, so HUF.MAP ends in the state HUF.ENCODE leaves. -/
theorem hufEncodeIsBuildThenMap : Obligations.HufEncodeIsBuildThenMap := by
  intro s vd h
  obtain ⟨codes, hc, henc⟩ := exec_hufEncode h vd
  have hmap := exec_hufMap_of_codes (s := (s.setLut (buildTable s.inBytes)).setRes 0) h vd hc
  refine ⟨_, henc, ?both, rfl, h⟩
  case both =>
    rw [execMany_cons (exec_hufBuild h), execMany_cons hmap]
    rfl

/-- Settles O42: either command leaves the packed codes of IN under the table it leaves. -/
theorem packedLengthIsCountTimesCodeLength : Obligations.PackedLengthIsCountTimesCodeLength := by
  intro s t vd h hx
  have hpacked : ∃ codes : List Bits, s.inBytes.map t.lut.get = codes.map some ∧ t.getV vd = pack codes.flatten := by
    rcases hx with henc | ⟨hmap, hres⟩
    · obtain ⟨codes, hc, hx⟩ := exec_hufEncode h vd
      cases hx.symm.trans henc
      exact ⟨codes, hc, State.getV_setV_self _ vd _⟩
    · obtain ⟨codes, hc⟩ := exists_codes_of_hufMap_res_zero h hmap hres
      cases (exec_hufMap_of_codes h vd hc).symm.trans hmap
      exact ⟨codes, hc, State.getV_setV_self _ vd _⟩
  obtain ⟨codes, hc, hv⟩ := hpacked
  rw [hv, pack_codes_bitLength hc]

/-- Settles O43: HUF.ENCODE leaves the codes of IN under a prefix-free table without an empty code, which HUF.DECODE
reads back. -/
theorem encodeThenDecodeRestoresTheInput : Obligations.EncodeThenDecodeRestoresTheInput := by
  intro s vd h
  obtain ⟨codes, hc, henc⟩ := exec_hufEncode h vd
  have hread : decodeBits (buildTable s.inBytes) codes.flatten = .ok s.inBytes :=
    decodeBits_of_codes (buildTable_prefixFree _) (buildTable_noEmptyCode _) hc
  have hdec := exec_hufDecode_ok (vs := vd) (out := s.inBytes)
    (s := ((s.setLut (buildTable s.inBytes)).setV vd (pack codes.flatten)).setRes 0) h
    (by rw [State.getV_setRes, State.getV_setV_self, pack_bits]; exact hread)
  exact ⟨_, by rw [execMany_cons henc, execMany_cons hdec]; rfl, rfl, State.outBytes_replaceOut _ _⟩

end Sys2Proof.Machine
end

section
/-! The statements of the decoder family (44_decoder.md R190 to R199): what HUF.DECODE leaves in a running core, the
emitted symbols, a stream without its final bit, and the two other forms of the decoder, the phase machine of R191 and
the walk of the code trie of R196. -/

namespace Sys2Proof.Machine

/-! ### What HUF.DECODE leaves -/

section

variable {s : State} {vs : VReg} (h : s.halt = false)
include h

/-- HUF.DECODE where the decoding succeeds, OUT given by its bytes (R195). -/
theorem exec_hufDecode_holds {out : List Byte} (hd : decodeBits s.lut (s.getV vs).bits = .ok out) :
    ∃ m : Memory, m.Holds out ∧
      exec (.hufDecode vs) s = .next { s.setV vs ⟨[], ⟨0x00, 0⟩⟩ with outBuf := m, res := 0 } :=
  ⟨Memory.ofBytes out, Memory.holds_ofBytes out, exec_hufDecode_ok h hd⟩

/-- HUF.DECODE where a code occurs twice (R192). -/
theorem exec_hufDecode_corrupt (hd : decodeBits s.lut (s.getV vs).bits = .error .corrupt) :
    exec (.hufDecode vs) s = .next { s.setV vs ⟨[], ⟨0x00, 0⟩⟩ with res := 4 } := exec_hufDecode_error h hd

/-- HUF.DECODE where the source ends inside a code (R194). -/
theorem exec_hufDecode_trunc (hd : decodeBits s.lut (s.getV vs).bits = .error .trunc) :
    exec (.hufDecode vs) s = .next { s.setV vs ⟨[], ⟨0x00, 0⟩⟩ with res := 3 } := exec_hufDecode_error h hd

/-- HUF.DECODE ends with RES = 0 only where the decoding succeeds, with its bytes in OUT (R195, R259). -/
theorem decodeBits_of_hufDecode_res_zero {t : State} (hx : exec (.hufDecode vs) s = .next t) (hr : t.res = 0) :
    decodeBits s.lut (s.getV vs).bits = .ok t.outBytes := by
  cases hd : decodeBits s.lut (s.getV vs).bits with
  | ok out =>
    cases (exec_hufDecode_ok h hd).symm.trans hx
    exact congrArg Except.ok (State.outBytes_replaceOut (s.setV vs BitVector.empty) out).symm
  | error e =>
    cases (exec_hufDecode_error h hd).symm.trans hx
    rw [State.raise_res] at hr
    exact absurd hr (by cases e <;> decide)

end

/-! ### The decoding of a table, by its Reverse Dictionary -/

section

variable {t : Lut} {rev : RevDict}

/-- Phases SCAN and END, with the Reverse Dictionary of phase REV (R193, R194). -/
theorem decodeBits_of_reverseDict (hr : reverseDict [] t.entries = some rev) (src : Bits) :
    decodeBits t src = if (scanBits rev src).1 = [] then .ok (scanBits rev src).2 else .error .trunc := by
  simp only [decodeBits, hr]

theorem decodeBits_of_duplicate (hd : ¬ t.CodesDistinct) (src : Bits) : decodeBits t src = .error .corrupt := by
  rcases reverseDict_entries t with ⟨-, hr⟩ | ⟨hd', -⟩
  · simp only [decodeBits, hr]
  · exact absurd hd' hd

/-- A table without a duplicate code has a Reverse Dictionary, which is its inverse (R192). -/
theorem Lut.CodesDistinct.exists_reverseDict (hd : t.CodesDistinct) :
    ∃ rev, reverseDict [] t.entries = some rev ∧ ∀ c sym, rev.lookup c = some sym ↔ t.get sym = some c :=
  (reverseDict_entries t).elim (fun h => absurd hd h.1) And.right

theorem Lut.CodesDistinct.error_eq_trunc (hd : t.CodesDistinct) {src : Bits} {e : Err}
    (he : decodeBits t src = .error e) : e = .trunc :=
  (decodeBits_error he).elim (fun h => absurd hd h.2) And.left

/-- A code that breaks off before its last bit, after whole codes: the bits of it that did arrive stay in the buffer, so
decoding succeeds exactly when there are none (R199). -/
theorem decodeBits_of_codes_append (hp : t.PrefixFree) (hne : t.NoEmptyCode) {syms : List Byte} {codes : List Bits}
    (h : syms.map t.get = codes.map some) {last : Byte} {p : Bits} {b : Bool} (hc : t.get last = some (p ++ [b])) :
    decodeBits t (codes.flatten ++ p) = if p = [] then .ok syms else .error .trunc := by
  obtain ⟨rev, hr, hrev⟩ := hp.codesDistinct.exists_reverseDict
  have hscan : scanBits rev (codes.flatten ++ p) = (p, syms) := by
    rw [scanBits, List.foldl_append, foldl_scanBit_codes hrev hp hne syms codes h, foldl_scanBit_properPrefix hrev hp hc,
      List.nil_append]
  rw [decodeBits_of_reverseDict hr, hscan]

/-- A match has consumed a bit, so every symbol the scan adds has a code that is not empty (R193, R197). -/
theorem mem_or_exists_code_of_mem_foldl_scanBit {sym : Byte} (src : Bits) {st : Bits × List Byte}
    (hm : sym ∈ (src.foldl (scanBit rev) st).2) : sym ∈ st.2 ∨ ∃ p b, rev.lookup (p ++ [b]) = some sym := by
  induction src generalizing st with
  | nil => exact .inl hm
  | cons b src ih =>
    rcases ih hm with hmem | hcode
    · cases hl : rev.lookup (st.1 ++ [b]) with
      | none => exact .inl (by simpa [scanBit, hl] using hmem)
      | some a =>
        have hor : sym ∈ st.2 ∨ sym = a := by simpa [scanBit, hl] using hmem
        exact hor.imp_right fun (e : sym = a) => ⟨st.1, b, e ▸ hl⟩
    · exact .inr hcode

/-- Decoding emits no symbol whose code is empty (R197). -/
theorem not_mem_of_decodeBits {src : Bits} {out : List Byte} (hd : decodeBits t src = .ok out) {sym : Byte}
    (he : t.get sym = some []) : sym ∉ out := by
  rcases reverseDict_entries t with ⟨hdup, -⟩ | ⟨-, rev, hr, hrev⟩
  · rw [decodeBits_of_duplicate hdup] at hd
    cases hd
  · rw [decodeBits_of_reverseDict hr] at hd
    split at hd <;> cases hd
    intro hm
    obtain ⟨p, b, hl⟩ := (mem_or_exists_code_of_mem_foldl_scanBit src hm).resolve_left List.not_mem_nil
    have hcode : some (p ++ [b]) = some [] := ((hrev _ _).1 hl).symm.trans he
    exact List.concat_ne_nil b p (Option.some.inj hcode)

end

/-! ### The phase machine (R191) -/

/-- The machine in phase SCAN, its scratch buffer and bytes given as `scanBit` has them (R191). -/
def DecoderState.scanning (src : Bits) (rev : RevDict) (pos : Nat) (st : Bits × List Byte) : DecoderState :=
  ⟨src, pos, rev, st.1, st.2, .scan⟩

section

variable {t : Lut} {rev : RevDict} {src : Bits} {st : Bits × List Byte}

theorem decoderStep_start_of_none (hr : reverseDict [] t.entries = none) :
    decoderStep t (decoderStart src) = { decoderStart src with phase := .err .corrupt } := by
  simp [decoderStep, decoderStart, hr]

theorem decoderStep_start_of_some (hr : reverseDict [] t.entries = some rev) :
    decoderStep t (decoderStart src) = .scanning src rev 0 ([], []) := by
  simp [decoderStep, decoderStart, DecoderState.scanning, hr]

theorem decoderStep_scanning_bit {pos : Nat} {b : Bool} (hb : src[pos]? = some b) :
    decoderStep t (.scanning src rev pos st) = .scanning src rev (pos + 1) (scanBit rev st b) := by
  cases hl : rev.lookup (st.1 ++ [b]) <;> simp [decoderStep, DecoderState.scanning, scanBit, hb, hl]

theorem decoderStep_scanning_length :
    decoderStep t (.scanning src rev src.length st) =
      { DecoderState.scanning src rev src.length st with phase := .atEnd } := by
  simp [decoderStep, DecoderState.scanning]

theorem decoderStep_atEnd {d : DecoderState} (hd : d.phase = .atEnd) :
    decoderStep t d = { d with phase := if d.scr = [] then .done else .err .trunc } := by
  by_cases hs : d.scr = [] <;> simp [decoderStep, hd, hs]

/-- A machine in DONE or ERR stays as it is (R191). -/
theorem decoderRun_of_terminal {d : DecoderState} (hd : d.phase = .done ∨ ∃ e, d.phase = .err e) (n : Nat) :
    decoderRun t n d = d := by
  have hstep : decoderStep t d = d := by
    rcases hd with hp | ⟨e, hp⟩
    · simp only [decoderStep, hp]
    · simp only [decoderStep, hp]
      rw [← hp]
  induction n with
  | zero => rfl
  | succ n ih => rw [decoderRun, hstep, ih]

/-- Phase SCAN takes one transition per bit and leaves what the fold of `scanBit` does (R191, R193). -/
theorem decoderRun_scanning (rest : Bits) {pos : Nat} (hrest : src.drop pos = rest) (hpos : pos ≤ src.length)
    (n : Nat) :
    decoderRun t (rest.length + n) (.scanning src rev pos st) =
      decoderRun t n (.scanning src rev src.length (rest.foldl (scanBit rev) st)) := by
  induction rest generalizing pos st with
  | nil =>
    obtain rfl : pos = src.length := Nat.le_antisymm hpos (List.drop_eq_nil_iff.1 hrest)
    rw [List.length_nil, Nat.zero_add, List.foldl_nil]
  | cons b rest ih =>
    have hb : src[pos]? = some b := by rw [← List.head?_drop, hrest, List.head?_cons]
    have htail : src.drop (pos + 1) = rest := by rw [← List.tail_drop, hrest, List.tail_cons]
    have hlt : pos < src.length := (List.getElem?_eq_some_iff.1 hb).1
    rw [List.length_cons, Nat.succ_add_eq_add_succ, Nat.add_succ, decoderRun, decoderStep_scanning_bit hb, ih htail hlt,
      List.foldl_cons]

/-- From the start of phase SCAN: the bits, the transition to END and the one that leaves it (R191, R194). -/
theorem decoderRun_scanning_end {n : Nat} (hn : src.length + 2 ≤ n) :
    decoderRun t n (.scanning src rev 0 ([], [])) =
      { DecoderState.scanning src rev src.length (scanBits rev src) with
        phase := if (scanBits rev src).1 = [] then .done else .err .trunc } := by
  obtain ⟨k, rfl⟩ := Nat.exists_eq_add_of_le hn
  rw [Nat.add_assoc, decoderRun_scanning src List.drop_zero (Nat.zero_le _), ← scanBits, Nat.add_comm 2 k, decoderRun,
    decoderStep_scanning_length, decoderRun, decoderStep_atEnd rfl]
  refine decoderRun_of_terminal ?terminal k
  by_cases hs : (scanBits rev src).1 = []
  · exact .inl (if_pos hs)
  · exact .inr ⟨_, if_neg hs⟩

/-- The machine ends in DONE with the decoded bytes, or in ERR with the error of the decoding (R191). -/
theorem decoderRun_start (t : Lut) {n : Nat} (hn : src.length + 3 ≤ n) :
    ((decoderRun t n (decoderStart src)).phase = .done ∧
      decodeBits t src = .ok (decoderRun t n (decoderStart src)).out) ∨
    (∃ e, (decoderRun t n (decoderStart src)).phase = .err e ∧ decodeBits t src = .error e) := by
  obtain ⟨n, rfl⟩ : ∃ k, n = k + 1 := ⟨n - 1, by omega⟩
  rw [decoderRun]
  rcases reverseDict_entries t with ⟨hdup, hr⟩ | ⟨-, rev, hr, -⟩
  · rw [decoderStep_start_of_none hr, decoderRun_of_terminal (.inr ⟨_, rfl⟩)]
    exact .inr ⟨_, rfl, decodeBits_of_duplicate hdup src⟩
  · rw [decoderStep_start_of_some hr, decoderRun_scanning_end (Nat.le_of_succ_le_succ hn), decodeBits_of_reverseDict hr]
    by_cases hs : (scanBits rev src).1 = []
    · exact .inl ⟨if_pos hs, if_pos hs⟩
    · exact .inr ⟨_, if_neg hs, if_neg hs⟩

end

/-! ### The walk of the code trie (R196) -/

/-- The symbol whose code ends at a node. -/
def Trie.symbol : Trie → Option Byte
  | .absent => none
  | .node m _ _ => m

/-- The node that a path from this node leads to. -/
def Trie.descend (trie : Trie) (path : Bits) : Trie := path.foldl Trie.child trie

@[simp] theorem Trie.descend_nil (trie : Trie) : trie.descend [] = trie := rfl

@[simp] theorem Trie.descend_cons (trie : Trie) (b : Bool) (path : Bits) :
    trie.descend (b :: path) = (trie.child b).descend path := rfl

theorem Trie.descend_concat (trie : Trie) (path : Bits) (b : Bool) :
    trie.descend (path ++ [b]) = (trie.descend path).child b := by
  rw [descend, List.foldl_append]
  rfl

@[simp] theorem Trie.descend_absent (path : Bits) : Trie.absent.descend path = .absent := by
  induction path with
  | nil => rfl
  | cons b path ih => exact ih

/-- The empty code is recorded at the node itself, and no child changes. -/
theorem Trie.insert_nil (trie : Trie) (sym : Byte) :
    (trie.insert [] sym).symbol = some sym ∧ ∀ b, (trie.insert [] sym).child b = trie.child b := by
  cases trie
  · exact ⟨rfl, fun b => by cases b <;> rfl⟩
  · exact ⟨rfl, fun b => by cases b <;> rfl⟩

/-- Any other code is recorded below the child on its first bit. -/
theorem Trie.insert_cons (trie : Trie) (d : Bool) (code : Bits) (sym : Byte) :
    (trie.insert (d :: code) sym).symbol = trie.symbol ∧
      ∀ b, (trie.insert (d :: code) sym).child b = if b = d then (trie.child d).insert code sym else trie.child b := by
  cases trie <;> cases d <;> exact ⟨rfl, fun b => by cases b <;> rfl⟩

/-- Recording a code changes the symbol at the end of its path and at no other node (R196). -/
theorem Trie.symbol_descend_insert (trie : Trie) (code path : Bits) (sym : Byte) :
    ((trie.insert code sym).descend path).symbol = if path = code then some sym else (trie.descend path).symbol := by
  induction code generalizing trie path with
  | nil =>
    obtain ⟨hsym, hchild⟩ := trie.insert_nil sym
    cases path with
    | nil => simpa using hsym
    | cons b path => simp [hchild]
  | cons d code ih =>
    obtain ⟨hsym, hchild⟩ := trie.insert_cons d code sym
    cases path with
    | nil => simpa using hsym
    | cons b path =>
      by_cases hb : b = d
      · subst hb
        simp [hchild, ih]
      · simp [hchild, hb]

section

variable {t : Lut} {rev : RevDict}

/-- The trie and the Reverse Dictionary, filled from the same entries, answer the same symbol for every path. -/
theorem symbol_descend_foldl_insert {es : List (Byte × Bits)} {rev₀ : RevDict} {trie : Trie}
    (hr : reverseDict rev₀ es = some rev) (h₀ : ∀ path, (trie.descend path).symbol = rev₀.lookup path) (path : Bits) :
    ((es.foldl (fun acc e => acc.insert e.2 e.1) trie).descend path).symbol = rev.lookup path := by
  induction es generalizing rev₀ trie with
  | nil => cases hr; exact h₀ path
  | cons e es ih =>
    rw [reverseDict] at hr
    split at hr
    · cases hr
    · refine ih hr fun p => ?_
      rw [Trie.symbol_descend_insert, List.lookup_cons, h₀]
      by_cases hp : p = e.2
      · simp [hp]
      · simp [hp, beq_eq_false_iff_ne.2 hp]

/-- The terminal nodes of the code trie are the codes of the table (R196). -/
theorem symbol_descend_codeTrie (hr : reverseDict [] t.entries = some rev) (path : Bits) :
    ((codeTrie t).descend path).symbol = rev.lookup path := by
  refine symbol_descend_foldl_insert hr (fun p => ?_) path
  cases p with
  | nil => rfl
  | cons b p => cases b <;> exact congrArg Trie.symbol (Trie.descend_absent p)

/-- Where the walker stands at a node that is neither the root nor terminal. -/
def WalkerAt.inside : Trie → WalkerAt
  | .absent => .dead
  | .node m zero one => .below (.node m zero one)

/-- Where the walker stands when the scan's buffer holds the given bits: at the root for an empty buffer, else where the
bits lead, which is nowhere when they begin no code. -/
def WalkerAt.ofBuffer (trie : Trie) (scr : Bits) : WalkerAt :=
  if scr = [] then .root else .inside (trie.descend scr)

theorem WalkerAt.ofBuffer_eq_root_iff (trie : Trie) (scr : Bits) : ofBuffer trie scr = .root ↔ scr = [] := by
  rw [ofBuffer]
  split
  · next h => exact iff_of_true rfl h
  · next h => exact iff_of_false (by cases trie.descend scr <;> simp [inside]) h

theorem walkerArrive_of_some {n : Trie} {sym : Byte} (h : n.symbol = some sym) (out : List Byte) :
    walkerArrive out n = (.root, out ++ [sym]) := by
  cases n with
  | absent => cases h
  | node m zero one => cases h; rfl

theorem walkerArrive_of_none {n : Trie} (h : n.symbol = none) (out : List Byte) :
    walkerArrive out n = (.inside n, out) := by
  cases n with
  | absent => rfl
  | node m zero one => cases h; rfl

/-- From wherever it stands, the walker arrives at the node of the buffer with the new bit. -/
theorem walkerBit_ofBuffer (trie : Trie) (scr : Bits) (out : List Byte) (b : Bool) :
    walkerBit trie (.ofBuffer trie scr, out) b = walkerArrive out (trie.descend (scr ++ [b])) := by
  rw [Trie.descend_concat, WalkerAt.ofBuffer]
  split
  · next h => subst h; rfl
  · cases trie.descend scr <;> rfl

/-- One bit of the walk is one bit of the scan (R193, R196). -/
theorem walkerBit_eq_scanBit {trie : Trie} (htrie : ∀ path, (trie.descend path).symbol = rev.lookup path)
    (st : Bits × List Byte) (b : Bool) :
    walkerBit trie (.ofBuffer trie st.1, st.2) b =
      (.ofBuffer trie (scanBit rev st b).1, (scanBit rev st b).2) := by
  rw [walkerBit_ofBuffer]
  cases hl : rev.lookup (st.1 ++ [b]) with
  | none => simp [walkerArrive_of_none ((htrie _).trans hl), scanBit, hl, WalkerAt.ofBuffer]
  | some sym => simp [walkerArrive_of_some ((htrie _).trans hl), scanBit, hl, WalkerAt.ofBuffer]

/-- The walk of the code trie is the scan, its buffer shown as a place in the trie (R196). -/
theorem foldl_walkerBit_codeTrie (hr : reverseDict [] t.entries = some rev) (src : Bits) :
    src.foldl (walkerBit (codeTrie t)) (.root, []) =
      (.ofBuffer (codeTrie t) (scanBits rev src).1, (scanBits rev src).2) :=
  List.foldl_hom (fun st : Bits × List Byte => (WalkerAt.ofBuffer (codeTrie t) st.1, st.2)) (init := ([], []))
    (walkerBit_eq_scanBit (symbol_descend_codeTrie hr))

/-- For a table without a duplicate code the walk of its trie is the decoding (R196). -/
theorem walkBits_eq_decodeBits (hd : t.CodesDistinct) (src : Bits) : walkBits t src = decodeBits t src := by
  obtain ⟨rev, hr, -⟩ := hd.exists_reverseDict
  simp only [walkBits, decodeBits_of_reverseDict hr, foldl_walkerBit_codeTrie hr, WalkerAt.ofBuffer_eq_root_iff]

end

/-! ### The statements -/

/-- Settles O44: the scan of concatenated codes emits their symbols and leaves the buffer empty. -/
theorem hufDecodeRecoversTheSymbols : Obligations.HufDecodeRecoversTheSymbols := by
  intro s vs syms codes h hp hne hc hbits
  exact exec_hufDecode_holds h (hbits ▸ decodeBits_of_codes hp hne hc)

/-- Settles O45: CORRUPT comes from phase REV, which fails exactly on a duplicate code. -/
theorem duplicateCodeIsCorrupt : Obligations.DuplicateCodeIsCorrupt := by
  refine fun s vs h => ⟨fun hdup => exec_hufDecode_corrupt h (decodeBits_of_duplicate hdup _), fun hd => ?_⟩
  cases he : decodeBits s.lut (s.getV vs).bits with
  | ok out => exact ⟨_, exec_hufDecode_ok h he, by rw [State.setRes_res]; decide⟩
  | error e =>
    obtain rfl := hd.error_eq_trunc he
    exact ⟨_, exec_hufDecode_error h he, by rw [State.raise_res]; decide⟩

/-- Settles O46: without its final bit the last code leaves its other bits in the buffer, none when it has only one. -/
theorem truncationIsDetectedInsideACode : Obligations.TruncationIsDetectedInsideACode := by
  intro s vs syms codes last c h hp hne hcodes hlast hbits
  obtain ⟨p, b, rfl⟩ := (List.eq_nil_or_concat' c).resolve_left (fun e => hne last (e ▸ hlast))
  rw [← List.append_assoc, List.dropLast_concat] at hbits
  have hdec := decodeBits_of_codes_append hp hne hcodes hlast
  rw [← hbits] at hdec
  rw [List.length_append, List.length_singleton]
  constructor
  · intro h2
    have hp' : p ≠ [] := by rintro rfl; exact absurd h2 (by decide)
    exact exec_hufDecode_trunc h (hdec.trans (if_neg hp'))
  · intro h1
    exact exec_hufDecode_holds h (hdec.trans (if_pos (List.length_eq_zero_iff.1 (Nat.succ.inj h1))))

/-- Settles O47: the machine's end is the decoding's result. -/
theorem hufDecodeRunsThePhaseMachine : Obligations.HufDecodeRunsThePhaseMachine := by
  intro s vs n h hn
  rcases decoderRun_start s.lut hn with ⟨hphase, hd⟩ | ⟨e, hphase, hd⟩
  · exact .inl ⟨hphase, exec_hufDecode_holds h hd⟩
  · rcases decodeBits_error hd with ⟨rfl, -⟩ | ⟨rfl, -⟩
    · exact .inr ⟨_, hphase, .inl rfl, exec_hufDecode_corrupt h hd⟩
    · exact .inr ⟨_, hphase, .inr rfl, exec_hufDecode_trunc h hd⟩

/-- Settles O48: the walk of the code trie is the decoding. -/
theorem hufDecodeIsATreeWalk : Obligations.HufDecodeIsATreeWalk := by
  intro s vs h hd
  rw [walkBits_eq_decodeBits hd]
  refine ⟨fun out hok => exec_hufDecode_holds h hok, fun e he => ?_⟩
  obtain rfl := hd.error_eq_trunc he
  exact ⟨rfl, exec_hufDecode_trunc h he⟩

/-- Settles O49: RES = 0 means OUT holds the decoded bytes, each of which has a code that is not empty. -/
theorem emptyCodeIsNeverMatched : Obligations.EmptyCodeIsNeverMatched := fun _ _ _ _ h hempty hx hr =>
  not_mem_of_decodeBits (decodeBits_of_hufDecode_res_zero h hx hr) hempty

end Sys2Proof.Machine
end

section
/-! The serializer commands (45_serializer.md): which Bit Vector frames are read (R215), the entries of a table
read from a frame (R225), what each of the four commands leaves in a running core, and the statements of the serializer
family settled from that. -/

namespace Sys2Proof.Machine

/-! ### Which Bit Vector frames are read -/

/-- The canonical form of a tail value as the shift that R215 tests. -/
theorem lowBitsZero_iff_shiftLeft (v : Byte) (n : Nat) : lowBitsZero v n = true ↔ v <<< n = 0 := beq_iff_eq

section

variable {tl tv : Byte}

/-- A frame that passes the tests of R215 is read by its byte positions. -/
theorem parseVectorFrame_of_tests (bytes : List Byte) (h7 : tl.toNat ≤ 7) (hc : tv <<< tl.toNat = 0) :
    parseVectorFrame (tl :: tv :: bytes) = some ⟨bytes, ⟨tv, ⟨tl.toNat, by omega⟩⟩⟩ := by
  rw [parseVectorFrame, dif_pos h7, if_pos ((lowBitsZero_iff_shiftLeft _ _).2 hc)]

/-- A frame that fails the second or the third test of R215 is not read. -/
theorem parseVectorFrame_of_failed_test (bytes : List Byte) (h : 7 < tl.toNat ∨ tv <<< tl.toNat ≠ 0) :
    parseVectorFrame (tl :: tv :: bytes) = none := by
  rw [parseVectorFrame]
  rcases h with h7 | hc
  · rw [dif_neg (Nat.not_le.2 h7)]
  · simp only [mt (lowBitsZero_iff_shiftLeft _ _).1 hc, Bool.false_eq_true, if_false, dite_eq_ite, ite_self]

/-- A frame of fewer than two bytes is not read (R215). -/
theorem parseVectorFrame_of_short {f : List Byte} (h : f.length < 2) : parseVectorFrame f = none := by
  match f, h with
  | [], _ => rfl
  | [_], _ => rfl

end

/-! ### The table a Dictionary frame holds -/

/-- Entries in ascending order of symbol (R220). -/
def Ascending (es : List (Byte × Bits)) : Prop := es.Pairwise (fun d e => d.1.toNat < e.1.toNat)

/-- The entries of a table made of entries with distinct symbols are those, in some order. -/
theorem Lut.entries_ofEntries_perm {es : List (Byte × Bits)} (hn : (es.map Prod.fst).Nodup) :
    (Lut.ofEntries es).entries.Perm es :=
  (List.perm_ext_iff_of_nodup ((Lut.entries_keys_nodup _).of_map _) (hn.of_map _)).2 fun ⟨sym, c⟩ =>
    (Lut.mem_entries _ sym c).trans (Lut.get_ofEntries hn sym c)

/-- Two ascending lists of the same entries are equal. -/
theorem Ascending.eq_of_perm {es fs : List (Byte × Bits)} (he : Ascending es) (hf : Ascending fs) (hp : es.Perm fs) :
    es = fs :=
  hp.eq_of_pairwise (fun _ _ _ _ hab hba => absurd hab (Nat.lt_asymm hba)) he hf

/-- The symbols of a frame are ascending exactly when they are so by byte positions (R226). -/
theorem frameSyms_ascending_iff (f : List Byte) :
    ((List.range (frameCount f)).map (frameSym f)).Pairwise (fun a b => a.toNat < b.toNat) ↔
      ∀ i k, i < k → k < frameCount f → (frameSym f i).toNat < (frameSym f k).toNat := by
  rw [List.pairwise_map]
  simp only [List.pairwise_iff_getElem, List.length_range, List.getElem_range]
  exact ⟨fun h i k hik hk => h i k (hik.trans hk) hk hik, fun h i k _ hk hik => h i k hik hk⟩

theorem frameEntries_length (f : List Byte) : (frameEntries f).length = frameCount f := by simp [frameEntries]

/-- What a frame with its pairs in ascending order spells is in ascending order (R226). -/
theorem frameEntries_ascending {f : List Byte}
    (h : ∀ i k, i < k → k < frameCount f → (frameSym f i).toNat < (frameSym f k).toNat) :
    Ascending (frameEntries f) :=
  List.pairwise_map.2 (List.pairwise_map (f := frameSym f).1 ((frameSyms_ascending_iff f).2 h))

/-- A table read from a well-formed frame holds exactly the codes the frame spells by byte positions (R225). -/
theorem get_eq_some_iff_exists_pair {f : List Byte} (h : DictFrameWf f) {table : Lut}
    (hp : parseDictFrame f = some table) {sym : Byte} {code : Bits} :
    table.get sym = some code ↔ ∃ k < frameCount f, frameSym f k = sym ∧ frameCode f k = code := by
  simp [← mem_frameEntries h hp, frameEntries]

theorem Lut.CodesFit.entry_length_le {t : Lut} (hfit : t.CodesFit) (e : Byte × Bits) (he : e ∈ t.entries) :
    e.2.length ≤ 255 := hfit e.1 e.2 ((t.mem_entries e.1 e.2).1 he)

section

variable {t : Lut} (hlen : t.entries.length ≤ 255) (hfit : t.CodesFit)
include hlen hfit

/-- The frame of a table is well formed, with the table's entries in their order (R220, R226). -/
theorem dictFrame_entries_wf :
    DictFrameWf (dictFrame t.entries) ∧ frameCount (dictFrame t.entries) = t.entries.length ∧
      (List.range t.entries.length).map (frameSym (dictFrame t.entries)) = t.entries.map Prod.fst :=
  dictFrame_wf t.entries_keys_nodup hlen hfit.entry_length_le

/-- The frame of a table is read back as the table (R226). -/
theorem parseDictFrame_dictFrame_entries : parseDictFrame (dictFrame t.entries) = some t := by
  rw [parseDictFrame_dictFrame t.entries_keys_nodup hlen hfit.entry_length_le, Lut.ofEntries_entries]

/-- The pairs of a table's frame stand in ascending order of symbol (R220). -/
theorem dictFrame_entries_ascending {i k : Nat} (hik : i < k) (hk : k < frameCount (dictFrame t.entries)) :
    (frameSym (dictFrame t.entries) i).toNat < (frameSym (dictFrame t.entries) k).toNat := by
  obtain ⟨-, hcount, hsyms⟩ := dictFrame_entries_wf hlen hfit
  refine (frameSyms_ascending_iff _).1 ?_ i k hik hk
  rw [hcount, hsyms, List.pairwise_map]
  exact t.entries_ascending

end

/-! ### The commands in a running core -/

/-- The state after bytes were written to OUT and moved to IN, which leaves OUT empty (R242). -/
def State.transferred (s : State) (bs : List Byte) : State := ((s.setIn (Memory.ofBytes bs)).setOut []).setRes 0

@[simp] theorem State.transferred_inBytes (s : State) (bs : List Byte) : (s.transferred bs).inBytes = bs :=
  Memory.bytes_ofBytes bs

section

variable {s : State} (h : s.halt = false)
include h

theorem exec_serBv (v : VReg) :
    exec (.serBv v) s = .next ((s.replaceOut (vectorFrame (s.getV v))).setRes 0) := exec_done h rfl

theorem exec_desBv_of_some (vd : VReg) {x : BitVector} (hp : parseVectorFrame s.inBytes = some x) :
    exec (.desBv vd) s = .next ((s.setV vd x).setRes 0) :=
  exec_done h (by simp only [commandWork, desBvWork, hp])

theorem exec_desBv_of_none (vd : VReg) (hp : parseVectorFrame s.inBytes = none) :
    exec (.desBv vd) s = .next (s.raise .frame) :=
  exec_raised h (by simp only [commandWork, desBvWork, hp])

/-- DES.BV ends with RES = 0 only where IN is read, since FrameError leaves RES = 6 (R215, R257). -/
theorem parse_of_desBv_res_zero {vd : VReg} {t : State} (hx : exec (.desBv vd) s = .next t) (hr : t.res = 0) :
    ∃ x, parseVectorFrame s.inBytes = some x ∧ t = (s.setV vd x).setRes 0 := by
  cases hp : parseVectorFrame s.inBytes with
  | none =>
    cases (exec_desBv_of_none h vd hp).symm.trans hx
    exact absurd ((s.raise_res .frame).symm.trans hr) (Err.code_ne_zero _)
  | some x =>
    cases (exec_desBv_of_some h vd hp).symm.trans hx
    exact ⟨x, rfl, rfl⟩

theorem exec_serDict_of_le (hlen : s.nLut ≤ 255) :
    exec .serDict s = .next ((s.replaceOut (dictFrame s.lut.entries)).setRes 0) :=
  exec_done h (if_neg (Nat.not_lt.2 hlen))

theorem exec_serDict_of_gt (hlen : 255 < s.nLut) : exec .serDict s = .next (s.raise .alpha) :=
  exec_raised h (if_pos hlen)

theorem exec_desDict_of_some {t : Lut} (hp : parseDictFrame s.inBytes = some t) :
    exec .desDict s = .next ((s.setLut t).setRes 0) :=
  exec_done h (by simp only [commandWork, desDictWork, hp])

theorem exec_desDict_of_none (hp : parseDictFrame s.inBytes = none) : exec .desDict s = .next (s.raise .frame) :=
  exec_raised h (by simp only [commandWork, desDictWork, hp])

/-- A command that only replaces OUT, then IO.XFER, as the head of a run. -/
theorem execMany_replaceOut_ioXfer {i : Instr} {bs : List Byte}
    (hx : exec i s = .next ((s.replaceOut bs).setRes 0)) (rest : List Instr) :
    execMany (i :: .ioXfer :: rest) s = execMany rest (s.transferred bs) := by
  rw [execMany_cons hx, execMany_cons (exec_ioXfer (s := (s.replaceOut bs).setRes 0) h)]
  rfl

/-- DES.DICT and SER.DICT from a well-formed frame: OUT is the frame of the table that frame holds (R226). -/
theorem execMany_desDict_serDict (hf : DictFrameWf s.inBytes) :
    ∃ (t : Lut) (u : State), parseDictFrame s.inBytes = some t ∧ t.entries.Perm (frameEntries s.inBytes) ∧
      execMany [.desDict, .serDict] s = some u ∧ u.res = 0 ∧ u.outBytes = dictFrame t.entries := by
  have hp := (parseDictFrame_eq s.inBytes).1 hf
  have hperm := Lut.entries_ofEntries_perm (frameEntries_keys_nodup hf)
  generalize Lut.ofEntries (frameEntries s.inBytes) = t at hp hperm
  have hlen : ((s.setLut t).setRes 0).nLut ≤ 255 := by
    rw [State.nLut, State.setRes_lut, State.setLut_lut, hperm.length_eq, frameEntries_length]
    exact frameCount_le _
  refine ⟨t, _, hp, hperm, ?_, rfl, State.outBytes_replaceOut ((s.setLut t).setRes 0) _⟩
  rw [execMany_cons (exec_desDict_of_some h hp),
    execMany_cons (exec_serDict_of_le (s := (s.setLut t).setRes 0) h hlen)]
  rfl

end

/-! ### The statements -/

/-- Settles O51, by the cases of the three tests. -/
theorem desBvReadsTheFrame : Obligations.DesBvReadsTheFrame := by
  refine fun s vd h => ⟨fun tl tv bytes hin h7 hc => ?_, fun hshort => ?_, fun tl tv bytes hin hbad => ?_⟩
  · have hp : parseVectorFrame s.inBytes = _ := hin ▸ parseVectorFrame_of_tests bytes h7 hc
    exact ⟨_, rfl, rfl, rfl, exec_desBv_of_some h vd hp⟩
  · exact exec_desBv_of_none h vd (parseVectorFrame_of_short (s.inBytes_length.trans_lt hshort))
  · exact exec_desBv_of_none h vd (hin ▸ parseVectorFrame_of_failed_test bytes hbad)

/-- Settles O52: the frame of a canonical register is read back as it, and what is read has the frame it came from. -/
theorem vectorFrameRoundTrips : Obligations.VectorFrameRoundTrips := by
  refine ⟨fun s v vd h hc => ?_, fun s t vd h hx hr => ?_⟩
  · have hp : parseVectorFrame (s.transferred (vectorFrame (s.getV v))).inBytes = some (s.getV v) := by
      rw [State.transferred_inBytes, parseVectorFrame_vectorFrame hc]
    rw [execMany_replaceOut_ioXfer h (exec_serBv h v),
      execMany_cons (exec_desBv_of_some (s := s.transferred _) h vd hp)]
    exact ⟨_, rfl, rfl, State.getV_setV_self _ vd _⟩
  · obtain ⟨x, hp, rfl⟩ := parse_of_desBv_res_zero h hx hr
    refine ⟨_, exec_serBv (s := (s.setV vd x).setRes 0) h vd, (State.outBytes_replaceOut _ _).trans ?_⟩
    rw [State.getV_setRes, State.getV_setV_self]
    exact (vectorFrame_of_parse hp).2

/-- Settles O53: the table's entries are the list, and there are at most 256 of them. -/
theorem serDictWritesTheFrame : Obligations.SerDictWritesTheFrame := by
  refine fun s h => ⟨fun hlen _ => ?_, fun hfull => exec_serDict_of_gt h (by omega), s.nLut_le⟩
  refine ⟨s.lut.entries, _, exec_serDict_of_le h hlen, rfl, s.lut.entries_ascending, s.lut.mem_entries,
    Memory.wf_ofBytes _, ?_⟩
  rw [State.replaceOut_outBuf, Memory.bytes_ofBytes, dictFrame, vectorFrame,
    List.append_assoc _ _ (pack _).completeBytes]
  rfl

/-- Settles O54: the table read is that of the entries the frame spells by byte positions. -/
theorem desDictReadsTheFrame : Obligations.DesDictReadsTheFrame := by
  refine fun s h => ⟨fun hf => ?_, fun hf => exec_desDict_of_none h ((parseDictFrame_eq _).2 hf)⟩
  have hp := (parseDictFrame_eq s.inBytes).1 hf
  generalize Lut.ofEntries (frameEntries s.inBytes) = t at hp
  refine ⟨t, exec_desDict_of_some h hp, fun i hi => (get_eq_some_iff_exists_pair hf hp).2 ⟨i, hi, rfl, rfl⟩,
    fun sym hsym => Option.eq_none_iff_forall_ne_some.2 fun code hcode => ?_⟩
  obtain ⟨i, hi, hs, -⟩ := (get_eq_some_iff_exists_pair hf hp).1 hcode
  exact hsym i hi hs

/-- Settles O55: a table is read back from its frame; and the frame written back is that of the entries of the frame
read, in ascending order, so the frame itself where its pairs were ascending. -/
theorem dictionaryFrameRoundTrips : Obligations.DictionaryFrameRoundTrips := by
  refine ⟨fun s h hlen hfit => ?table, fun s h hf hasc => ?ascending, fun s h hf => ?anyOrder⟩
  case table =>
    have hp : parseDictFrame (s.transferred (dictFrame s.lut.entries)).inBytes = some s.lut := by
      rw [State.transferred_inBytes, parseDictFrame_dictFrame_entries hlen hfit]
    rw [execMany_replaceOut_ioXfer h (exec_serDict_of_le h hlen),
      execMany_cons (exec_desDict_of_some (s := s.transferred _) h hp)]
    exact ⟨_, rfl, rfl, rfl⟩
  case ascending =>
    obtain ⟨t, u, -, hperm, hrun, hres, hout⟩ := execMany_desDict_serDict h hf
    refine ⟨u, hrun, hres, ?_⟩
    rw [hout, Ascending.eq_of_perm t.entries_ascending (frameEntries_ascending hasc) hperm, dictFrame_frameEntries hf]
  case anyOrder =>
    obtain ⟨t, u, hp, hperm, hrun, hres, hout⟩ := execMany_desDict_serDict h hf
    have hcount : t.entries.length = frameCount s.inBytes := hperm.length_eq.trans (frameEntries_length _)
    have hlen : t.entries.length ≤ 255 := hcount.trans_le (frameCount_le _)
    have hfit : t.CodesFit := parseDictFrame_codesFit hp
    obtain ⟨hwf, hn, -⟩ := dictFrame_entries_wf hlen hfit
    refine ⟨u, hrun, hres, ?_⟩
    rw [hout]
    refine ⟨hwf, hn.trans hcount, fun i k => dictFrame_entries_ascending hlen hfit, fun i hi => ?_⟩
    have hcode : t.get (frameSym s.inBytes i) = some (frameCode s.inBytes i) :=
      (get_eq_some_iff_exists_pair hf hp).2 ⟨i, hi, rfl, rfl⟩
    exact (get_eq_some_iff_exists_pair hwf (parseDictFrame_dictFrame_entries hlen hfit)).1 hcode

/-- Settles O50: OUT becomes the frame of the register. -/
theorem serBvWritesTheFrame : Obligations.SerBvWritesTheFrame := by
  refine fun s v h => ⟨_, exec_serBv h v, Memory.holds_ofBytes _, ?_⟩
  rw [State.replaceOut_outBuf, Memory.ofBytes_length, vectorFrame, List.length_append]
  rfl

end Sys2Proof.Machine
end

section
/-! The data-movement commands (46_io.md): what IN.CLR and IN.PUSH leave in a running core, and the statements of the
family settled from that; IO.XFER's equation is `exec_ioXfer`. -/

namespace Sys2Proof.Machine

/-- The pushed byte stands at the address the buffer's length was (R60, R241). -/
theorem Memory.readByte_push_self {m : Memory} (h : m.wf) (b : Byte) : (m.push b).readByte m.length = some b := by
  rw [Memory.readByte_of_wf (Memory.wf_push h b), Memory.bytes_push, ← Memory.bytes_length m, List.getElem?_concat_length]

theorem exec_inClr {s : State} (h : s.halt = false) : exec .inClr s = .next ((s.setIn []).setRes 0) := exec_done h rfl

theorem exec_inPush {s : State} (h : s.halt = false) (imm8 : Byte) :
    exec (.inPush imm8) s = .next ((s.setIn (s.inBuf.push imm8)).setRes 0) := exec_done h rfl

/-- Settles O56. -/
theorem inClrEmptiesTheInput : Obligations.InClrEmptiesTheInput := fun _ => exec_inClr

/-- Settles O57: the new IN is the old one with a byte pushed. -/
theorem inPushAppendsOneByte : Obligations.InPushAppendsOneByte := fun s imm8 h =>
  ⟨s.inBuf.push imm8, exec_inPush h imm8, Memory.bytes_push _ imm8, Memory.length_push _ imm8,
    fun _ => Memory.readByte_push_other _ imm8,
    fun hwf => ⟨Memory.wf_push hwf imm8, Memory.readByte_push_self hwf imm8⟩⟩

/-- Settles O58. -/
theorem ioXferMovesTheOutput : Obligations.IoXferMovesTheOutput := fun _ => exec_ioXfer

end Sys2Proof.Machine
end

section
/-! Errors and the halted state (60_exceptions.md): what a command that reports an error leaves, what a command, a word
and a step can do to HALT and HCAUSE, and the statements of the exceptions family settled from that. -/

namespace Sys2Proof.Machine

variable {i : Instr} {s t : State}

/-! ### A command that ends with an error -/

/-- RES other than 0 means that the command's work raised, and RES is the code of that error (R15, R38). -/
theorem exists_commandWork_raised (hh : s.halt = false) (hx : exec i s = .next t) (hres : t.res ≠ 0) :
    ∃ e u, commandWork Config.capacities i s = .raised e u ∧ t = u.raise e := by
  rcases exec_cases i s with ⟨hh', -⟩ | ⟨-, u, -, hx'⟩ | ⟨-, e, u, hw, hx'⟩
  · rw [hh] at hh'; cases hh'
  · rw [hx'] at hx; cases hx
    exact absurd rfl hres
  · exact ⟨e, u, hw, Host.Outcome.next.inj (hx.symm.trans hx')⟩

/-- The state in which a command raises is the one it started from; HUF.DECODE alone, whose errors are recoverable, has
emptied its source (R256, R259). -/
theorem commandWork_raised_state {e : Err} (hw : commandWork Config.capacities i s = .raised e t) :
    (t = s ∧ ∀ vs, i ≠ .hufDecode vs) ∨
      ∃ vs, i = .hufDecode vs ∧ t = s.setV vs BitVector.empty ∧ e ≠ .logic := by
  rcases commandWork_raised hw with ⟨rfl, hsource⟩ | ⟨vs, hi, ht, he⟩
  · refine .inl ⟨rfl, ?_⟩
    rintro vs rfl
    simp at hsource
  · exact .inr ⟨vs, hi, ht, by rcases he with rfl | rfl <;> decide⟩

/-- RES = 2 means that the command entered the halt from the state it started in (R256). -/
theorem eq_raise_logic_of_res_two (hh : s.halt = false) (hx : exec i s = .next t) (hres : t.res = 2) :
    t = s.raise .logic := by
  obtain ⟨e, u, hw, rfl⟩ := exists_commandWork_raised hh hx (by rw [hres]; decide)
  obtain rfl : e = .logic := e.code_eq_two_iff.1 ((u.raise_res e).symm.trans hres)
  rcases commandWork_raised_state hw with ⟨rfl, -⟩ | ⟨-, -, -, he⟩
  · rfl
  · exact absurd rfl he

/-! ### HALT and HCAUSE -/

/-- Of all ends of a command only LogicError writes HALT and HCAUSE. -/
theorem exec_agreeOn_halt (hh : s.halt = false) (hx : exec i s = .next t) (hres : t.res ≠ 2) : agreeOn t s .halt := by
  obtain ⟨f, -, -, hrun, -⟩ := exec_effect (i := i) hh hh (fun p _ => agreeOn_refl s p)
  obtain rfl := Host.Outcome.next.inj (hrun.symm.trans hx)
  have herror : f.error ≠ some .logic := fun he => hres (by rw [f.run_res, he]; rfl)
  exact Effect.run_agreeOn_kept (fun w _ => w.piece_ne_halt.symm) (fun he => absurd he herror) s

/-- What a command can do to HALT and HCAUSE: keep both, or enter the halt. -/
theorem exec_keeps_or_enters_halt (hx : exec i s = .next t) : agreeOn t s .halt ∨ (t.halt = true ∧ t.hcause = 2) := by
  cases hh : s.halt
  · by_cases hres : t.res = 2
    · obtain rfl := eq_raise_logic_of_res_two hh hx hres
      exact .inr ⟨rfl, rfl⟩
    · exact .inl (exec_agreeOn_halt hh hx hres)
  · obtain rfl := Host.Outcome.next.inj ((exec_halted i hh).symm.trans hx)
    exact .inl (agreeOn_refl s .halt)

/-- A word does no more to HALT and HCAUSE than a command: an illegal one writes RES alone (R92). -/
theorem stepWord_keeps_or_enters_halt {w : Word} (hx : stepWord w s = .next t) :
    agreeOn t s .halt ∨ (t.halt = true ∧ t.hcause = 2) := by
  cases hd : decode w with
  | ok i => exact exec_keeps_or_enters_halt ((stepWord_of_decode_ok hd s).symm.trans hx)
  | error e =>
    rw [stepWord_of_decode_error hd] at hx
    cases hh : s.halt
    · obtain rfl := Host.Outcome.next.inj ((execIllegal_running e hh).symm.trans hx)
      exact .inl ⟨rfl, rfl⟩
    · obtain rfl := Host.Outcome.next.inj ((execIllegal_halted e hh).symm.trans hx)
      exact .inl (agreeOn_refl s .halt)

/-- A step keeps HALT and HCAUSE, enters the halt, or is the reset input (R260, R280, R281). -/
theorem step_halt_cases (hx : step s = .next t) :
    agreeOn t s .halt ∨ (t.halt = true ∧ t.hcause = 2) ∨
      ∃ rest, s.pending = .reset :: rest ∧ t = { State.reset with pending := rest } := by
  match hp : s.pending with
  | [] =>
    obtain rfl := Host.Outcome.next.inj ((step_waits hp).symm.trans hx)
    exact .inl (agreeOn_refl s .halt)
  | .reset :: rest => exact .inr (.inr ⟨rest, rfl, Host.Outcome.next.inj (hx.symm.trans (step_reset hp))⟩)
  | .issue w :: rest =>
    rcases stepWord_keeps_or_enters_halt ((step_issue hp).symm.trans hx) with hkept | hentered
    · exact .inl hkept
    · exact .inr (.inl hentered)

/-! ### The port -/

theorem State.exists_readPort (s : State) {n : Nat} (hn : n ≤ 10) : ∃ value, s.readPort n = some value := by
  interval_cases n <;> exact ⟨_, rfl⟩

/-! ### The statements -/

/-- Settles O11: a step that clears HALT or HCAUSE neither keeps them nor enters the halt, so it is the reset. -/
theorem onlyResetLeavesTheHaltedState : Obligations.OnlyResetLeavesTheHaltedState := by
  intro s t hx
  rcases step_halt_cases hx with ⟨hhalt, hcause⟩ | ⟨hhalt, hcause⟩ | ⟨rest, hp, rfl⟩
  · rw [hhalt, hcause]
    refine ⟨?_, id⟩
    rintro (⟨hset, hclear⟩ | ⟨hset, hclear⟩)
    · rw [hset] at hclear; cases hclear
    · exact absurd hclear hset
  · rw [hhalt, hcause]
    refine ⟨?_, fun _ => .inr rfl⟩
    rintro (⟨-, ⟨⟩⟩ | ⟨-, hclear⟩)
    exact absurd hclear (by decide)
  · exact ⟨fun _ => ⟨rest, hp, rfl⟩, fun _ => .inl rfl⟩

/-- Settles O15: an error's code is in RES only if the command's work raised that error. -/
theorem eachErrorComesFromItsCommands : Obligations.EachErrorComesFromItsCommands := by
  intro i s t hh hx
  by_cases hres : t.res = 0
  · exact .inl hres
  refine .inr ?_
  obtain ⟨e, u, hw, rfl⟩ := exists_commandWork_raised hh hx hres
  rw [State.raise_res]
  rcases commandWork_raised hw with ⟨-, ⟨hi, rfl⟩ | ⟨hi, rfl | rfl⟩ | ⟨hi, rfl⟩ | ⟨hi, rfl⟩ | ⟨hi, rfl⟩ | ⟨hi, rfl⟩ |
    ⟨hi, rfl⟩⟩ | ⟨vs, hi, -, rfl | rfl⟩
  · exact .inr (.inl ⟨rfl, .inl hi⟩)
  · exact .inl ⟨rfl, .inl hi⟩
  · exact .inr (.inl ⟨rfl, .inr (.inl hi)⟩)
  · exact .inl ⟨rfl, .inr hi⟩
  · exact .inr (.inl ⟨rfl, .inr (.inr hi)⟩)
  · exact .inr (.inr (.inr (.inr (.inr ⟨rfl, .inr hi⟩))))
  · exact .inr (.inr (.inr (.inr (.inl ⟨rfl, hi⟩))))
  · exact .inr (.inr (.inr (.inr (.inr ⟨rfl, .inl hi⟩))))
  · exact .inr (.inr (.inr (.inl ⟨rfl, vs, hi⟩)))
  · exact .inr (.inr (.inl ⟨rfl, vs, hi⟩))

/-- Settles O16: a recoverable error writes RES to the state in which it is raised. -/
theorem recoverableErrorChangesOnlyRes : Obligations.RecoverableErrorChangesOnlyRes := by
  refine ⟨fun i s t hh hx hzero htwo => ⟨(exec_agreeOn_halt hh hx htwo).1.trans hh, ?_⟩,
    fun e _ => execIllegal_running e⟩
  obtain ⟨e, u, hw, rfl⟩ := exists_commandWork_raised hh hx hzero
  have he : e ≠ .logic := fun he => htwo (by rw [he]; rfl)
  rw [State.raise_res, State.raise_recoverable u he]
  rcases commandWork_raised_state hw with ⟨rfl, hi⟩ | ⟨vs, rfl, rfl, -⟩
  · exact ⟨fun _ => rfl, fun vs hvs => absurd hvs (hi vs)⟩
  · refine ⟨fun hi => absurd rfl (hi vs), ?_⟩
    rintro _ ⟨⟩
    rfl

/-- Settles O17: with HALT written RES is 2, which only LogicError's entry leaves. -/
theorem haltEntryIsPrecise : Obligations.HaltEntryIsPrecise := by
  intro i s t hh hx hend
  have hres : t.res = 2 := by
    by_contra hres
    have hrun : t.halt = false := (exec_agreeOn_halt hh hx hres).1.trans hh
    exact hend.elim hres (by simp [hrun])
  rw [eq_raise_logic_of_res_two hh hx hres, State.raise_logic]

/-- Settles O10: the identity of a halted core, and the eleven ports one by one. -/
theorem haltedCoreExecutesNothing : Obligations.HaltedCoreExecutesNothing := fun s h =>
  ⟨fun i => exec_halted i h, fun w => stepWord_halted w h, fun _ => s.exists_readPort⟩

end Sys2Proof.Machine
end
